-- ==== Sys2Proof/Word.lean ====
section
/-! DEFINITION. The word types of the serial-cv core and the ways a word is cut into named bits
(spec/00_scope.md R10: bit 0 is the least significant bit; all values are unsigned). -/

namespace Sys2Proof

/-- A byte: eight bits (R10). -/
abbrev Byte := BitVec 8

/-- Two bytes written as the 16-bit pair {first, second}, the first in the high half
(the form spec/opcode_table.json gives the host and bus pairs). -/
abbrev Pair := BitVec 16

/-- The ten cells of a serial character, bit `i` being cell `i` in time order (R70). -/
abbrev Cells := BitVec 10

/-- The 12-bit magnitude of a command, 0 to 4095 (R7, R75). -/
abbrev Magnitude := BitVec 12

/-- A line level: `true` is high and reads as 1, `false` is low and reads as 0 (R21). -/
abbrev Level := Bool

end Sys2Proof
end

