-- ==== Sys2Proof/Machine/Time.lean ====
section
/-! DEFINITION. Time (spec/10_state.md R38, spec/00_scope.md R8). An instant or a length of time is a real number. A real number
is no plain data, so the state holds its name, a `Time`: a parameter, a length that the environment draws, a rational number,
or a sum of such. `TimeValues` says which real number each name stands for, any real numbers whatever (log 5). -/

namespace Sys2Proof

/-- The name of a real instant or length of time. -/
inductive Time where
  /-- The rational number `q`. -/
  | num (q : Rat)
  /-- The `n`-th length that the environment draws (R11): any real number. -/
  | draw (n : Nat)
  /-- T_BIT (R8). -/
  | tBit
  /-- T_FIRST (R8). -/
  | tFirst
  /-- T_JITTER (R8). -/
  | tJitter
  /-- T_ISR (R8). -/
  | tIsr
  /-- T_HALF (R8). -/
  | tHalf
  /-- The sum of two times. -/
  | add (a b : Time)
  deriving DecidableEq, Repr, Inhabited

/-- The real numbers that times are made of: the timing parameters of R8, and the environment's draws. -/
structure TimeValues where
  /-- T_BIT, the sample timer's period. -/
  tBit : ℝ
  /-- T_FIRST, from the falling edge to the first sample. -/
  tFirst : ℝ
  /-- T_JITTER, the largest deviation of a sample instant. -/
  tJitter : ℝ
  /-- T_ISR, the largest duration of a handler. -/
  tIsr : ℝ
  /-- T_HALF, the transmitter's wait. -/
  tHalf : ℝ
  /-- The lengths of time that the environment draws. -/
  draw : Nat → ℝ

/-- The real number that a time is (R38). -/
def TimeValues.value (v : TimeValues) : Time → ℝ
  | .num q => q
  | .draw n => v.draw n
  | .tBit => v.tBit
  | .tFirst => v.tFirst
  | .tJitter => v.tJitter
  | .tIsr => v.tIsr
  | .tHalf => v.tHalf
  | .add a b => v.value a + v.value b

/-- The parameters that the model takes (R8): the real numbers that times are made of, and with them the order of the times.
The order is that of the real numbers. It is given along with them because no algorithm compares real numbers, and `step` is
to be one; the numbers leave no choice in it (`Params.ext_of_values`), and all real numbers have it (`exists_params`). -/
structure Params extends TimeValues where
  /-- One time is not later than another. -/
  le : Time → Time → Bool
  le_iff : ∀ a b, le a b = true ↔ toTimeValues.value a ≤ toTimeValues.value b

/-- The constraints that R8 puts on the timing parameters. -/
abbrev Params.Ok (p : Params) : Prop :=
  0 < p.tBit ∧ 0 < p.tFirst ∧ 0 ≤ p.tJitter ∧ 0 ≤ p.tIsr ∧ p.tIsr < p.tBit ∧ 0 < p.tHalf

/-- One time is earlier than another. -/
def Params.lt (p : Params) (a b : Time) : Bool :=
  !p.le b a

/-- The later of two times. -/
def Params.later (p : Params) (a b : Time) : Time :=
  if p.le a b then b else a

/-- `d` as a length of time: a negative one is none. -/
def Params.span (p : Params) (d : Time) : Time :=
  p.later (.num 0) d

/-- The delay that TMR_PHASE selects, T_FIRST for the first expiry and T_BIT for a later one (R24). -/
def tickDelay (phase : Bool) : Time :=
  if phase then .tBit else .tFirst

end Sys2Proof
end

