-- ==== Sys2Proof/Machine/Types.lean ====
section
/-! DEFINITION. The named alternatives that the block's state is made of: the interpreter's states, the
positions of the sequencers (spec/10_state.md R29, R31, R32), the boot steps (R231), and the choices
that the spec leaves to the environment (R11 `draw`, R12 agents 3 and 4). -/

namespace Sys2Proof

/-- ISTATE: the two states of the command interpreter (R29, R150). -/
inductive IState where
  | awaitFirst
  | awaitSecond
  deriving DecidableEq, Repr, Inhabited

/-- The action the interpreter emits and the DAC driver performs (R15, R32). -/
inductive Action where
  | setVoltage (w : Magnitude)
  | shutdown
  deriving DecidableEq, Repr, Inhabited

/-- MPHASE: the main loop's position (R31, R180). In DECODE it carries the byte that
`MailboxTake` returned and that no other state element holds (R181, R182, R210; DEDUCED, log 20). -/
inductive MPhase where
  | read
  | decode (b : Byte)
  | act
  deriving DecidableEq, Repr, Inhabited

/-- The two lines of the transmitter (R20, R36, R37). -/
inductive Pin where
  | scl
  | sda
  deriving DecidableEq, Repr

/-- One micro-step of the transmitter: a `PinSet`, or the end of a `Wait(T_HALF)` (R11, R131). -/
inductive MicroOp where
  | pin (p : Pin) (l : Level)
  | wait
  deriving DecidableEq, Repr

/-- The six micro-steps of START, in order (R132). -/
inductive StartMicro where
  | sdaHigh
  | sclHigh
  | waitIdle
  | sdaFall
  | waitHold
  | sclFall
  deriving DecidableEq, Repr, Inhabited

/-- The five micro-steps of a bit slot and of an acknowledgment slot, in order (R133, R134). -/
inductive SlotMicro where
  | sda
  | waitSetup
  | sclRise
  | waitHigh
  | sclFall
  deriving DecidableEq, Repr, Inhabited

/-- The six micro-steps of STOP, in order (R135). -/
inductive StopMicro where
  | sdaLow
  | waitSetup
  | sclRise
  | waitHigh
  | sdaRise
  | waitFree
  deriving DecidableEq, Repr, Inhabited

/-- Where the transmitter stands inside a frame: the micro-step it takes next (R31, R140).
`bit k i m` is micro-step `m` of the slot of bit `i` of byte `k` of the frame. -/
inductive TxSpot where
  | start (m : StartMicro)
  | bit (k : Nat) (i : Fin 8) (m : SlotMicro)
  | ack (k : Nat) (m : SlotMicro)
  | stop (m : StopMicro)
  deriving DecidableEq, Repr, Inhabited

/-- TXPOS while a frame is being sent: the frame (the address byte first) and the place in it (R31). -/
structure TxPos where
  frame : List Byte
  spot : TxSpot
  deriving DecidableEq, Repr, Inhabited

/-- The boot sequence's steps, each named by what it sets up (R231, steps 1 to 5). -/
inductive BootStep where
  | busIdle
  | timerStopped
  | flagsCleared
  | sequencersSet
  | edgeEnabled
  deriving DecidableEq, Repr

/-- What the serial host has yet to send: a two-byte command, a serial character, or one cell (R80, R70, R87). -/
inductive HostItem where
  | pair (w : Pair)
  | char (c : Cells)
  | cell (l : Level)
  deriving DecidableEq, Repr

/-- Where a sample's level comes from: the RX line as it stands, or a level the environment drew
because RX changes within T_JITTER of the sample (R112, U5). -/
inductive SampleDraw where
  | line
  | drawn (l : Level)
  deriving DecidableEq, Repr

/-- One choice of who moves next and how (R12, R60, R11 `draw`). A run's choices are data of the
state, so a statement over all states is a statement over all environments (R110, D31). -/
inductive Turn where
  /-- The foreground takes one step, if it has one. -/
  | foreground
  /-- The serial host acts on the next of its pending items. -/
  | host
  /-- The RX line takes level `l`. `missed` asks that a falling edge within T_ISR after a
  completing tick go undetected (R113, U6); anywhere else it is without effect. -/
  | rx (l : Level) (missed : Bool)
  /-- The bus device sets SDA_DEV (R20, U7, U8). -/
  | device (l : Level)
  /-- The sample timer expires (R103). -/
  | expiry (d : SampleDraw)
  /-- Time passes (timed level): `d` of it, none if `d` is negative. -/
  | elapse (d : Time)
  /-- The handler that has just run takes `d` more of time (timed level, R213), none if `d` is negative. -/
  | handler (d : Time)
  /-- Power is lost and restored (R219, R230). -/
  | powerCycle
  deriving DecidableEq, Repr

/-- The two levels of model (R13). -/
inductive ModelLevel where
  | event
  | timed
  deriving DecidableEq, Repr

end Sys2Proof
end

