-- ==== Sys2Proof/Config.lean ====
section
/-! DEFINITION. What the spec leaves to an implementation: the parameters of spec/00_scope.md R8, and
the unspecified contents of the state elements at power-up (R43). Every one is an opaque constant (log 14), so
nothing can be proved of it beyond the constraints of R8, which the definitions below build in. -/

namespace Sys2Proof

/-- Parameters that meet R8's constraints, all draws being 0 (T_BIT, T_FIRST and T_HALF are 1, the others 0). -/
def TimeValues.plain : TimeValues where
  tBit := 1
  tFirst := 1
  tJitter := 0
  tIsr := 0
  tHalf := 1
  draw _ := 0

/-- The times under `TimeValues.plain`, which are rational. -/
def plainValue : Time → Rat
  | .num q => q
  | .draw _ => 0
  | .tBit => 1
  | .tFirst => 1
  | .tJitter => 0
  | .tIsr => 0
  | .tHalf => 1
  | .add a b => plainValue a + plainValue b

theorem plain_value (t : Time) : TimeValues.plain.value t = plainValue t := by
  induction t <;> simp_all [TimeValues.value, TimeValues.plain, plainValue]

/-- `TimeValues.plain` with its order. -/
def Params.plain : Params where
  toTimeValues := .plain
  le a b := decide (plainValue a ≤ plainValue b)
  le_iff a b := by simp [plain_value]

/-- An implementation's timing parameters and an environment's draws: any that R8 allows, or none given. -/
opaque Config.rawTiming : Option { p : Params // p.Ok }

/-- The implementation's timing parameters and the environment's draws, real numbers all: every combination that R8 allows,
and no other (log 14). -/
def Config.timing : Params :=
  match Config.rawTiming with
  | some p => p.val
  | none => .plain

/-- SD_HI[7:4] less one: any of the fifteen non-zero configuration codes (R8, R84). -/
opaque Config.sdMode : Fin 15
/-- SD_HI[3:0]. -/
opaque Config.sdLow : BitVec 4

/-- SD_HI, the high byte of the shutdown command: any byte with a non-zero high nibble (R8, R84). -/
def Config.sdHi : Byte :=
  BitVec.ofNat 4 (Config.sdMode.val + 1) ++ Config.sdLow

/-- What the state elements hold when power is restored, before boot has set them (R43, R231). -/
structure PowerUp where
  tmrRun : Bool
  tmrPhase : Bool
  bitPos : BitVec 4
  acc : Byte
  rxBuf : Byte
  rxRdy : Bool
  iState : IState
  pending : Byte
  mPhase : MPhase
  txPos : Option TxPos
  curAction : Option Action
  sclOut : Level
  sdaOut : Level
  deriving DecidableEq, Repr, Inhabited

/-- The unspecified contents at the n-th return of power. -/
opaque Config.powerUp : Nat → PowerUp

end Sys2Proof
end

