-- ==== Sys2Proof/Machine/State.lean ====
section
/-! DEFINITION. The state of the block (spec/10_state.md): every element of rule R43, the ports of R20,
the timed level's elements of R38, the pending and masked interrupts of R204 and R205, and the model's
own fields, which hold what the environment is going to do. -/

namespace Sys2Proof.Machine

/-- The whole machine. Plain data; INVENTORY.md names the rule of every field. Instants are real numbers,
as R38 has them, of an unnamed unit; a field holds the name of one, a `Time` (DESIGN CHOICE for the form, log 5). -/
structure State where
  /-- EDGE_EN (R22). -/
  edgeEn : Bool
  /-- TMR_RUN (R23). -/
  tmrRun : Bool
  /-- TMR_PHASE (R24). -/
  tmrPhase : Bool
  /-- BITPOS (R25). -/
  bitPos : BitVec 4
  /-- ACC (R26). -/
  acc : Byte
  /-- RXBUF (R27). -/
  rxBuf : Byte
  /-- RXRDY (R28). -/
  rxRdy : Bool
  /-- ISTATE (R29). -/
  iState : IState
  /-- PENDING (R30). -/
  pending : Byte
  /-- MPHASE, with the byte held in DECODE (R31, R181). -/
  mPhase : MPhase
  /-- TXPOS, `none` when idle (R31). -/
  txPos : Option TxPos
  /-- CUR_ACTION (R32). -/
  curAction : Option Action
  /-- SCL_OUT (R33). -/
  sclOut : Level
  /-- SDA_OUT, `true` when released (R34). -/
  sdaOut : Level
  /-- The level on the RX port (R20, R21). -/
  rx : Level
  /-- The level on the SDA_DEV port (R20, R37). -/
  sdaDev : Level
  /-- NOW, a real number (R38). -/
  now : Time
  /-- NEXT_TICK, a real number, `none` when undefined (R38). -/
  nextTick : Option Time
  /-- A pending EDGE event, with the time of its edge (R204, R102). -/
  edgePend : Option Time
  /-- A pending TIMER event, with where its level comes from (R204, R112). -/
  tmrPend : Option SampleDraw
  /-- Interrupts are masked (R205, R231 step 5). -/
  intMask : Bool
  /-- The boot step to be taken next, `none` once boot has finished (R231). -/
  bootPos : Option BootStep
  /-- Which of the two levels of model the run is at (R13; DESIGN CHOICE, log 4). -/
  level : ModelLevel
  /-- When the foreground took its last transmitter micro-step: where a Wait began (R131). -/
  microAt : Time
  /-- When the last handler began (R113, R213). -/
  isrAt : Option Time
  /-- When RX last changed (R112). -/
  rxAt : Option Time
  /-- What the serial host has yet to send (R12, agent 3). -/
  hostOut : List HostItem
  /-- The environment's choices of who moves next (R11 `draw`, R60). -/
  sched : List Turn
  /-- How often power has returned: the index of the unspecified contents it brings (R43, R219). -/
  powerUps : Nat
  deriving DecidableEq, Repr

/-- The stops that stand for a state no run reaches. The block itself faults nowhere (R200; DESIGN CHOICE, log 9). -/
inductive Fault where
  /-- Raised by TimerTick when BITPOS is above 7, which R25 and R42 rule out. Safe. -/
  | bitPosOutOfRange
  /-- Raised in ACT when there is no action to perform, which R32 rules out. Safe. -/
  | actWithoutAction
  /-- Raised by the transmitter when TXPOS names a byte that its frame lacks (R31, R140). Safe. -/
  | byteOutOfFrame
  /-- Raised by the transmitter when a frame does not begin with ADDR_BYTE, which R137 rules out. Safe. -/
  | notAddressByte
  deriving DecidableEq, Repr

/-- The refusals: a meaning asked for where its rule's guard is false (log 9), and draws of the timed level that the
spec's environment does not have (log 13). -/
inductive Refusal where
  /-- An instruction that has no meaning yet, by its mnemonic. Raised by no arm of this model. Safe. -/
  | notModelled (mnemonic : String)
  /-- Raised by a command meaning whose guard on ISTATE and the byte is false (R151 to R155), and by ADDR_BYTE
  away from the start of a frame's address byte (R137). `step` never raises it. Safe. -/
  | notEnabled
  /-- Raised at the timed level when the time given to a handler ends later than T_ISR after it
  began (R213, U10). Safe. -/
  | handlerTooLong
  /-- Raised at the timed level when a tick is drawn more than T_JITTER from its nominal time (R112). Safe. -/
  | tickOutsideWindow
  /-- Raised at the timed level when the level drawn is not RX's and RX does not change within T_JITTER of the
  nominal time (R112). Safe. -/
  | levelNotOnLine
  /-- Raised at the timed level when time would pass a tick by more than T_JITTER (R111, R112). Safe. -/
  | tickOverdue
  deriving DecidableEq, Repr

/-- What one step can answer. -/
abbrev Result := Host.Outcome State Fault Refusal

/-- The state after reset and boot (R43, R230). The spec leaves TMR_PHASE, ACC, RXBUF and PENDING unspecified
(assumption log 1), and gives the environment's ports and the model's own fields no value (logs 2, 3, 4). -/
def State.reset : State where
  edgeEn := true
  tmrRun := false
  tmrPhase := false
  bitPos := 0
  acc := 0
  rxBuf := 0
  rxRdy := false
  iState := .awaitFirst
  pending := 0
  mPhase := .read
  txPos := none
  curAction := none
  sclOut := true
  sdaOut := true
  rx := true
  sdaDev := true
  now := .num 0
  nextTick := none
  edgePend := none
  tmrPend := none
  intMask := false
  bootPos := none
  level := .event
  microAt := .num 0
  isrAt := none
  rxAt := none
  hostOut := []
  sched := []
  powerUps := 0

end Sys2Proof.Machine
end

