-- ==== Sys2Proof/Machine/Flags.lean ====
section
/-! DEFINITION. The flags. RXRDY is the block's only status flag, and no step sets a condition code as a side
effect (spec/10_state.md R28, R40). -/

namespace Sys2Proof.Machine

/-- The completing TimerTick sets RXRDY (R28, R104). -/
def State.raiseReady (s : State) : State := { s with rxRdy := true }

/-- `MailboxTake` clears RXRDY (R28, R106). -/
def State.clearReady (s : State) : State := { s with rxRdy := false }

end Sys2Proof.Machine
end

