-- ==== Sys2Proof/Machine/Operands.lean ====
section
/-! DEFINITION. The operand forms: the fields of command bytes, characters and bus bytes, cut out and put
together as spec/30_encoding.md lays them out, with that file's decisions D2, D9, D10 and D11 (log 16). -/

namespace Sys2Proof.Machine

/-- Bit 0 of a command byte: 1 marks a first byte (R72). -/
def syncBit (b : Byte) : Bool := b.getLsbD 0

/-- S, bit 6 of a second byte (R74, R76). -/
def shutdownBit (b : Byte) : Bool := b.getLsbD 6

/-- The magnitude {b1[7:1], b2[5:1]} (R75). -/
def magnitude (b1 b2 : Byte) : Magnitude :=
  b1.extractLsb' 1 7 ++ b2.extractLsb' 1 5

/-- The first byte that carries V11 to V5 of `w` (R73). -/
def firstByte (w : Magnitude) : Byte :=
  w.extractLsb' 5 7 ++ 1#1

/-- The second byte with don't-care bit `x`, shutdown bit `s` and V4 to V0 equal to `v` (R74). -/
def secondByte (x s : BitVec 1) (v : BitVec 5) : Byte :=
  x ++ s ++ v ++ 0#1

/-- Two bytes as the pair {a, b} (R10, R80, R83). -/
def pairOf (a b : Byte) : Pair := a ++ b

/-- The first byte of a pair: its high half (R80, R83). -/
def pairFirst (w : Pair) : Byte := w.extractLsb' 8 8

/-- The second byte of a pair: its low half (R80, R83). -/
def pairSecond (w : Pair) : Byte := w.extractLsb' 0 8

/-- The character that carries byte `d`: cell 0 is the start cell, cell k+1 is data bit k, cell 9 is
the stop cell (R70, R64). -/
def charOf (d : Byte) : Cells :=
  1#1 ++ d ++ 0#1

/-- The eight data cells of a character as a byte (R70). -/
def charData (c : Cells) : Byte := c.extractLsb' 1 8

/-- A character's ten cells in time order (R70). -/
def cellLevels (c : Cells) : List Level :=
  [c.getLsbD 0, c.getLsbD 1, c.getLsbD 2, c.getLsbD 3, c.getLsbD 4,
   c.getLsbD 5, c.getLsbD 6, c.getLsbD 7, c.getLsbD 8, c.getLsbD 9]

/-- DEV_ADDR, the seven-bit bus address (R7, R51). -/
def devAddr : BitVec 7 := 0b1100000#7

/-- ADDR_BYTE = {DEV_ADDR, RW} with RW = 0 for a write (R82). -/
def addressByte : Byte :=
  devAddr ++ 0#1

/-- HI of SetVoltage: the upper half of the magnitude held in 16 bits (R83). -/
def dacHigh (w : Magnitude) : Byte :=
  (w.zeroExtend 16).extractLsb' 8 8

/-- LO of SetVoltage: the lower half of the magnitude held in 16 bits (R83). -/
def dacLow (w : Magnitude) : Byte :=
  (w.zeroExtend 16).extractLsb' 0 8

/-- SD_LO, the low byte of Shutdown (R7, R84). -/
def sdLo : Byte := 0x00#8

/-- The data bytes of an action, the high byte first (R67, R83, R84). -/
def actionBytes : Action → List Byte
  | .setVoltage w => [dacHigh w, dacLow w]
  | .shutdown => [Config.sdHi, sdLo]

/-- The frame of an action: the address byte, then the data bytes (R85, R137). -/
def actionFrame (a : Action) : List Byte :=
  addressByte :: actionBytes a

end Sys2Proof.Machine
end

