-- ==== Sys2Proof/Machine/Ops.lean ====
section
/-! DEFINITION. The named operations that the steps share: the primitives of spec/00_scope.md R11, interrupt
entry and return (spec/60_exceptions.md R210 to R212), and the host's queue. The block has no memory and no
register file (R41, R50), so there is no load, store or register operation. -/

namespace Sys2Proof.Machine

/-- `Sample(RX)`: the level of the RX port at this instant (R11, R21). -/
def State.sample (s : State) : Level := s.rx

/-- `PinSet` (R36, R37). -/
def State.pinSet (s : State) : Pin → Level → State
  | .scl, l => { s with sclOut := l }
  | .sda, l => { s with sdaOut := l }

/-- The level on the SCL wire (R35). -/
def State.sclWire (s : State) : Level := s.sclOut

/-- The level on the SDA wire: the AND of the block's drive and the device's (R37). -/
def State.sdaWire (s : State) : Level := s.sdaOut && s.sdaDev

/-- `MailboxWrite(v)` (R58, R104): the value and the flag together. -/
def State.mailboxWrite (s : State) (v : Byte) : State :=
  State.raiseReady { s with rxBuf := v }

/-- `MailboxTake` (R57, R106): RXBUF is returned and RXRDY cleared, in one step. -/
def State.mailboxTake (s : State) : Byte × State :=
  (s.rxBuf, s.clearReady)

/-- `emit a` (R11), with the main loop's part of it: CUR_ACTION is written and MPHASE becomes ACT (R182). -/
def State.emit (s : State) (a : Action) : State :=
  { s with curAction := some a, mPhase := .act }

/-- DECODE without an action: MPHASE becomes READ (R182). -/
def State.noAction (s : State) : State :=
  { s with mPhase := .read }

/-- Interrupt entry (R210, R211, R204): the pending events are cleared, interrupts are masked, and the
foreground's state is kept as it is. -/
def State.enterHandler (s : State) : State :=
  { s with edgePend := none, tmrPend := none, intMask := true, isrAt := some s.now }

/-- Return from a handler (R212): interrupts are unmasked, and the foreground goes on where it stopped. -/
def State.leaveHandler (s : State) : State :=
  { s with intMask := false }

/-- The serial host queues items before what it has yet to send (R80). -/
def State.queueFirst (s : State) (items : List HostItem) : State :=
  { s with hostOut := items ++ s.hostOut }

/-- A handler's body between interrupt entry and return: one indivisible step (R211; D4, log 12). -/
def State.inHandler (s : State) (body : State → Result) : Result :=
  match body s.enterHandler with
  | .next t => .next t.leaveHandler
  | .fault f => .fault f
  | .refused r => .refused r

end Sys2Proof.Machine
end

