-- ==== Sys2Proof/Machine/Bus.lean ====
section
/-! DEFINITION. The two-wire bus transmitter (spec/41_transmitter.md) and the DAC driver that uses it
(spec/43_dac_driver.md). A frame is sent micro-step by micro-step; TXPOS names the next one (R140).
The steps are those of the spec's decisions D13 to D17 (log 18). -/

namespace Sys2Proof.Machine

/-- The micro-steps of START (R132). -/
def startOp : StartMicro → MicroOp
  | .sdaHigh => .pin .sda true
  | .sclHigh => .pin .scl true
  | .waitIdle => .wait
  | .sdaFall => .pin .sda false
  | .waitHold => .wait
  | .sclFall => .pin .scl false

/-- The micro-steps of a slot that puts `b` on SDA: BitSlot(b) (R133), and AckSlot with SDA released (R134). -/
def slotOp (b : Level) : SlotMicro → MicroOp
  | .sda => .pin .sda b
  | .waitSetup => .wait
  | .sclRise => .pin .scl true
  | .waitHigh => .wait
  | .sclFall => .pin .scl false

/-- The micro-steps of STOP (R135). -/
def stopOp : StopMicro → MicroOp
  | .sdaLow => .pin .sda false
  | .waitSetup => .wait
  | .sclRise => .pin .scl true
  | .waitHigh => .wait
  | .sdaRise => .pin .sda true
  | .waitFree => .wait

/-- The micro-step that a place in a frame stands for; `none` if the frame has no such byte. -/
def microOp (frame : List Byte) : TxSpot → Option MicroOp
  | .start m => some (startOp m)
  | .bit k i m => (frame[k]?).map fun v => slotOp (v.getLsbD i.val) m
  | .ack k m => if k < frame.length then some (slotOp true m) else none
  | .stop m => some (stopOp m)

/-- The micro-step after one of START, if any. -/
def nextStart : StartMicro → Option StartMicro
  | .sdaHigh => some .sclHigh
  | .sclHigh => some .waitIdle
  | .waitIdle => some .sdaFall
  | .sdaFall => some .waitHold
  | .waitHold => some .sclFall
  | .sclFall => none

/-- The micro-step after one of a slot, if any. -/
def nextSlot : SlotMicro → Option SlotMicro
  | .sda => some .waitSetup
  | .waitSetup => some .sclRise
  | .sclRise => some .waitHigh
  | .waitHigh => some .sclFall
  | .sclFall => none

/-- The micro-step after one of STOP, if any. -/
def nextStop : StopMicro → Option StopMicro
  | .sdaLow => some .waitSetup
  | .waitSetup => some .sclRise
  | .sclRise => some .waitHigh
  | .waitHigh => some .sdaRise
  | .sdaRise => some .waitFree
  | .waitFree => none

/-- The place after one in a frame of `n` bytes (R136, R137, R140): bits 7 down to 0 of a byte, its
acknowledgment slot, the next byte, and STOP after the last; `none` after STOP. -/
def nextSpot (n : Nat) : TxSpot → Option TxSpot
  | .start m =>
    match nextStart m with
    | some m' => some (.start m')
    | none => some (.bit 0 7 .sda)
  | .bit k i m =>
    match nextSlot m with
    | some m' => some (.bit k i m')
    | none => if i = 0 then some (.ack k .sda) else some (.bit k (i - 1) .sda)
  | .ack k m =>
    match nextSlot m with
    | some m' => some (.ack k m')
    | none => if k + 1 < n then some (.bit (k + 1) 7 .sda) else some (.stop .sdaLow)
  | .stop m =>
    match nextStop m with
    | some m' => some (.stop m')
    | none => none

/-- The effect of a micro-step on the lines. A Wait writes no state (R131). -/
def State.applyMicro (s : State) : MicroOp → State
  | .pin p l => s.pinSet p l
  | .wait => s

/-- TXPOS moves on from `q`; after STOP the transmitter is idle, CUR_ACTION is none and MPHASE is READ (R183). -/
def State.advanceTx (q : TxPos) (s : State) : State :=
  match nextSpot q.frame.length q.spot with
  | some spot => { s with txPos := some { q with spot := spot }, microAt := s.now }
  | none => { s with txPos := none, curAction := none, mPhase := .read, microAt := s.now }

/-- One foreground step of the transmitter, at place `q`. -/
def State.runMicro (q : TxPos) (s : State) : Result :=
  match microOp q.frame q.spot with
  | some op => .next ((s.applyMicro op).advanceTx q)
  | none => .fault .byteOutOfFrame

/-- `SendFrame(d)` begins: TXPOS is set to the start of the frame and its first micro-step is taken (R137). -/
def State.sendFrame (d : List Byte) (s : State) : Result :=
  s.runMicro { frame := addressByte :: d, spot := .start .sdaHigh }

/-- The place where SendByte(ADDR_BYTE) begins (R136, R137). -/
def atAddressByte (q : TxPos) : Bool :=
  q.spot == .bit 0 7 .sda && q.frame.head? == some addressByte

/-- ADDR_BYTE: SendByte(ADDR_BYTE) begins with the slot of its bit 7 (R82, R136, R137). The instruction is
that first micro-step (DESIGN CHOICE, log 10). -/
def execAddrByte (s : State) : Result :=
  match s.txPos with
  | some q => if atAddressByte q then s.runMicro q else .refused .notEnabled
  | none => .refused .notEnabled

/-- SETV_DATA: SetVoltage(w) sends its data bytes HI and LO (R171). The instruction is the frame's first micro-step
(DESIGN CHOICE, log 10). -/
def execSetvData (w : Magnitude) (s : State) : Result :=
  s.sendFrame [dacHigh w, dacLow w]

/-- SHUTDOWN_DATA: Shutdown sends SD_HI and SD_LO (R172). The instruction is the frame's first micro-step
(DESIGN CHOICE, log 10). -/
def execShutdownData (s : State) : Result :=
  s.sendFrame [Config.sdHi, sdLo]

/-- START as the list of its micro-steps (R132). -/
def startOps : List MicroOp :=
  [.pin .sda true, .pin .scl true, .wait, .pin .sda false, .wait, .pin .scl false]

/-- BitSlot(b) as the list of its micro-steps (R133). -/
def bitSlotOps (b : Level) : List MicroOp :=
  [.pin .sda b, .wait, .pin .scl true, .wait, .pin .scl false]

/-- AckSlot as the list of its micro-steps (R134). -/
def ackSlotOps : List MicroOp :=
  [.pin .sda true, .wait, .pin .scl true, .wait, .pin .scl false]

/-- STOP as the list of its micro-steps (R135). -/
def stopOps : List MicroOp :=
  [.pin .sda false, .wait, .pin .scl true, .wait, .pin .sda true, .wait]

/-- SendByte(v) as the list of its micro-steps, most significant bit first (R136, R65). -/
def sendByteOps (v : Byte) : List MicroOp :=
  [7, 6, 5, 4, 3, 2, 1, 0].flatMap (fun i => bitSlotOps (v.getLsbD i)) ++ ackSlotOps

/-- SendFrame as the list of its micro-steps, for a frame with its address byte (R137). -/
def sendFrameOps (frame : List Byte) : List MicroOp :=
  startOps ++ frame.flatMap sendByteOps ++ stopOps

/-- The micro-steps that TXPOS runs through, at most `fuel` of them, from a place in a frame (R140). -/
def walkOps (frame : List Byte) : Nat → TxSpot → List MicroOp
  | 0, _ => []
  | fuel + 1, spot =>
    match microOp frame spot with
    | none => []
    | some op =>
      op :: match nextSpot frame.length spot with
        | some next => walkOps frame fuel next
        | none => []

end Sys2Proof.Machine
end

