-- ==== Sys2Proof/Machine/Interpreter.lean ====
section
/-! DEFINITION. The command interpreter (spec/42_interpreter.md): the meaning of each class of command byte, with
the main loop's DECODE part (R182). Each meaning has its rule's guard on ISTATE and the byte. -/

namespace Sys2Proof.Machine

/-- R151 DISCARD: nothing is written and no action is emitted. -/
def execDiscard (b : Byte) (s : State) : Result :=
  if s.iState = .awaitFirst ∧ syncBit b = false then .next s.noAction
  else .refused .notEnabled

/-- R152 FIRST: the byte becomes the pending first byte. -/
def execFirst (b : Byte) (s : State) : Result :=
  if s.iState = .awaitFirst ∧ syncBit b = true then
    .next { s with pending := b, iState := .awaitSecond }.noAction
  else .refused .notEnabled

/-- R154 REFIRST: the byte replaces the pending first byte. -/
def execRefirst (b : Byte) (s : State) : Result :=
  if s.iState = .awaitSecond ∧ syncBit b = true then
    .next { s with pending := b, iState := .awaitSecond }.noAction
  else .refused .notEnabled

/-- R153 SHUTDOWN: the magnitude field is discarded and PENDING is left as it was. -/
def execShutdown (b : Byte) (s : State) : Result :=
  if s.iState = .awaitSecond ∧ syncBit b = false ∧ shutdownBit b = true then
    .next ({ s with iState := .awaitFirst }.emit .shutdown)
  else .refused .notEnabled

/-- R155 SETV: the magnitude is {PENDING[7:1], b[5:1]}, and PENDING is left as it was. -/
def execSetv (b : Byte) (s : State) : Result :=
  if s.iState = .awaitSecond ∧ syncBit b = false ∧ shutdownBit b = false then
    .next ({ s with iState := .awaitFirst }.emit (.setVoltage (magnitude s.pending b)))
  else .refused .notEnabled

/-- READ (R181): a byte is taken if one is ready; otherwise the foreground holds (R107). -/
def State.readStep (s : State) : State :=
  if s.rxRdy then { s.mailboxTake.2 with mPhase := .decode s.mailboxTake.1 } else s

end Sys2Proof.Machine
end

