-- ==== Sys2Proof/Machine/Sampler.lean ====
section
/-! DEFINITION. The serial bit sampler (spec/40_sampler.md): how RX and the timer raise events, and the two
handlers EdgeFall and TimerTick. Times are written as the timed level asks (R38); no event-level effect
depends on them. -/

namespace Sys2Proof.Machine

/-- R113: a falling edge at this instant lies within T_ISR after the completing tick that re-enabled edge
detection. While EDGE_EN = 1 the last handler was that completing tick. -/
def State.edgeMayBeMissed (p : Params) (s : State) : Bool :=
  match s.level, s.isrAt with
  | .timed, some t => p.lt t s.now && p.le s.now (t.add .tIsr)
  | _, _ => false

/-- The RX line takes level `l` (R110). A falling edge raises EDGE if EDGE_EN = 1; with EDGE_EN = 0 it is
discarded, not latched (R101, R204; D3, log 17). -/
def State.driveRx (p : Params) (l : Level) (missed : Bool) (s : State) : State :=
  let accepted := s.rx && !l && s.edgeEn && !(missed && s.edgeMayBeMissed p)
  { s with
    rx := l
    rxAt := if l = s.rx then s.rxAt else some s.now
    edgePend := if accepted then some s.now else s.edgePend }

/-- The sample timer expires: TIMER is raised if the timer is armed (R103, R203). No sampler step can
occur before boot has finished (R231). -/
def State.raiseTimer (d : SampleDraw) (s : State) : State :=
  if s.bootPos = none && s.tmrRun then { s with tmrPend := some d } else s

/-- R102: EdgeFall, accepted, for an edge at time `t`. -/
def State.edgeFall (t : Time) (s : State) : State :=
  { s with
    edgeEn := false
    tmrRun := true
    tmrPhase := false
    nextTick := some (t.add (tickDelay false)) }

/-- `v` with bit `i` set to `l`, the other bits kept (R103). -/
def setBit (v : Byte) (i : Nat) (l : Level) : Byte :=
  if l then v ||| BitVec.twoPow 8 i else v &&& ~~~(BitVec.twoPow 8 i)

/-- R103: the sampling part of TimerTick. -/
def State.tickSample (l : Level) (s : State) : State :=
  { s with
    acc := setBit s.acc s.bitPos.toNat l
    bitPos := s.bitPos + 1
    tmrPhase := true
    nextTick := s.nextTick.map (·.add (tickDelay true)) }

/-- R104: the completing part of TimerTick. An unread byte is overwritten (R105). -/
def State.tickComplete (s : State) : State :=
  { s.mailboxWrite s.acc with
    bitPos := 0
    tmrRun := false
    edgeEn := true
    nextTick := none }

/-- R103 and R104: TimerTick at level `l`. -/
def State.timerTick (l : Level) (s : State) : Result :=
  if 7 < s.bitPos.toNat then .fault .bitPosOutOfRange
  else
    let t := s.tickSample l
    if t.bitPos = 8 then .next t.tickComplete else .next t

/-- The level of a sample: RX as it stands, or the level drawn (R112). -/
def State.drawnLevel (s : State) : SampleDraw → Level
  | .line => s.sample
  | .drawn l => l

/-- The interrupt context takes a pending EDGE event (R203, R210 to R212). -/
def State.takeEdge (t : Time) (s : State) : Result :=
  s.inHandler fun u => .next (u.edgeFall t)

/-- The interrupt context takes a pending TIMER event (R203, R210 to R212). -/
def State.takeTimer (d : SampleDraw) (s : State) : Result :=
  s.inHandler fun u => u.timerTick (s.drawnLevel d)

/-- A byte's life at the event level (R109): an accepted EdgeFall at time `t`, then one TimerTick for each level. -/
def State.ticks : List Level → State → Result
  | [], s => .next s
  | l :: ls, s =>
    match s.timerTick l with
    | .next t => State.ticks ls t
    | .fault f => .fault f
    | .refused r => .refused r

end Sys2Proof.Machine
end

