-- ==== Sys2Proof/Machine/Serial.lean ====
section
/-! DEFINITION. The serial host's side (spec/30_encoding.md R70, R80): its two-byte forms expand to two
characters, and a character expands to ten cells on RX. -/

namespace Sys2Proof.Machine

/-- The two characters that carry the bytes of a pair, the first byte's first (R80). -/
def pairItems (w : Pair) : List HostItem :=
  [.char (charOf (pairFirst w)), .char (charOf (pairSecond w))]

/-- The ten cells of a character in time order (R70). -/
def charItems (c : Cells) : List HostItem :=
  (cellLevels c).map .cell

/-- The levels that an item of the host's queue puts on RX, in time order (R70, R80). -/
def itemLevels : HostItem → List Level
  | .pair w => cellLevels (charOf (pairFirst w)) ++ cellLevels (charOf (pairSecond w))
  | .char c => cellLevels c
  | .cell l => [l]

/-- ENC_SETV: the host sends the characters of the first and the second byte of magnitude `w` (R80). -/
def execEncSetv (w : Magnitude) (x : BitVec 1) (s : State) : Result :=
  .next (s.queueFirst
    [.char (charOf (firstByte w)), .char (charOf (secondByte x 0#1 (w.extractLsb' 0 5)))])

/-- ENC_SHUTDOWN: the host sends the characters of first byte `f` and of a second byte with S = 1 (R80). -/
def execEncShutdown (f : Byte) (x : BitVec 1) (v : BitVec 5) (s : State) : Result :=
  .next (s.queueFirst [.char (charOf f), .char (charOf (secondByte x 1#1 v))])

/-- SERIAL_CHAR: the host drives the ten cells in time order (R70). -/
def execSerialChar (c : Cells) (s : State) : Result :=
  .next (s.queueFirst (charItems c))

/-- The host drives one cell. At the event level the cell lasts one bit period and an armed timer expires in its
middle, which is where R114 puts the samples (DESIGN CHOICE, log 6); at the timed level the expiries are the environment's turns.
A falling edge that a cell makes is never missed, not even within T_ISR after a completing tick, where R113 lets it be: only
the turn `rx` can draw that (DESIGN CHOICE, logs 6 and 13). -/
def State.driveCell (p : Params) (l : Level) (s : State) : State :=
  let t := s.driveRx p l false
  match s.level with
  | .event => t.raiseTimer .line
  | .timed => t

end Sys2Proof.Machine
end

