-- ==== Sys2Proof/Syntax.lean ====
section
/-! DEFINITION. The instructions: one constructor for every row of spec/opcode_table.json, in the
table's order. The block has no instruction set; its rows are the encoded forms it decodes and
produces (R2, R77): command bytes, the host's two-byte forms, the serial character, and the bytes
of a bus frame. -/

namespace Sys2Proof

inductive Instr where
  /-- DISCARD: a command byte with sync bit 0 in AWAIT_FIRST (R151). -/
  | discard (b : Byte)
  /-- FIRST: a command byte with sync bit 1 in AWAIT_FIRST (R152). -/
  | first (b : Byte)
  /-- REFIRST: a command byte with sync bit 1 in AWAIT_SECOND (R154). -/
  | refirst (b : Byte)
  /-- SHUTDOWN: a command byte with sync bit 0 and S = 1 in AWAIT_SECOND (R153). -/
  | shutdown (b : Byte)
  /-- SETV: a command byte with sync bit 0 and S = 0 in AWAIT_SECOND (R155). -/
  | setv (b : Byte)
  /-- ENC_SETV: the host's two-byte form of magnitude `w`, with don't-care bit `x` (R80). -/
  | encSetv (w : Magnitude) (x : BitVec 1)
  /-- ENC_SHUTDOWN: the host's two-byte shutdown form, with first byte `f` and the ignored bits
  `x` and `v` of its second byte (R80). -/
  | encShutdown (f : Byte) (x : BitVec 1) (v : BitVec 5)
  /-- SERIAL_CHAR: the ten cells of a serial character (R70). -/
  | serialChar (c : Cells)
  /-- ADDR_BYTE: the address byte of a bus frame (R82). -/
  | addrByte
  /-- SETV_DATA: the two data bytes of SetVoltage(w) (R83, R171). -/
  | setvData (w : Magnitude)
  /-- SHUTDOWN_DATA: the two data bytes of Shutdown (R84, R172). -/
  | shutdownData
  deriving DecidableEq, Repr

end Sys2Proof
end

