-- ==== Sys2Proof/Machine/Dispatch.lean ====
section
/-! DEFINITION. The meaning of every instruction, one arm for each constructor. -/

namespace Sys2Proof.Machine

def exec (i : Instr) (s : State) : Host.Outcome State Fault Refusal :=
  match i with
  | .discard b => Sys2Proof.Machine.execDiscard b s
  | .first b => Sys2Proof.Machine.execFirst b s
  | .refirst b => Sys2Proof.Machine.execRefirst b s
  | .shutdown b => Sys2Proof.Machine.execShutdown b s
  | .setv b => Sys2Proof.Machine.execSetv b s
  | .encSetv w x => Sys2Proof.Machine.execEncSetv w x s
  | .encShutdown f x v => Sys2Proof.Machine.execEncShutdown f x v s
  | .serialChar c => Sys2Proof.Machine.execSerialChar c s
  | .addrByte => Sys2Proof.Machine.execAddrByte s
  | .setvData w => Sys2Proof.Machine.execSetvData w s
  | .shutdownData => Sys2Proof.Machine.execShutdownData s

end Sys2Proof.Machine
end

