-- ==== Sys2Proof/WellFormed.lean ====
section
/-! DEFINITION. Which instructions are well formed: a raw operand carries the fixed bits that its row of
spec/opcode_table.json gives it (mask and match, R77, R80, R70). Every other operand is one that its
width admits. -/

namespace Sys2Proof

/-- `w` has the fixed bits of a table row: `w & mask = match`. -/
def hasFixedBits {n : Nat} (mask fixed w : BitVec n) : Bool :=
  w &&& mask == fixed

/-- The table's fixed bits, for the instructions whose operand is a raw word. -/
def Instr.wellFormed : Instr → Bool
  | .discard b => hasFixedBits 0x01 0x00 b
  | .first b => hasFixedBits 0x01 0x01 b
  | .refirst b => hasFixedBits 0x01 0x01 b
  | .shutdown b => hasFixedBits 0x41 0x40 b
  | .setv b => hasFixedBits 0x41 0x00 b
  | .encSetv _ _ => true
  | .encShutdown f _ _ => hasFixedBits 0x01 0x01 f
  | .serialChar c => hasFixedBits 0x201 0x200 c
  | .addrByte => true
  | .setvData _ => true
  | .shutdownData => true

end Sys2Proof
end

