-- ==== Sys2Proof/Decode.lean ====
section
/-! DEFINITION. Decoding and encoding (spec/30_encoding.md). One word of bits means different
instructions in different places: a command byte is read by ISTATE, and the host's pairs, the
characters on RX, the address byte and the data bytes of a bus frame are each a language of their
own. `Stream` names the place; `decode` is total on any bits and rejects by name. -/

namespace Sys2Proof

open Machine

/-- The place a word of bits is read from. -/
inductive Stream where
  /-- A command byte, in an interpreter state (R77). -/
  | command (st : IState)
  /-- A two-byte form of the host (R80). -/
  | host
  /-- A character on RX (R70). -/
  | line
  /-- The first byte of a bus frame (R82). -/
  | busAddress
  /-- The data bytes of a DAC frame (R83, R84). -/
  | busData
  deriving DecidableEq, Repr

/-- Why a word is not an instruction of its stream. A command byte is never rejected (R78). -/
inductive Reject where
  /-- Bits are set above the stream's word. -/
  | tooWide
  /-- Not a first byte followed by a second byte (R80). -/
  | notHostPair
  /-- The start cell is not 0 or the stop cell is not 1 (R70). -/
  | notSerialChar
  /-- Not the write address of the device (R82). -/
  | notAddressByte
  /-- Neither the data bytes of SetVoltage nor those of Shutdown (R83, R84). -/
  | notDataPair
  deriving DecidableEq, Repr

/-- How many bits a word of a stream has. -/
def Stream.width : Stream → Nat
  | .command _ => 8
  | .host => 16
  | .line => 10
  | .busAddress => 8
  | .busData => 16

/-- R77: the class of a command byte, from ISTATE, b[0] and b[6] alone. -/
def decodeCommand (st : IState) (b : Byte) : Instr :=
  match st with
  | .awaitFirst => if syncBit b then .first b else .discard b
  | .awaitSecond =>
    if syncBit b then .refirst b
    else if shutdownBit b then .shutdown b
    else .setv b

/-- R80: the host's forms, from the pair {b1, b2}. -/
def decodeHost (w : Pair) : Except Reject Instr :=
  let b1 := pairFirst w
  let b2 := pairSecond w
  if syncBit b1 && !syncBit b2 then
    if shutdownBit b2 then .ok (.encShutdown b1 (b2.extractLsb' 7 1) (b2.extractLsb' 1 5))
    else .ok (.encSetv (magnitude b1 b2) (b2.extractLsb' 7 1))
  else .error .notHostPair

/-- R70: a character, from its ten cells. -/
def decodeLine (c : Cells) : Except Reject Instr :=
  if !c.getLsbD 0 && c.getLsbD 9 then .ok (.serialChar c) else .error .notSerialChar

/-- R82: the address byte. -/
def decodeAddress (b : Byte) : Except Reject Instr :=
  if b = addressByte then .ok .addrByte else .error .notAddressByte

/-- R83, R84: the data bytes {HI, LO}. -/
def decodeData (w : Pair) : Except Reject Instr :=
  if w.extractLsb' 12 4 = 0#4 then .ok (.setvData (w.extractLsb' 0 12))
  else if w = pairOf Config.sdHi sdLo then .ok .shutdownData
  else .error .notDataPair

/-- The decoder: the instruction that the bits `w` are in stream `c`, or the reason they are none. -/
def decode (c : Stream) (w : Pair) : Except Reject Instr :=
  if w.toNat < 2 ^ c.width then
    match c with
    | .command st => .ok (decodeCommand st (w.extractLsb' 0 8))
    | .host => decodeHost w
    | .line => decodeLine (w.extractLsb' 0 10)
    | .busAddress => decodeAddress (w.extractLsb' 0 8)
    | .busData => decodeData w
  else .error .tooWide

/-- The stream an instruction stands in. -/
def streamOf : Instr → Stream
  | .discard _ => .command .awaitFirst
  | .first _ => .command .awaitFirst
  | .refirst _ => .command .awaitSecond
  | .shutdown _ => .command .awaitSecond
  | .setv _ => .command .awaitSecond
  | .encSetv _ _ => .host
  | .encShutdown _ _ _ => .host
  | .serialChar _ => .line
  | .addrByte => .busAddress
  | .setvData _ => .busData
  | .shutdownData => .busData

/-- The encoder: the bits of an instruction, numbered as spec/opcode_table.json numbers them. -/
def encode : Instr → Pair
  | .discard b => b.zeroExtend 16
  | .first b => b.zeroExtend 16
  | .refirst b => b.zeroExtend 16
  | .shutdown b => b.zeroExtend 16
  | .setv b => b.zeroExtend 16
  | .encSetv w x => pairOf (firstByte w) (secondByte x 0#1 (w.extractLsb' 0 5))
  | .encShutdown f x v => pairOf f (secondByte x 1#1 v)
  | .serialChar c => c.zeroExtend 16
  | .addrByte => addressByte.zeroExtend 16
  | .setvData w => pairOf (dacHigh w) (dacLow w)
  | .shutdownData => pairOf Config.sdHi sdLo

/-- The stream in which a bare table word is read where no state says which: the one whose row fixes
the most of its bits (assumption log 7). -/
def tableStream (nbits w : Nat) : Option Stream :=
  if nbits ≤ 8 then
    if w = 0xC0 then some .busAddress
    else if w.testBit 0 then some (.command .awaitFirst)
    else some (.command .awaitSecond)
  else if nbits ≤ 16 then
    if w < 2 ^ 10 && w.testBit 9 && !w.testBit 0 then some .line
    else if w.testBit 8 && !w.testBit 0 then some .host
    else some .busData
  else none

/-- The instruction that the decoder reads from a bare table word of `nbits` bits. -/
def decodeTableWord (nbits w : Nat) : Option Instr :=
  if w < 2 ^ nbits then
    match tableStream nbits w with
    | none => none
    | some c => (decode c (BitVec.ofNat 16 w)).toOption
  else none

end Sys2Proof
end

