-- ==== Sys2Proof/Machine/Boot.lean ====
section
/-! DEFINITION. Power-on and the boot sequence (spec/70_reset_and_hazards.md R230, R231; R219). -/

namespace Sys2Proof.Machine

/-- Power returns: nothing survives (R219), every element holds what `Config.powerUp` leaves it with, no event is
pending and none can be taken, and the boot sequence is about to begin. The environment goes on as it was (DESIGN CHOICE, log 11). -/
def State.powerCycle (s : State) : State :=
  let g := Config.powerUp s.powerUps
  { s with
    edgeEn := false
    tmrRun := g.tmrRun
    tmrPhase := g.tmrPhase
    bitPos := g.bitPos
    acc := g.acc
    rxBuf := g.rxBuf
    rxRdy := g.rxRdy
    iState := g.iState
    pending := g.pending
    mPhase := g.mPhase
    txPos := g.txPos
    curAction := g.curAction
    sclOut := g.sclOut
    sdaOut := g.sdaOut
    nextTick := none
    edgePend := none
    tmrPend := none
    intMask := true
    bootPos := some .busIdle
    isrAt := none
    powerUps := s.powerUps + 1 }

/-- One step of the boot sequence (R231; D19, log 19). -/
def State.bootStep (k : BootStep) (s : State) : State :=
  match k with
  | .busIdle => { s with sclOut := true, sdaOut := true, bootPos := some .timerStopped }
  | .timerStopped => { s with tmrRun := false, bootPos := some .flagsCleared }
  | .flagsCleared => { s.clearReady with bitPos := 0, bootPos := some .sequencersSet }
  | .sequencersSet =>
    { s with
      iState := .awaitFirst
      mPhase := .read
      txPos := none
      curAction := none
      bootPos := some .edgeEnabled }
  | .edgeEnabled => { s with edgeEn := true, intMask := false, bootPos := none }

end Sys2Proof.Machine
end

