-- ==== Sys2Proof/Machine/Timed.lean ====
section
/-! DEFINITION. The timed level (spec/40_sampler.md R110 to R118, spec/41_transmitter.md R131, R141): which draws of the
environment a run with times has, and the conditions for correct reception. -/

namespace Sys2Proof.Machine

/-- R112: `now` lies within T_JITTER of the nominal instant `tau`. -/
def inWindow (p : Params) (tau now : Time) : Bool :=
  p.le tau (now.add .tJitter) && p.le now (tau.add .tJitter)

/-- What a turn of the host does with its queue: the level that it drives on RX, if any, and the queue that it
leaves (R70, R80). -/
def hostDrives : List HostItem → Option Level × List HostItem
  | [] => (none, [])
  | .pair w :: r => (none, pairItems w ++ r)
  | .char c :: r => (none, charItems c ++ r)
  | .cell l :: r => (some l, r)

/-- RX, at level `l` at time `t` with the host's queue `q`, changes at or before `deadline` by the turns to come.
The loss of power changes neither RX nor what the host sends. -/
def changesBy (p : Params) (l : Level) (deadline : Time) : Time → List HostItem → List Turn → Bool
  | _, _, [] => false
  | t, q, .elapse d :: r =>
    p.le (t.add (p.span d)) deadline && changesBy p l deadline (t.add (p.span d)) q r
  | t, q, .handler d :: r =>
    p.le (t.add (p.span d)) deadline && changesBy p l deadline (t.add (p.span d)) q r
  | t, q, .rx l' _ :: r => l' != l || changesBy p l deadline t q r
  | t, q, .host :: r =>
    (hostDrives q).1.getD l != l || changesBy p l deadline t (hostDrives q).2 r
  | t, q, .foreground :: r => changesBy p l deadline t q r
  | t, q, .device _ :: r => changesBy p l deadline t q r
  | t, q, .expiry _ :: r => changesBy p l deadline t q r
  | t, q, .powerCycle :: r => changesBy p l deadline t q r

/-- R112: RX changes within T_JITTER of `tau`, before this instant or after it. -/
def State.changesNear (p : Params) (tau : Time) (s : State) : Bool :=
  (match s.rxAt with
   | some c => p.le tau (c.add .tJitter)
   | none => false) ||
  changesBy p s.rx (tau.add .tJitter) s.now s.hostOut s.sched

/-- R112: the level drawn is one the sample may have. -/
def State.levelAdmitted (p : Params) (tau : Time) (d : SampleDraw) (s : State) : Bool :=
  match d with
  | .line => true
  | .drawn l => l == s.rx || s.changesNear p tau

/-- The timer expires with draw `d`. At the timed level the instant and the level must be admitted (R111, R112). -/
def State.expire (p : Params) (d : SampleDraw) (s : State) : Result :=
  match s.level with
  | .event => .next (s.raiseTimer d)
  | .timed =>
    if s.bootPos = none && s.tmrRun then
      match s.nextTick with
      | none => .refused .tickOutsideWindow
      | some tau =>
        if inWindow p tau s.now then
          if s.levelAdmitted p tau d then .next (s.raiseTimer d) else .refused .levelNotOnLine
        else .refused .tickOutsideWindow
    else .next s

/-- `d` of time passes. At the timed level no tick may be passed by more than T_JITTER (R111, R112). -/
def State.elapse (p : Params) (d : Time) (s : State) : Result :=
  match s.level, s.nextTick with
  | .timed, some tau =>
    if p.le (s.now.add (p.span d)) (tau.add .tJitter) then .next { s with now := s.now.add (p.span d) }
    else .refused .tickOverdue
  | _, _ => .next { s with now := s.now.add (p.span d) }

/-- The handler that has just run takes `d` more of time, right after it and after what such turns have given it before. A
run in which a handler's time ends later than T_ISR after the handler began is outside the spec and refused (R213, U10). -/
def State.handlerTook (p : Params) (d : Time) (s : State) : Result :=
  match s.level, s.isrAt with
  | .timed, some t =>
    if p.le (s.now.add (p.span d)) (t.add .tIsr) then s.elapse p d else .refused .handlerTooLong
  | _, _ => s.elapse p d

/-- The end of the Wait that the foreground is in at the timed level, if it has not been reached (R131). -/
def State.waitEnd (p : Params) (s : State) : Option Time :=
  match s.level, s.bootPos, s.mPhase, s.txPos with
  | .timed, none, .act, some q =>
    if microOp q.frame q.spot = some .wait && p.lt s.now (s.microAt.add .tHalf) then
      some (s.microAt.add .tHalf)
    else none
  | _, _, _, _ => none

/-- R111: the nominal instant of tick `k` after an edge at `te`. -/
def tickTime (p : Params) (te : ℝ) (k : Nat) : ℝ :=
  te + p.tFirst + k * p.tBit

/-- R112: a sample at `instant` is within T_JITTER of its nominal instant `tau`. -/
def SampledNear (p : Params) (tau instant : ℝ) : Prop :=
  |instant - tau| ≤ p.tJitter

/-- `l` is the level of RX `t` after the falling edge that starts character `c`, when every cell lasts `th`: that of the
cell in which `t` lies, and high before the first cell and after the last (R70, R114). -/
def CharLevel (c : Cells) (th t : ℝ) (l : Level) : Prop :=
  (∀ k : Nat, k < 10 → k * th ≤ t → t < (k + 1) * th → l = c.getLsbD k) ∧
  (t < 0 ∨ 10 * th ≤ t → l = true)

/-- R115: the correct reception condition, for a host period `th`. -/
def ReceptionCondition (p : Params) (th : ℝ) : Prop :=
  ∀ k : Nat, k < 8 →
    (k + 1) * th + p.tJitter < p.tFirst + k * p.tBit ∧
    p.tFirst + k * p.tBit + p.tJitter < (k + 2) * th

/-- R117, R243: the condition for catching a back-to-back character. -/
def BackToBackCondition (p : Params) (th : ℝ) : Prop :=
  p.tFirst + 7 * p.tBit + p.tJitter + p.tIsr < 10 * th

end Sys2Proof.Machine
end

