-- ==== Sys2Proof/Machine/Turns.lean ====
section
/-! DEFINITION. Who moves next, and how (spec/00_scope.md R12, spec/20_memory.md R60): the interrupt context, the main loop
(spec/44_main_loop.md), the serial host, the bus device and the timer. A move either runs an instruction, which
`Machine/Step.lean` gives to `exec`, or is complete in itself. -/

namespace Sys2Proof.Machine

/-- One move: an instruction to be run in a state, or an answer. -/
inductive Move where
  | run (i : Instr) (s : State)
  | done (r : Result)
  deriving Repr

/-- The foreground in ACT (R183). With no frame begun, the driver formats CUR_ACTION; where the address byte
begins, ADDR_BYTE is read from the frame; elsewhere the transmitter takes its next micro-step. A Wait that has not
lasted T_HALF yet gives no step (R131). -/
def State.actMove (p : Params) (s : State) : Move :=
  match s.txPos with
  | none =>
    match s.curAction with
    | some (.setVoltage w) => .run (.setvData w) s
    | some .shutdown => .run .shutdownData s
    | none => .done (.fault .actWithoutAction)
  | some q =>
    if q.spot = .bit 0 7 .sda then
      match (q.frame.head?).map decodeAddress with
      | some (.ok i) => .run i s
      | _ => .done (.fault .notAddressByte)
    else if (s.waitEnd p).isSome then .done (.next s)
    else .done (s.runMicro q)

/-- One step of the foreground: the boot sequence (R231), then READ, DECODE and ACT (R180 to R183). -/
def State.foregroundMove (p : Params) (s : State) : Move :=
  match s.bootPos with
  | some k => .done (.next (s.bootStep k))
  | none =>
    match s.mPhase with
    | .read => .done (.next s.readStep)
    | .decode b => .run (decodeCommand s.iState b) s
    | .act => s.actMove p

/-- One step of the serial host: its next command or character is run as an instruction, its next cell is driven.
A pair or a character that is no instruction is sent all the same: the host may drive any waveform (D31; DEDUCED, log 22). -/
def State.hostMove (p : Params) (s : State) : Move :=
  match s.hostOut with
  | [] => .done (.next s)
  | .pair w :: r =>
    match decodeHost w with
    | .ok i => .run i { s with hostOut := r }
    | .error _ =>
      .done (.next ({ s with hostOut := r }.queueFirst (pairItems w)))
  | .char c :: r =>
    match decodeLine c with
    | .ok i => .run i { s with hostOut := r }
    | .error _ => .done (.next ({ s with hostOut := r }.queueFirst (charItems c)))
  | .cell l :: r => .done (.next ({ s with hostOut := r }.driveCell p l))

/-- The foreground has a step: it is not held in READ (R107). -/
def State.foregroundReady (s : State) : Bool :=
  s.bootPos.isSome || s.mPhase != .read || s.rxRdy

/-- When the armed timer is due (R38). -/
def State.tickDue (s : State) : Option Time :=
  if s.tmrRun then s.nextTick else none

/-- The timer expires at its nominal instant, or now if that has passed. -/
def State.tickAt (p : Params) (tau : Time) (s : State) : State :=
  { s with now := p.later s.now tau }.raiseTimer .line

/-- What happens when the environment chooses nothing more. At the event level the foreground runs until it holds,
then the host drives its next item, then an armed timer expires; at the timed level each Wait lasts T_HALF, each
tick falls at its nominal time, and the host drives nothing. With nothing left to do the
state stays as it is, which is the rest of R184 (DESIGN CHOICE, log 8). -/
def State.defaultMove (p : Params) (s : State) : Move :=
  match s.level with
  | .event =>
    if s.foregroundReady then s.foregroundMove p
    else if s.hostOut.isEmpty then .done (.next (s.raiseTimer .line))
    else s.hostMove p
  | .timed =>
    match s.waitEnd p, s.tickDue with
    | none, none => if s.foregroundReady then s.foregroundMove p else .done (.next s)
    | none, some tau => if s.foregroundReady then s.foregroundMove p else .done (.next (s.tickAt p tau))
    | some e, none => { s with now := e }.foregroundMove p
    | some e, some tau =>
      if p.le tau e then .done (.next (s.tickAt p tau)) else { s with now := e }.foregroundMove p

/-- The levels that RX is given, in time order, at level `lv` of the model with the host's queue `q` and these turns to come:
those of the turns, and then what is left of the queue where `State.defaultMove` has the host send it. -/
def levelsToCome (lv : ModelLevel) : List HostItem → List Turn → List Level
  | q, [] =>
    match lv with
    | .event => q.flatMap itemLevels
    | .timed => []
  | q, .rx l _ :: r => l :: levelsToCome lv q r
  | q, .host :: r => (hostDrives q).1.toList ++ levelsToCome lv (hostDrives q).2 r
  | q, .foreground :: r => levelsToCome lv q r
  | q, .device _ :: r => levelsToCome lv q r
  | q, .expiry _ :: r => levelsToCome lv q r
  | q, .elapse _ :: r => levelsToCome lv q r
  | q, .handler _ :: r => levelsToCome lv q r
  | q, .powerCycle :: r => levelsToCome lv q r

/-- A line at the first level that is then given the levels of a list has a falling edge (R110). -/
def hasFall : Level → List Level → Bool
  | _, [] => false
  | l, l' :: ls => (l && !l') || hasFall l' ls

/-- The host sends another edge: RX falls by the turns to come, or by what the host then has left to send (R184). -/
def State.edgeToCome (s : State) : Bool :=
  hasFall s.rx (levelsToCome s.level s.hostOut s.sched)

/-- The environment's choice `t`, already taken off the list of choices. -/
def State.turnMove (p : Params) (s : State) : Turn → Move
  | .foreground => s.foregroundMove p
  | .host => s.hostMove p
  | .rx l missed => .done (.next (s.driveRx p l missed))
  | .device l => .done (.next { s with sdaDev := l })
  | .expiry d => .done (s.expire p d)
  | .elapse d => .done (s.elapse p d)
  | .handler d => .done (s.handlerTook p d)
  | .powerCycle => .done (.next s.powerCycle)

/-- The next move when no interrupt is taken. -/
def State.chosenMove (p : Params) (s : State) : Move :=
  match s.sched with
  | [] => s.defaultMove p
  | t :: r => { s with sched := r }.turnMove p t

/-- The next move. A pending sampler event comes before everything else as soon as interrupts are unmasked
(R204, R206, R210). -/
def State.nextMove (p : Params) (s : State) : Move :=
  if s.intMask then s.chosenMove p
  else
    match s.edgePend, s.tmrPend with
    | some t, _ => .done (s.takeEdge t)
    | none, some d => .done (s.takeTimer d)
    | none, none => s.chosenMove p

/-- The state in which the word `w` of a table row of `nbits` bits is the next instruction that `step` runs: no
event is pending, the next turn belongs to the agent that reads the word's stream, and the word stands where that
agent reads it (DESIGN CHOICE, log 7). -/
def State.placeWord (s : State) (nbits w : Nat) : State :=
  let v := BitVec.ofNat 16 w
  let u := { s with edgePend := none, tmrPend := none, intMask := false, bootPos := none }
  match tableStream nbits w with
  | none => s
  | some (.command st) =>
    { u with sched := .foreground :: s.sched, mPhase := .decode (v.extractLsb' 0 8), iState := st }
  | some .host =>
    { u with sched := .host :: s.sched, hostOut := .pair v :: s.hostOut }
  | some .line =>
    { u with sched := .host :: s.sched, hostOut := .char (v.extractLsb' 0 10) :: s.hostOut }
  | some .busAddress =>
    { u with
      sched := .foreground :: s.sched
      mPhase := .act
      txPos := some
        { frame := v.extractLsb' 0 8 ::
            (match s.txPos with
             | some q => q.frame.drop 1
             | none => [0, 0])
          spot := .bit 0 7 .sda } }
  | some .busData =>
    { u with
      sched := .foreground :: s.sched
      mPhase := .act
      txPos := none
      curAction := some
        (if v.extractLsb' 12 4 = 0#4 then .setVoltage (v.extractLsb' 0 12) else .shutdown) }

end Sys2Proof.Machine
end

