-- ==== Sys2Proof/Machine/Step.lean ====
section
/-! DEFINITION. One step of the machine: one indivisible step of one agent (spec/20_memory.md R60). -/

namespace Sys2Proof.Machine

/-- One step under the timing parameters `p`. -/
def stepWith (p : Params) (s : State) : Host.Outcome State Fault Refusal :=
  match s.nextMove p with
  | .run i t => exec i t
  | .done r => r

/-- One step of the machine, under the implementation's timing parameters. -/
def step (s : State) : Host.Outcome State Fault Refusal :=
  stepWith Config.timing s

/-- `s` with the table word `w` placed where `step` finds its next instruction. -/
def State.withFetchWord (s : State) (nbits w : Nat) : State :=
  s.placeWord nbits w

end Sys2Proof.Machine
end

