-- ==== Sys2Proof/Safety.lean ====
section
/-! DEFINITION. What counts as a good state and a good run, in the terms the statements use: the invariants of
spec/10_state.md R42 and of the sequencers, the resting state of R184, and which state is observed (R43). -/

namespace Sys2Proof.Machine

/-- The lines a slot puts out just before micro-step `m`, when its SDA level is `b` (R133, R134). -/
def slotLines (b : Level) (m : SlotMicro) (scl sda : Level) : Bool :=
  match m with
  | .sda => !scl
  | .waitSetup => !scl && sda == b
  | .sclRise => !scl && sda == b
  | .waitHigh => scl && sda == b
  | .sclFall => scl && sda == b

/-- The lines just before the micro-step that a place in a frame stands for (R132 to R135). -/
def spotLines (frame : List Byte) (spot : TxSpot) (scl sda : Level) : Bool :=
  match spot with
  | .start .waitHold => scl && !sda
  | .start .sclFall => scl && !sda
  | .start _ => scl && sda
  | .bit k i m => slotLines ((frame[k]?.getD 0).getLsbD i.val) m scl sda
  | .ack _ m => slotLines true m scl sda
  | .stop .sdaLow => !scl
  | .stop .waitSetup => !scl && !sda
  | .stop .sclRise => !scl && !sda
  | .stop .waitHigh => scl && !sda
  | .stop .sdaRise => scl && !sda
  | .stop .waitFree => scl && sda

/-- A place lies inside a frame of `n` bytes (R31). -/
def spotInFrame (n : Nat) : TxSpot → Bool
  | .bit k _ _ => decide (k < n)
  | .ack k _ => decide (k < n)
  | .start _ => true
  | .stop _ => true

/-- The foreground's sequencers agree with each other and with the lines: CUR_ACTION and TXPOS are in use only in
ACT, the frame is that of CUR_ACTION, and the bus is idle outside a frame (R31, R32, R132, R139, R183). -/
def State.sequencersAgree (s : State) : Bool :=
  match s.mPhase, s.curAction, s.txPos with
  | .act, some _, none => s.sclOut && s.sdaOut
  | .act, some a, some q =>
    q.frame == actionFrame a && spotInFrame q.frame.length q.spot &&
      spotLines q.frame q.spot s.sclOut s.sdaOut
  | .act, none, _ => false
  | .read, none, none => s.sclOut && s.sdaOut
  | .decode _, none, none => s.sclOut && s.sdaOut
  | .read, _, _ => false
  | .decode _, _, _ => false

/-- What holds between steps once boot has finished (R42 items 1 to 3 and 5, R24, R38, R203, R206). -/
structure State.RunInv (s : State) : Prop where
  unmasked : s.intMask = false
  oneEnabled : s.edgeEn = !s.tmrRun
  idleAtBitZero : s.edgeEn = true → s.bitPos = 0
  bitInByte : s.bitPos.toNat ≤ 7
  tickWhileArmed : s.nextTick.isSome = s.tmrRun
  phaseOfTick : s.tmrRun = true → s.tmrPhase = (s.bitPos != 0)
  edgeWhileEnabled : s.edgePend.isSome = true → s.edgeEn = true
  timerWhileArmed : s.tmrPend.isSome = true → s.tmrRun = true
  pendingIsFirst : s.iState = .awaitSecond → syncBit s.pending = true
  sequencers : s.sequencersAgree = true

/-- How many boot steps come before this one (R231). -/
def bootDone : BootStep → Nat
  | .busIdle => 0
  | .timerStopped => 1
  | .flagsCleared => 2
  | .sequencersSet => 3
  | .edgeEnabled => 4

/-- What holds before boot step `k`: no sampler step can occur, and the earlier steps have done their part (R231). -/
structure State.BootInv (k : BootStep) (s : State) : Prop where
  masked : s.intMask = true
  edgeOff : s.edgeEn = false
  noEdge : s.edgePend = none
  noTimer : s.tmrPend = none
  noTick : s.nextTick = none
  bus : 1 ≤ bootDone k → s.sclOut = true ∧ s.sdaOut = true
  timer : 2 ≤ bootDone k → s.tmrRun = false
  flags : 3 ≤ bootDone k → s.bitPos = 0 ∧ s.rxRdy = false
  positions : 4 ≤ bootDone k →
    s.iState = .awaitFirst ∧ s.mPhase = .read ∧ s.txPos = none ∧ s.curAction = none

/-- The machine's invariant. -/
def State.Inv (s : State) : Prop :=
  match s.bootPos with
  | none => s.RunInv
  | some k => s.BootInv k

/-- No interrupt is about to be taken. -/
structure State.Undisturbed (s : State) : Prop where
  unmasked : s.intMask = false
  noEdge : s.edgePend = none
  noTimer : s.tmrPend = none

/-- The resting state of R184: boot has finished and no event is pending, MPHASE = READ, RXRDY = 0, TMR_RUN = 0, and the host
sends no more edges. Edges are falling edges, the only ones that the block reacts to (DEDUCED, log 8). The host, the device and time
may go on: turns and queued items may remain. -/
structure State.Quiescent (s : State) : Prop where
  undisturbed : s.Undisturbed
  booted : s.bootPos = none
  reading : s.mPhase = .read
  noByte : s.rxRdy = false
  stopped : s.tmrRun = false
  noMoreEdges : s.edgeToCome = false

/-- Two states that differ at most in what R43 leaves unspecified and no rule reads: the bits of ACC that the byte in
progress has not written, RXBUF while no byte is ready, PENDING in AWAIT_FIRST, TMR_PHASE while the timer is stopped. -/
structure State.SameSeen (s t : State) : Prop where
  rest : t = { s with acc := t.acc, rxBuf := t.rxBuf, pending := t.pending, tmrPhase := t.tmrPhase }
  sampled : ∀ i : Nat, i < s.bitPos.toNat → t.acc.getLsbD i = s.acc.getLsbD i
  ready : s.rxRdy = true → t.rxBuf = s.rxBuf
  second : s.iState = .awaitSecond → t.pending = s.pending
  armed : s.tmrRun = true → t.tmrPhase = s.tmrPhase

/-- Two answers of `step` that a relation on states relates; stops are equal. -/
def ResultsRelated (r : State → State → Prop) : Result → Result → Prop
  | .next a, .next b => r a b
  | .fault f, .fault g => f = g
  | .refused f, .refused g => f = g
  | _, _ => False

/-- Two states that agree on all that the foreground owns (R54, R210). -/
structure State.SameForeground (s t : State) : Prop where
  mPhase : t.mPhase = s.mPhase
  txPos : t.txPos = s.txPos
  curAction : t.curAction = s.curAction
  iState : t.iState = s.iState
  pending : t.pending = s.pending
  sclOut : t.sclOut = s.sclOut
  sdaOut : t.sdaOut = s.sdaOut

/-- Two states that agree on all that the sampler alone owns (R54, R108). -/
structure State.SameSampler (s t : State) : Prop where
  edgeEn : t.edgeEn = s.edgeEn
  tmrRun : t.tmrRun = s.tmrRun
  tmrPhase : t.tmrPhase = s.tmrPhase
  bitPos : t.bitPos = s.bitPos
  acc : t.acc = s.acc

/-- The interpreter fed with one command byte after another, as DECODE applies it (R150, R182). -/
def interpretAll : List Byte → State → Result
  | [], s => .next s
  | b :: bs, s =>
    match exec (decodeCommand s.iState b) s with
    | .next t => interpretAll bs t
    | .fault f => .fault f
    | .refused r => .refused r

/-- The levels (SCL_OUT, SDA_OUT) after a list of micro-steps, from given levels (R36, R37, R131). -/
def linesAfter : List MicroOp → Level × Level → Level × Level
  | [], v => v
  | .pin .scl l :: ops, v => linesAfter ops (l, v.2)
  | .pin .sda l :: ops, v => linesAfter ops (v.1, l)
  | .wait :: ops, v => linesAfter ops v

/-- How many waits of a frame of `n` bytes come before a place in it (R140, R141). -/
def waitsBefore (n : Nat) : TxSpot → Nat
  | .start m =>
    match m with
    | .sdaHigh => 0
    | .sclHigh => 0
    | .waitIdle => 0
    | .sdaFall => 1
    | .waitHold => 1
    | .sclFall => 2
  | .bit k i m => 2 + 18 * k + 2 * (7 - i.val) + slotWaits m
  | .ack k m => 2 + 18 * k + 16 + slotWaits m
  | .stop m =>
    match m with
    | .sdaLow => 2 + 18 * n
    | .waitSetup => 2 + 18 * n
    | .sclRise => 3 + 18 * n
    | .waitHigh => 3 + 18 * n
    | .sdaRise => 4 + 18 * n
    | .waitFree => 4 + 18 * n
where
  /-- The waits of a slot before one of its micro-steps. -/
  slotWaits : SlotMicro → Nat
    | .sda => 0
    | .waitSetup => 0
    | .sclRise => 1
    | .waitHigh => 1
    | .sclFall => 2

end Sys2Proof.Machine
end

