-- ==== Sys2Proof/Certificates/Slice0/Obligations.lean ====
section
/-! DEFINITION. The statements about the model. Each docstring names the rule of spec/ it formalises; a statement that rests on
a choice of the model names the assumption log's entry. -/

open Sys2Proof Sys2Proof.Machine

/-! ### Encodings -/

/-- Decoding the encoding of a well-formed instruction, in the stream it stands in, gives the instruction back (R70 to R85). -/
def Obligations.DecodeEncodeRoundTrip : Prop :=
  ∀ i : Instr, i.wellFormed = true → decode (streamOf i) (encode i) = .ok i

/-- What the decoder reads is well formed, stands in that stream, and encodes to the very bits that were read. -/
def Obligations.EncodeDecodeRoundTrip : Prop :=
  ∀ (c : Stream) (w : Pair) (i : Instr), decode c w = .ok i →
    streamOf i = c ∧ i.wellFormed = true ∧ encode i = w

/-- R77, R78, R156: in each interpreter state every byte is exactly one instruction, and that instruction runs. -/
def Obligations.EveryCommandByteHasOneClass : Prop :=
  ∀ (s : State) (b : Byte), ∃ i t,
    streamOf i = .command s.iState ∧ i.wellFormed = true ∧ encode i = b.zeroExtend 16 ∧
    exec i s = .next t ∧
    ∀ j : Instr, streamOf j = .command s.iState → j.wellFormed = true →
      encode j = b.zeroExtend 16 → j = i

/-- Words written out from the encodings of R70, R73, R74, R82 and R83 decode to what they stand for. -/
def Obligations.WrittenWordsDecode : Prop :=
  decode (.command .awaitFirst) 0x0001#16 = .ok (.first 0x01#8) ∧
  decode (.command .awaitSecond) 0x0040#16 = .ok (.shutdown 0x40#8) ∧
  decode (.command .awaitSecond) 0x0002#16 = .ok (.setv 0x02#8) ∧
  decode .host 0x4102#16 = .ok (.encSetv 1025#12 0#1) ∧
  decode .line 0b1101001010#16 = .ok (.serialChar 0b1101001010#10) ∧
  decode .busAddress 0x00C0#16 = .ok .addrByte ∧
  decode .busData 0x0401#16 = .ok (.setvData 1025#12)

/-- R75: the magnitude as a number, and every magnitude has exactly one first byte and one b2[5:1]. -/
def Obligations.MagnitudeOfTwoBytes : Prop :=
  (∀ b1 b2 : Byte,
    (magnitude b1 b2).toNat = b1.toNat / 2 * 32 + b2.toNat / 2 % 32) ∧
  (∀ w : Magnitude, ∃ (b1 : Byte) (v : BitVec 5), b1.getLsbD 0 = true ∧
    (∀ b2 : Byte, b2.extractLsb' 1 5 = v → magnitude b1 b2 = w) ∧
    ∀ c1 c2 : Byte, c1.getLsbD 0 = true → magnitude c1 c2 = w → c1 = b1 ∧ c2.extractLsb' 1 5 = v)

/-! ### The command interpreter -/

/-- R151: DISCARD writes no state but the main loop's position, and emits nothing. -/
def Obligations.DiscardDropsByte : Prop :=
  ∀ (b : Byte) (s : State), s.iState = .awaitFirst → b.getLsbD 0 = false →
    exec (.discard b) s = .next { s with mPhase := .read }

/-- R152: FIRST keeps the byte as the pending first byte. -/
def Obligations.FirstKeepsByte : Prop :=
  ∀ (b : Byte) (s : State), s.iState = .awaitFirst → b.getLsbD 0 = true →
    exec (.first b) s = .next { s with pending := b, iState := .awaitSecond, mPhase := .read }

/-- R154: REFIRST replaces the pending first byte. -/
def Obligations.RefirstReplacesByte : Prop :=
  ∀ (b : Byte) (s : State), s.iState = .awaitSecond → b.getLsbD 0 = true →
    exec (.refirst b) s = .next { s with pending := b, mPhase := .read }

/-- R153: SHUTDOWN emits Shutdown, whatever the other bits and PENDING. -/
def Obligations.ShutdownEmitsShutdown : Prop :=
  ∀ (b : Byte) (s : State), s.iState = .awaitSecond → b.getLsbD 0 = false → b.getLsbD 6 = true →
    exec (.shutdown b) s =
      .next { s with curAction := some .shutdown, iState := .awaitFirst, mPhase := .act }

/-- R155: SETV emits SetVoltage of the magnitude that R75 assembles. -/
def Obligations.SetvEmitsSetVoltage : Prop :=
  ∀ (b : Byte) (s : State), s.iState = .awaitSecond → b.getLsbD 0 = false → b.getLsbD 6 = false →
    exec (.setv b) s =
      .next { s with
        curAction := some (.setVoltage
          (BitVec.ofNat 12 (s.pending.toNat / 2 * 32 + b.toNat / 2 % 32)))
        iState := .awaitFirst
        mPhase := .act }

/-- R158 item 1, R80: the two bytes of ENC_SETV(w), fed to the interpreter, give back exactly w. -/
def Obligations.HostMagnitudeRoundTrip : Prop :=
  ∀ (w : Magnitude) (x : BitVec 1) (s : State), s.iState = .awaitFirst →
    ∃ t, interpretAll [firstByte w, secondByte x 0#1 (w.extractLsb' 0 5)] s = .next t ∧
      t.curAction = some (.setVoltage w) ∧ t.iState = .awaitFirst ∧ t.mPhase = .act

/-- R158 item 2, R153: any first byte followed by any second byte with S = 1 gives Shutdown. -/
def Obligations.ShutdownTakesPrecedence : Prop :=
  ∀ (b1 b2 : Byte) (s : State), b1.getLsbD 0 = true → b2.getLsbD 0 = false → b2.getLsbD 6 = true →
    ∃ t, interpretAll [b1, b2] s = .next t ∧
      t.curAction = some .shutdown ∧ t.iState = .awaitFirst ∧ t.pending = b1

/-- R158 item 3: bytes that all have sync bit 1 give no action and leave the last of them pending. -/
def Obligations.SyncBytesNeverAct : Prop :=
  ∀ (bs : List Byte) (b : Byte) (s : State), b.getLsbD 0 = true →
    (∀ c ∈ bs, c.getLsbD 0 = true) →
    interpretAll (bs ++ [b]) s =
      .next { s with pending := b, iState := .awaitSecond, mPhase := .read }

/-! ### The serial host's forms -/

/-- R80: ENC_SETV and ENC_SHUTDOWN expand to the characters of their two bytes (the queue is the model's, log 6). -/
def Obligations.HostFormsExpand : Prop :=
  (∀ (w : Magnitude) (x : BitVec 1) (s : State),
    exec (.encSetv w x) s = .next
      { s with
        hostOut := .char (charOf (w.extractLsb' 5 7 ++ 1#1)) ::
          .char (charOf (x ++ 0#1 ++ w.extractLsb' 0 5 ++ 0#1)) :: s.hostOut }) ∧
  ∀ (f : Byte) (x : BitVec 1) (v : BitVec 5) (s : State),
    exec (.encShutdown f x v) s = .next
      { s with
        hostOut := .char (charOf f) :: .char (charOf (x ++ 1#1 ++ v ++ 0#1)) :: s.hostOut }

/-- R70: SERIAL_CHAR expands to its ten cells in time order (the queue is the model's, log 6). -/
def Obligations.SerialCharDrivesItsCells : Prop :=
  ∀ (c : Cells) (s : State),
    exec (.serialChar c) s =
      .next { s with hostOut := (List.range 10).map (fun k => .cell (c.getLsbD k)) ++ s.hostOut }

/-! ### The sampler -/

/-- R101: a falling edge with EDGE_EN = 0 has no effect, and it is not latched. -/
def Obligations.EdgeWhileDisabledIsLost : Prop :=
  ∀ (s : State) (missed : Bool) (r : List Turn), s.Undisturbed → s.edgeEn = false → s.rx = true →
    s.sched = .rx false missed :: r →
    step s = .next { s with sched := r, rx := false, rxAt := some s.now }

/-- R102: a falling edge with EDGE_EN = 1 is taken by EdgeFall. That the handler is the step after the edge's is log 12's choice.
R110, R233: only a falling edge is. RX that stays low, that stays high or that rises makes no event, whatever EDGE_EN is. -/
def Obligations.FallingEdgeStartsByte : Prop :=
  (∀ (s : State) (r : List Turn), s.Undisturbed → s.edgeEn = true → s.rx = true →
    s.sched = .rx false false :: r →
    ∃ u, step s = .next u ∧
      step u = .next
        { s with
          sched := r
          rx := false
          rxAt := some s.now
          edgeEn := false
          tmrRun := true
          tmrPhase := false
          nextTick := some (s.now.add .tFirst)
          isrAt := some s.now }) ∧
  (∀ (s : State) (l missed : Bool) (r : List Turn), s.Undisturbed → (s.rx = false ∨ l = true) →
    s.sched = .rx l missed :: r →
    step s = .next
      { s with sched := r, rx := l, rxAt := if l = s.rx then s.rxAt else some s.now })

/-- R103: a tick below the eighth writes ACC[BITPOS] alone of ACC, counts, and moves NEXT_TICK by T_BIT. The level sampled is
that of RX, or the level drawn (R112). -/
def Obligations.TickSamplesOneBit : Prop :=
  ∀ (s : State) (d : SampleDraw), s.intMask = false → s.edgePend = none → s.tmrPend = some d →
    s.bitPos.toNat < 7 →
    ∃ a : Byte,
      step s = .next
        { s with
          acc := a
          bitPos := s.bitPos + 1
          tmrPhase := true
          nextTick := s.nextTick.map (·.add .tBit)
          tmrPend := none
          isrAt := some s.now } ∧
      ∀ j : Nat, j < 8 →
        a.getLsbD j =
          if j = s.bitPos.toNat then
            match d with
            | .line => s.rx
            | .drawn l => l
          else s.acc.getLsbD j

/-- R104: the eighth tick writes the mailbox, resets BITPOS, stops the timer and re-enables edge detection. The level sampled
is that of RX, or the level drawn (R112). -/
def Obligations.EighthTickCompletesByte : Prop :=
  ∀ (s : State) (d : SampleDraw), s.intMask = false → s.edgePend = none → s.tmrPend = some d →
    s.bitPos = 7 →
    ∃ a : Byte,
      step s = .next
        { s with
          acc := a
          rxBuf := a
          rxRdy := true
          bitPos := 0
          tmrRun := false
          edgeEn := true
          tmrPhase := true
          nextTick := none
          tmrPend := none
          isrAt := some s.now } ∧
      ∀ j : Nat, j < 8 →
        a.getLsbD j =
          if j = 7 then
            match d with
            | .line => s.rx
            | .drawn l => l
          else s.acc.getLsbD j

/-- R105: when a byte completes, an unread byte is overwritten and leaves no trace: what the mailbox held makes no
difference. Its start bit does not overwrite it. -/
def Obligations.OverrunLeavesNoTrace : Prop :=
  (∀ (s : State) (d : SampleDraw) (v : Byte) (ready : Bool), s.intMask = false →
    s.edgePend = none → s.tmrPend = some d → s.bitPos = 7 →
    step { s with rxBuf := v, rxRdy := ready } = step s ∧
    ∃ t, step s = .next t ∧ t.rxBuf = t.acc ∧ t.rxRdy = true) ∧
  (∀ (s : State) (te : Time), s.intMask = false → s.edgePend = some te →
    ∃ t, step s = .next t ∧ t.rxBuf = s.rxBuf ∧ t.rxRdy = s.rxRdy)

/-- R64, R109: eight ticks from BITPOS = 0 deliver the byte whose bits, least significant first, were sampled. -/
def Obligations.EightTicksAssembleByte : Prop :=
  ∀ (s : State) (v : Byte), s.bitPos = 0 →
    ∃ t, s.ticks ((List.range 8).map fun k => v.getLsbD k) = .next t ∧
      t.rxBuf = v ∧ t.rxRdy = true ∧ t.bitPos = 0 ∧ t.tmrRun = false ∧ t.edgeEn = true

/-- R70, R71, R109, R114: a character driven cell by cell on an idle line is delivered, whatever its stop cell, and the
foreground's state is kept meanwhile. That an armed timer expires once in each cell is log 6's choice. -/
def Obligations.CharacterIsReceived : Prop :=
  ∀ (s : State) (c : Cells) (rest : List HostItem) (r : List Turn), s.Undisturbed →
    s.bootPos = none → s.level = .event → s.edgeEn = true → s.tmrRun = false → s.bitPos = 0 →
    s.rx = true → c.getLsbD 0 = false →
    s.hostOut = (cellLevels c).map .cell ++ rest → s.sched = List.replicate 9 .host ++ r →
    ∃ t, Host.Core.run Sys2Proof.core 18 s = .next t ∧
      t.rxBuf = charData c ∧ t.rxRdy = true ∧ t.edgeEn = true ∧ t.tmrRun = false ∧ t.bitPos = 0 ∧
      t.hostOut = .cell (c.getLsbD 9) :: rest ∧ t.sched = r ∧ s.SameForeground t

/-- R115: under the correct reception condition every choice of sample instants within T_JITTER delivers the host's byte: the
samples are the levels of its character on RX at those instants. -/
def Obligations.CorrectReception : Prop :=
  ∀ (p : Params) (th te : ℝ) (d : Byte) (instant : Nat → ℝ) (sampled : Nat → Level) (s : State),
    ReceptionCondition p th → s.bitPos = 0 →
    (∀ k, k < 8 → SampledNear p (tickTime p te k) (instant k) ∧
      CharLevel (charOf d) th (instant k - te) (sampled k)) →
    ∃ t, s.ticks ((List.range 8).map sampled) = .next t ∧
      t.rxBuf = d ∧ t.rxRdy = true ∧ t.edgeEn = true ∧ t.tmrRun = false

/-- R115, R242: with T_FIRST = 1.5 T_BIT and no jitter, reception is correct exactly for 8.5/9 T_BIT < T_h < 8.5/8 T_BIT. -/
def Obligations.BaudToleranceRange : Prop :=
  ∀ (p : Params) (th : ℝ), 2 * p.tFirst = 3 * p.tBit → p.tJitter = 0 →
    (ReceptionCondition p th ↔ 17 * p.tBit < 18 * th ∧ 16 * th < 17 * p.tBit)

/-! ### The mailbox and the two contexts -/

/-- R106, R107, R181: READ takes the byte if one is ready, and otherwise the foreground holds. That a held turn answers the
state without that turn is log 8's choice, and that the byte is MPHASE's argument is log 20's. -/
def Obligations.ReadTakesOrHolds : Prop :=
  ∀ (s : State) (r : List Turn), s.Undisturbed → s.bootPos = none → s.mPhase = .read →
    s.sched = .foreground :: r →
    step s = if s.rxRdy
      then .next { s with sched := r, mPhase := .decode s.rxBuf, rxRdy := false }
      else .next { s with sched := r }

/-- R107, R63: only a completing TimerTick makes a byte ready. -/
def Obligations.OnlyCompletingTickMakesByteReady : Prop :=
  ∀ s t : State, s.Inv → s.bootPos = none → s.rxRdy = false → step s = .next t → t.bootPos = none →
    t.rxRdy = true → s.tmrPend.isSome = true ∧ s.bitPos = 7

/-- R206, R210, R212: a pending sampler event is handled before anything else, and the handler keeps the foreground's state,
the lines, the host's queue and the choices. -/
def Obligations.HandlersComeFirstAndKeepForeground : Prop :=
  ∀ s : State, s.intMask = false → s.bitPos.toNat ≤ 7 →
    (s.edgePend.isSome = true ∨ s.tmrPend.isSome = true) →
    ∃ t, step s = .next t ∧ t.edgePend = none ∧ t.tmrPend = none ∧ t.intMask = false ∧
      s.SameForeground t ∧ t.hostOut = s.hostOut ∧ t.sched = s.sched ∧ t.rx = s.rx

/-- R108: no foreground step writes the sampler's state; of the mailbox it only clears RXRDY, in READ. -/
def Obligations.ForegroundKeepsSampler : Prop :=
  ∀ (s t : State) (r : List Turn), s.Undisturbed → s.bootPos = none → s.sched = .foreground :: r →
    step s = .next t →
    s.SameSampler t ∧ t.rxBuf = s.rxBuf ∧
      (t.rxRdy = s.rxRdy ∨ (s.mPhase = .read ∧ t.rxRdy = false))

/-! ### The transmitter and the DAC driver -/

/-- R171: SETV_DATA begins the frame of ADDR_BYTE, {0000, w[11:8]} and w[7:0] with START's first micro-step.
That the instruction is this one micro-step is log 10's choice. -/
def Obligations.SetvDataBeginsFrame : Prop :=
  ∀ (w : Magnitude) (s : State),
    exec (.setvData w) s = .next
      { s with
        sdaOut := true
        txPos := some
          { frame := [0xC0#8, BitVec.ofNat 8 (w.toNat / 256), BitVec.ofNat 8 (w.toNat % 256)]
            spot := .start .sclHigh }
        microAt := s.now }

/-- R172: SHUTDOWN_DATA begins the frame of ADDR_BYTE, SD_HI and 0x00 with START's first micro-step.
That the instruction is this one micro-step is log 10's choice. -/
def Obligations.ShutdownDataBeginsFrame : Prop :=
  ∀ s : State,
    exec .shutdownData s = .next
      { s with
        sdaOut := true
        txPos := some { frame := [0xC0#8, Config.sdHi, 0x00#8], spot := .start .sclHigh }
        microAt := s.now }

/-- R82, R133, R136: ADDR_BYTE begins with SDA at bit 7 of 0xC0, which is 1, in the slot of bit 7. That the
instruction is this one micro-step is log 10's choice. -/
def Obligations.AddrByteBeginsWithBitSeven : Prop :=
  ∀ (s : State) (d : List Byte),
    s.txPos = some { frame := 0xC0#8 :: d, spot := .bit 0 7 .sda } →
    exec .addrByte s = .next
      { s with
        sdaOut := true
        txPos := some { frame := 0xC0#8 :: d, spot := .bit 0 7 .waitSetup }
        microAt := s.now }

/-- R84: SD_HI[7:4] is not zero, so SD_HI differs from the high byte of every SetVoltage. -/
def Obligations.ShutdownHighByteDiffers : Prop :=
  Config.sdHi.extractLsb' 4 4 ≠ 0#4 ∧ ∀ w : Magnitude, Config.sdHi ≠ dacHigh w

/-- R137, R140: from START, TXPOS runs through exactly the micro-steps of SendFrame, in order, for every frame, and through no
more of them however long it is followed. -/
def Obligations.FrameWalkIsSendFrame : Prop :=
  ∀ (frame : List Byte) (fuel : Nat), frame ≠ [] → 12 + 45 * frame.length ≤ fuel →
    walkOps frame fuel (.start .sdaHigh) = sendFrameOps frame

/-- R140: a frame with n data bytes has 7 + 27(1 + n) pin steps and 5 + 18(1 + n) waits. -/
def Obligations.FrameStepCounts : Prop :=
  ∀ d : List Byte,
    (sendFrameOps (addressByte :: d)).countP (· != .wait) = 7 + 27 * (1 + d.length) ∧
    (sendFrameOps (addressByte :: d)).countP (· == .wait) = 5 + 18 * (1 + d.length)

/-- R183, R137: with nothing else going on, ACT puts the micro-steps of its action's frame on the lines one by one, and
after the last of them, the 147th, CUR_ACTION is none, MPHASE is READ and the bus is idle. That the foreground goes on when
no choice is left is log 8's choice. -/
def Obligations.ActSendsWholeFrame : Prop :=
  ∀ (s : State) (a : Action), s.Undisturbed → s.bootPos = none → s.level = .event → s.sched = [] →
    s.mPhase = .act → s.curAction = some a → s.txPos = none →
    (∀ n, n ≤ 147 → ∃ t, Host.Core.run Sys2Proof.core n s = .next t ∧
      (t.sclOut, t.sdaOut) =
        linesAfter ((sendFrameOps (actionFrame a)).take n) (s.sclOut, s.sdaOut)) ∧
    Host.Core.run Sys2Proof.core 147 s = .next
      { s with
        mPhase := .read
        curAction := none
        txPos := none
        sclOut := true
        sdaOut := true
        microAt := s.now }

/-- R36, R37, R131: a micro-step of the transmitter sets its line, or no line for a Wait, moves TXPOS on, and touches neither
the sampler, the mailbox, the interpreter nor the environment. This holds at both levels, at the timed level for a Wait that has
lasted T_HALF. A Wait that has not gives the foreground no step; that a held turn answers the state without that turn is log 8's
choice. -/
def Obligations.MicroStepActsOnItsLine : Prop :=
  ∀ (p : Params) (s : State) (q : TxPos) (op : MicroOp) (r : List Turn), s.Undisturbed →
    s.bootPos = none → s.mPhase = .act → s.txPos = some q → q.spot ≠ .bit 0 7 .sda →
    microOp q.frame q.spot = some op → s.sched = .foreground :: r →
    ((s.level = .timed → op = .wait → p.value s.microAt + p.tHalf ≤ p.value s.now) →
      ∃ t, stepWith p s = .next t ∧
        (t.sclOut, t.sdaOut) = linesAfter [op] (s.sclOut, s.sdaOut) ∧
        t.txPos = (nextSpot q.frame.length q.spot).map (fun spot => { q with spot := spot }) ∧
        t = { s with
          sched := r
          sclOut := t.sclOut
          sdaOut := t.sdaOut
          txPos := t.txPos
          mPhase := if t.txPos.isSome then .act else .read
          curAction := if t.txPos.isSome then s.curAction else none
          microAt := s.now }) ∧
    (s.level = .timed → op = .wait → p.value s.now < p.value s.microAt + p.tHalf →
      stepWith p s = .next { s with sched := r })

/-- R139: while SCL stays high, SDA changes only by the fall in START and the rise in STOP. -/
def Obligations.SdaChangesOnlyByDiscipline : Prop :=
  ∀ s t : State, s.Inv → s.bootPos = none → step s = .next t → t.bootPos = none →
    s.sclOut = true → t.sclOut = true → t.sdaOut ≠ s.sdaOut →
    ∃ q, s.txPos = some q ∧
      ((q.spot = .start .sdaFall ∧ s.sdaOut = true ∧ t.sdaOut = false) ∨
       (q.spot = .stop .sdaRise ∧ s.sdaOut = false ∧ t.sdaOut = true))

/-- R37, R134, R138: the block never reads what the device does to SDA. -/
def Obligations.DeviceLevelIsNeverRead : Prop :=
  ∀ (s : State) (l : Level),
    ResultsRelated (fun a b => b = { a with sdaDev := b.sdaDev }) (step s) (step { s with sdaDev := l })

/-- R20, R35, R37: on the device's turn only SDA_DEV changes; the SDA wire is then SDA_OUT AND SDA_DEV, and the SCL wire is
SCL_OUT as before. -/
def Obligations.DeviceMovesOnlyTheSdaWire : Prop :=
  ∀ (s : State) (l : Level) (r : List Turn), s.Undisturbed → s.sched = .device l :: r →
    ∃ t, step s = .next t ∧ t = { s with sched := r, sdaDev := l } ∧
      t.sdaWire = (s.sdaOut && l) ∧ t.sclWire = s.sclOut

/-! ### A step runs what is decoded -/

/-- R77, R182: in DECODE a step runs the instruction that the held byte is in ISTATE, on the foreground's turn and when no
choice is left (log 8's choice). -/
def Obligations.StepRunsDecodedCommand : Prop :=
  ∀ (s : State) (b : Byte), s.Undisturbed → s.bootPos = none → s.mPhase = .decode b →
    ∃ i, decode (.command s.iState) (b.zeroExtend 16) = .ok i ∧ i.wellFormed = true ∧
      (∀ r, s.sched = .foreground :: r → step s = exec i { s with sched := r }) ∧
      (s.sched = [] → step s = exec i s)

/-- R70, R80: on the host's turn a step runs the host form or the character at the head of the host's queue. The queue, and
that the item at its head is run, are log 6's choice. -/
def Obligations.StepRunsDecodedHostForm : Prop :=
  ∀ (s : State) (i : Instr) (rest : List HostItem) (r : List Turn), s.Undisturbed →
    s.sched = .host :: r →
    (∀ w, s.hostOut = .pair w :: rest → decode .host w = .ok i →
      step s = exec i { s with sched := r, hostOut := rest }) ∧
    (∀ c, s.hostOut = .char c :: rest → decode .line (c.zeroExtend 16) = .ok i →
      step s = exec i { s with sched := r, hostOut := rest })

/-- R82, R83, R84, R183: in ACT a step runs the data bytes of CUR_ACTION when no frame is begun, and the address byte where
that byte begins. That these are the instructions of two single micro-steps is log 10's choice. -/
def Obligations.StepRunsDecodedBusForm : Prop :=
  ∀ (s : State) (i : Instr) (r : List Turn), s.Undisturbed → s.bootPos = none → s.mPhase = .act →
    s.sched = .foreground :: r →
    (∀ a hi lo, s.txPos = none → s.curAction = some a → actionBytes a = [hi, lo] →
      decode .busData (pairOf hi lo) = .ok i → step s = exec i { s with sched := r }) ∧
    (∀ v d, s.txPos = some { frame := v :: d, spot := .bit 0 7 .sda } →
      decode .busAddress (v.zeroExtend 16) = .ok i → step s = exec i { s with sched := r })

/-- A table word that the decoder reads is the next instruction that a step runs once it is placed, and it completes: the step
is exec of it at the placed state with its turn, and the host's item if there is one, taken off, which leaves the list of
choices and the host's queue as they were before the placing (the placing is the model's, log 7). -/
def Obligations.PlacedWordIsRunNext : Prop :=
  ∀ (s : State) (nbits w : Nat) (i : Instr), decodeTableWord nbits w = some i →
    step (s.withFetchWord nbits w) =
      exec i { s.withFetchWord nbits w with sched := s.sched, hostOut := s.hostOut } ∧
    ∃ t, exec i { s.withFetchWord nbits w with sched := s.sched, hostOut := s.hostOut } = .next t

/-- R184: in the resting state no agent of the block has a step: a turn of the foreground or of the timer has no effect. The
foreground holds forever: as long as power is not lost, every state of the run is a resting state, and only what is the
environment's changes (RX, SDA_DEV, time, the host's queue and the choices). The run does not stop, unless at the timed level it is
refused because of a handler's time (log 13). That a held turn answers the state without that turn, and that `step` answers the same
state when the environment has nothing left to do, are log 8's choices. -/
def Obligations.QuiescentStateRests : Prop :=
  ∀ s : State, s.Quiescent →
    (∀ r, (s.sched = .foreground :: r ∨ ∃ d, s.sched = .expiry d :: r) →
      step s = .next { s with sched := r }) ∧
    (s.sched = [] → (s.hostOut = [] ∨ s.level = .timed) → step s = .next s) ∧
    (.powerCycle ∉ s.sched →
      (∀ n t, Host.Core.run Sys2Proof.core n s = .next t →
        t.Quiescent ∧
        t = { s with
          rx := t.rx
          rxAt := t.rxAt
          sdaDev := t.sdaDev
          now := t.now
          hostOut := t.hostOut
          sched := t.sched }) ∧
      (s.level = .event ∨ (s.Inv ∧ ∀ d, Turn.handler d ∉ s.sched) →
        ∀ n, ∃ t, Host.Core.run Sys2Proof.core n s = .next t))

/-! ### Reset and boot -/

/-- R43, R232: the values that the spec gives the state after reset and boot; interrupts are unmasked and boot has finished. -/
def Obligations.ResetHoldsSpecValues : Prop :=
  State.reset.edgeEn = true ∧ State.reset.tmrRun = false ∧ State.reset.bitPos = 0 ∧
  State.reset.rxRdy = false ∧ State.reset.iState = .awaitFirst ∧ State.reset.mPhase = .read ∧
  State.reset.txPos = none ∧ State.reset.curAction = none ∧ State.reset.sclOut = true ∧
  State.reset.sdaOut = true ∧ State.reset.nextTick = none ∧ State.reset.intMask = false ∧
  State.reset.bootPos = none

/-- R230, R231, R219: from any state in which no interrupt is about to be taken, a state in the middle of the boot sequence
among them, the return of power and the five boot steps lead to the values of R43. What the state is like before boot is
log 11's choice; the end does not depend on it. -/
def Obligations.BootReachesResetValues : Prop :=
  ∀ (s : State) (r : List Turn), (s.intMask = true ∨ (s.edgePend = none ∧ s.tmrPend = none)) →
    s.sched = .powerCycle :: (List.replicate 5 .foreground ++ r) →
    ∃ t, Host.Core.run Sys2Proof.core 6 s = .next t ∧
      t.bootPos = none ∧ t.intMask = false ∧ t.edgeEn = true ∧ t.tmrRun = false ∧ t.bitPos = 0 ∧
      t.rxRdy = false ∧ t.iState = .awaitFirst ∧ t.mPhase = .read ∧ t.txPos = none ∧
      t.curAction = none ∧ t.sclOut = true ∧ t.sdaOut = true ∧ t.nextTick = none ∧
      t.edgePend = none ∧ t.tmrPend = none ∧ t.sched = r

/-- R231: no sampler event becomes pending while the boot sequence runs; an edge in that time is lost (log 11). -/
def Obligations.NoSamplerEventDuringBoot : Prop :=
  ∀ (s t : State) (k : BootStep), s.Inv → s.bootPos = some k → step s = .next t →
    t.edgePend = none ∧ t.tmrPend = none

/-! ### Invariants, and what a run can never do -/

/-- The reset state meets the invariant. -/
def Obligations.ResetMeetsInvariant : Prop :=
  State.reset.Inv

/-- R42, R24, R139, R231: every step keeps the invariant. -/
def Obligations.StepKeepsInvariant : Prop :=
  ∀ s t : State, s.Inv → step s = .next t → t.Inv

/-- R200: from a state that meets the invariant no step faults, and at the event level every step answers a next state. -/
def Obligations.StepsNeverFault : Prop :=
  ∀ s : State, s.Inv →
    (∀ f, step s ≠ .fault f) ∧ (s.level = .event → ∃ t, step s = .next t)

/-- R43, R26, R27, R30, R24: what R43 leaves unspecified is never observed: two states that differ in nothing else answer
alike, and differ in nothing else afterwards. -/
def Obligations.UnspecifiedContentsAreNeverObserved : Prop :=
  ∀ s t : State, s.Inv → s.SameSeen t → ResultsRelated State.SameSeen (step s) (step t)

/-! ### The timed level -/

/-- R38, R111: time is real-valued. EdgeFall for an edge at `te` makes NEXT_TICK te + T_FIRST, and TimerTick at nominal time
`tau` makes it tau + T_BIT, whatever NOW is; the completing tick leaves none. The rest rests on the model's choices. That the state
holds names of times, for which any real numbers may stand, those of the parameters and those that the environment draws, is log
5's. That a turn lets time pass, a negative length being none, is log 13's, and so is its refusal: at the timed level NOW does not
pass NEXT_TICK by more than T_JITTER (R111, R112), and a turn that would make it is refused under log 13's name. -/
def Obligations.TimeIsRealValued : Prop :=
  (∀ v : TimeValues, ∃ p : Params, p.toTimeValues = v) ∧
  (∀ (p : Params) (s : State) (d : Time) (r : List Turn), s.Undisturbed → s.sched = .elapse d :: r →
    ((s.level = .timed → ∀ tau, s.nextTick = some tau →
        p.value s.now + max 0 (p.value d) ≤ p.value tau + p.tJitter) →
      ∃ n, stepWith p s = .next { s with sched := r, now := n } ∧
        p.value n = p.value s.now + max 0 (p.value d)) ∧
    (∀ tau, s.level = .timed → s.nextTick = some tau →
      p.value tau + p.tJitter < p.value s.now + max 0 (p.value d) →
      stepWith p s = .refused .tickOverdue)) ∧
  (∀ (p : Params) (s : State) (te : Time), s.intMask = false → s.edgePend = some te →
    ∃ t tau, stepWith p s = .next t ∧ t.tmrRun = true ∧ t.nextTick = some tau ∧
      p.value tau = p.value te + p.tFirst) ∧
  (∀ (p : Params) (s : State) (d : SampleDraw) (tau : Time), s.intMask = false →
    s.edgePend = none → s.tmrPend = some d → s.nextTick = some tau → s.bitPos.toNat < 7 →
    ∃ t tau', stepWith p s = .next t ∧ t.tmrRun = s.tmrRun ∧ t.nextTick = some tau' ∧
      p.value tau' = p.value tau + p.tBit) ∧
  (∀ (p : Params) (s : State) (d : SampleDraw), s.intMask = false → s.edgePend = none →
    s.tmrPend = some d → s.bitPos = 7 →
    ∃ t, stepWith p s = .next t ∧ t.tmrRun = false ∧ t.nextTick = none)

/-- R8: the timing parameters meet the constraints the spec puts on them. -/
def Obligations.TimingParametersAreAdmissible : Prop :=
  Config.timing.Ok

/-- R213: the time that a run gives a handler ends at most T_ISR after the handler began, or the run is refused (under log 13's
name). Several turns that give time to one handler are counted together. -/
def Obligations.LongHandlerIsRefused : Prop :=
  (∀ (p : Params) (s : State) (b d : Time) (r : List Turn), s.Undisturbed → s.level = .timed →
    s.isrAt = some b → s.sched = .handler d :: r →
    (p.value b + p.tIsr < p.value s.now + max 0 (p.value d) →
      stepWith p s = .refused .handlerTooLong) ∧
    (p.value s.now + max 0 (p.value d) ≤ p.value b + p.tIsr →
      (∀ tau, s.nextTick = some tau →
        p.value s.now + max 0 (p.value d) ≤ p.value tau + p.tJitter) →
      ∃ n, stepWith p s = .next { s with sched := r, now := n } ∧
        p.value n = p.value s.now + max 0 (p.value d))) ∧
  (∀ (s t : State) (b : Time) (ds : List Time) (r : List Turn), s.Undisturbed → s.level = .timed →
    s.isrAt = some b →
    Config.timing.value s.now ≤ Config.timing.value b + Config.timing.tIsr →
    s.sched = ds.map .handler ++ r → Host.Core.run Sys2Proof.core ds.length s = .next t →
    Config.timing.value t.now ≤ Config.timing.value b + Config.timing.tIsr ∧ t.sched = r)

/-- R111, R112: a tick is drawn only within T_JITTER of its nominal instant; another draw is refused (log 13). -/
def Obligations.TickFallsInItsWindow : Prop :=
  ∀ (p : Params) (s t : State) (d : SampleDraw) (r : List Turn), s.Undisturbed → s.bootPos = none →
    s.level = .timed → s.tmrRun = true → s.sched = .expiry d :: r → stepWith p s = .next t →
    t.tmrPend = some d ∧
    ∃ tau, s.nextTick = some tau ∧ SampledNear p (p.value tau) (p.value s.now)

/-- R112: at an instant where a tick may be drawn, the line's level may be drawn, and the other level exactly if RX changes
within T_JITTER of the nominal instant. A change that has happened counts, and so does one that a turn on the line or of the
host's queue makes by the end of the window; with no change of either kind the other draw is refused (log 13). -/
def Obligations.JitterAdmitsBothLevels : Prop :=
  ∀ (p : Params) (s : State) (l : Level) (tau : Time) (r : List Turn), s.Undisturbed →
    s.bootPos = none → s.level = .timed → s.tmrRun = true → s.nextTick = some tau →
    SampledNear p (p.value tau) (p.value s.now) → s.sched = .expiry (.drawn l) :: r →
    (stepWith p s = if l = s.rx ∨ { s with sched := r }.changesNear p tau = true
      then .next { s with sched := r, tmrPend := some (.drawn l) }
      else .refused .levelNotOnLine) ∧
    (∀ c, s.rxAt = some c → p.value tau ≤ p.value c + p.tJitter →
      { s with sched := r }.changesNear p tau = true) ∧
    (∀ d missed r', r = .elapse d :: .rx (!s.rx) missed :: r' →
      p.value s.now + max 0 (p.value d) ≤ p.value tau + p.tJitter →
      { s with sched := r }.changesNear p tau = true) ∧
    (∀ d q r', r = .elapse d :: .host :: r' → s.hostOut = .cell (!s.rx) :: q →
      p.value s.now + max 0 (p.value d) ≤ p.value tau + p.tJitter →
      { s with sched := r }.changesNear p tau = true) ∧
    ((∀ c, s.rxAt = some c → p.value c + p.tJitter < p.value tau) →
      (∀ x ∈ r, x ≠ .host ∧ ∀ l' missed, x = .rx l' missed → l' = s.rx) →
      { s with sched := r }.changesNear p tau = false)

/-- R113: a falling edge within T_ISR after the completing tick may be accepted and may be ignored, whatever the timing
parameters. Which of the two is in the environment's turn (log 13). -/
def Obligations.EdgeAfterByteMayBeMissed : Prop :=
  ∀ (p : Params) (s : State) (missed : Bool) (done : Time) (r : List Turn), s.Undisturbed →
    s.level = .timed → s.edgeEn = true → s.rx = true → s.isrAt = some done →
    p.value done < p.value s.now → p.value s.now ≤ p.value done + p.tIsr →
    s.sched = .rx false missed :: r →
    stepWith p s = .next
      { s with
        sched := r
        rx := false
        rxAt := some s.now
        edgePend := if missed then none else some s.now }

/-- R117, R243: under the back-to-back condition the edge of a back-to-back next character, ten host periods after the edge
at `te` of this one, is never missed: its EDGE event is pending, whatever instant the completing tick had. -/
def Obligations.BackToBackEdgeIsCaught : Prop :=
  ∀ (p : Params) (s : State) (th te : ℝ) (done : Time) (missed : Bool) (r : List Turn),
    s.Undisturbed → s.level = .timed → s.edgeEn = true → s.rx = true → s.isrAt = some done →
    SampledNear p (tickTime p te 7) (p.value done) → BackToBackCondition p th →
    p.value s.now = te + 10 * th → s.sched = .rx false missed :: r →
    stepWith p s = .next
      { s with sched := r, rx := false, rxAt := some s.now, edgePend := some s.now }

/-- R131: at the timed level a Wait that ends has lasted T_HALF at least. -/
def Obligations.WaitLastsHalfPeriod : Prop :=
  ∀ (p : Params) (s t : State) (q : TxPos), s.level = .timed → s.bootPos = none →
    s.txPos = some q → microOp q.frame q.spot = some .wait → stepWith p s = .next t →
    t.bootPos = none → t.txPos ≠ s.txPos → p.value s.microAt + p.tHalf ≤ p.value t.now

/-- R141: a frame takes at least 59 T_HALF. If its first micro-steps up to here took at least their share of T_HALF since
`t0`, so do those up to the next place, and at the frame's end 59 T_HALF have passed since `t0`. -/
def Obligations.FrameLastsItsWaits : Prop :=
  ∀ (s t : State) (q : TxPos) (t0 : ℝ), s.Inv → s.bootPos = none → s.level = .timed →
    s.txPos = some q →
    t0 + waitsBefore q.frame.length q.spot * Config.timing.tHalf ≤ Config.timing.value s.microAt →
    Config.timing.value s.microAt ≤ Config.timing.value s.now →
    step s = .next t → t.bootPos = none →
    Config.timing.value t.microAt ≤ Config.timing.value t.now ∧
    (∀ q', t.txPos = some q' →
      t0 + waitsBefore q'.frame.length q'.spot * Config.timing.tHalf ≤
        Config.timing.value t.microAt) ∧
    (t.txPos = none → t0 + 59 * Config.timing.tHalf ≤ Config.timing.value t.now)
end

