-- ==== Sys2Proof/Laws/State.lean ====
section
/-! SUPPORT. What each field is after each named update of the state: one lemma per field per update. -/

namespace Sys2Proof.Machine

section RaiseReady
variable (s : State)

@[simp] theorem raiseReady_edgeEn : s.raiseReady.edgeEn = s.edgeEn := rfl
@[simp] theorem raiseReady_tmrRun : s.raiseReady.tmrRun = s.tmrRun := rfl
@[simp] theorem raiseReady_tmrPhase : s.raiseReady.tmrPhase = s.tmrPhase := rfl
@[simp] theorem raiseReady_bitPos : s.raiseReady.bitPos = s.bitPos := rfl
@[simp] theorem raiseReady_acc : s.raiseReady.acc = s.acc := rfl
@[simp] theorem raiseReady_rxBuf : s.raiseReady.rxBuf = s.rxBuf := rfl
@[simp] theorem raiseReady_rxRdy : s.raiseReady.rxRdy = true := rfl
@[simp] theorem raiseReady_iState : s.raiseReady.iState = s.iState := rfl
@[simp] theorem raiseReady_pending : s.raiseReady.pending = s.pending := rfl
@[simp] theorem raiseReady_mPhase : s.raiseReady.mPhase = s.mPhase := rfl
@[simp] theorem raiseReady_txPos : s.raiseReady.txPos = s.txPos := rfl
@[simp] theorem raiseReady_curAction : s.raiseReady.curAction = s.curAction := rfl
@[simp] theorem raiseReady_sclOut : s.raiseReady.sclOut = s.sclOut := rfl
@[simp] theorem raiseReady_sdaOut : s.raiseReady.sdaOut = s.sdaOut := rfl
@[simp] theorem raiseReady_rx : s.raiseReady.rx = s.rx := rfl
@[simp] theorem raiseReady_sdaDev : s.raiseReady.sdaDev = s.sdaDev := rfl
@[simp] theorem raiseReady_now : s.raiseReady.now = s.now := rfl
@[simp] theorem raiseReady_nextTick : s.raiseReady.nextTick = s.nextTick := rfl
@[simp] theorem raiseReady_edgePend : s.raiseReady.edgePend = s.edgePend := rfl
@[simp] theorem raiseReady_tmrPend : s.raiseReady.tmrPend = s.tmrPend := rfl
@[simp] theorem raiseReady_intMask : s.raiseReady.intMask = s.intMask := rfl
@[simp] theorem raiseReady_bootPos : s.raiseReady.bootPos = s.bootPos := rfl
@[simp] theorem raiseReady_level : s.raiseReady.level = s.level := rfl
@[simp] theorem raiseReady_microAt : s.raiseReady.microAt = s.microAt := rfl
@[simp] theorem raiseReady_isrAt : s.raiseReady.isrAt = s.isrAt := rfl
@[simp] theorem raiseReady_rxAt : s.raiseReady.rxAt = s.rxAt := rfl
@[simp] theorem raiseReady_hostOut : s.raiseReady.hostOut = s.hostOut := rfl
@[simp] theorem raiseReady_sched : s.raiseReady.sched = s.sched := rfl
@[simp] theorem raiseReady_powerUps : s.raiseReady.powerUps = s.powerUps := rfl

end RaiseReady

section ClearReady
variable (s : State)

@[simp] theorem clearReady_edgeEn : s.clearReady.edgeEn = s.edgeEn := rfl
@[simp] theorem clearReady_tmrRun : s.clearReady.tmrRun = s.tmrRun := rfl
@[simp] theorem clearReady_tmrPhase : s.clearReady.tmrPhase = s.tmrPhase := rfl
@[simp] theorem clearReady_bitPos : s.clearReady.bitPos = s.bitPos := rfl
@[simp] theorem clearReady_acc : s.clearReady.acc = s.acc := rfl
@[simp] theorem clearReady_rxBuf : s.clearReady.rxBuf = s.rxBuf := rfl
@[simp] theorem clearReady_rxRdy : s.clearReady.rxRdy = false := rfl
@[simp] theorem clearReady_iState : s.clearReady.iState = s.iState := rfl
@[simp] theorem clearReady_pending : s.clearReady.pending = s.pending := rfl
@[simp] theorem clearReady_mPhase : s.clearReady.mPhase = s.mPhase := rfl
@[simp] theorem clearReady_txPos : s.clearReady.txPos = s.txPos := rfl
@[simp] theorem clearReady_curAction : s.clearReady.curAction = s.curAction := rfl
@[simp] theorem clearReady_sclOut : s.clearReady.sclOut = s.sclOut := rfl
@[simp] theorem clearReady_sdaOut : s.clearReady.sdaOut = s.sdaOut := rfl
@[simp] theorem clearReady_rx : s.clearReady.rx = s.rx := rfl
@[simp] theorem clearReady_sdaDev : s.clearReady.sdaDev = s.sdaDev := rfl
@[simp] theorem clearReady_now : s.clearReady.now = s.now := rfl
@[simp] theorem clearReady_nextTick : s.clearReady.nextTick = s.nextTick := rfl
@[simp] theorem clearReady_edgePend : s.clearReady.edgePend = s.edgePend := rfl
@[simp] theorem clearReady_tmrPend : s.clearReady.tmrPend = s.tmrPend := rfl
@[simp] theorem clearReady_intMask : s.clearReady.intMask = s.intMask := rfl
@[simp] theorem clearReady_bootPos : s.clearReady.bootPos = s.bootPos := rfl
@[simp] theorem clearReady_level : s.clearReady.level = s.level := rfl
@[simp] theorem clearReady_microAt : s.clearReady.microAt = s.microAt := rfl
@[simp] theorem clearReady_isrAt : s.clearReady.isrAt = s.isrAt := rfl
@[simp] theorem clearReady_rxAt : s.clearReady.rxAt = s.rxAt := rfl
@[simp] theorem clearReady_hostOut : s.clearReady.hostOut = s.hostOut := rfl
@[simp] theorem clearReady_sched : s.clearReady.sched = s.sched := rfl
@[simp] theorem clearReady_powerUps : s.clearReady.powerUps = s.powerUps := rfl

end ClearReady

section MailboxWrite
variable (s : State) (v : Byte)

@[simp] theorem mailboxWrite_edgeEn : (s.mailboxWrite v).edgeEn = s.edgeEn := rfl
@[simp] theorem mailboxWrite_tmrRun : (s.mailboxWrite v).tmrRun = s.tmrRun := rfl
@[simp] theorem mailboxWrite_tmrPhase : (s.mailboxWrite v).tmrPhase = s.tmrPhase := rfl
@[simp] theorem mailboxWrite_bitPos : (s.mailboxWrite v).bitPos = s.bitPos := rfl
@[simp] theorem mailboxWrite_acc : (s.mailboxWrite v).acc = s.acc := rfl
@[simp] theorem mailboxWrite_rxBuf : (s.mailboxWrite v).rxBuf = v := rfl
@[simp] theorem mailboxWrite_rxRdy : (s.mailboxWrite v).rxRdy = true := rfl
@[simp] theorem mailboxWrite_iState : (s.mailboxWrite v).iState = s.iState := rfl
@[simp] theorem mailboxWrite_pending : (s.mailboxWrite v).pending = s.pending := rfl
@[simp] theorem mailboxWrite_mPhase : (s.mailboxWrite v).mPhase = s.mPhase := rfl
@[simp] theorem mailboxWrite_txPos : (s.mailboxWrite v).txPos = s.txPos := rfl
@[simp] theorem mailboxWrite_curAction : (s.mailboxWrite v).curAction = s.curAction := rfl
@[simp] theorem mailboxWrite_sclOut : (s.mailboxWrite v).sclOut = s.sclOut := rfl
@[simp] theorem mailboxWrite_sdaOut : (s.mailboxWrite v).sdaOut = s.sdaOut := rfl
@[simp] theorem mailboxWrite_rx : (s.mailboxWrite v).rx = s.rx := rfl
@[simp] theorem mailboxWrite_sdaDev : (s.mailboxWrite v).sdaDev = s.sdaDev := rfl
@[simp] theorem mailboxWrite_now : (s.mailboxWrite v).now = s.now := rfl
@[simp] theorem mailboxWrite_nextTick : (s.mailboxWrite v).nextTick = s.nextTick := rfl
@[simp] theorem mailboxWrite_edgePend : (s.mailboxWrite v).edgePend = s.edgePend := rfl
@[simp] theorem mailboxWrite_tmrPend : (s.mailboxWrite v).tmrPend = s.tmrPend := rfl
@[simp] theorem mailboxWrite_intMask : (s.mailboxWrite v).intMask = s.intMask := rfl
@[simp] theorem mailboxWrite_bootPos : (s.mailboxWrite v).bootPos = s.bootPos := rfl
@[simp] theorem mailboxWrite_level : (s.mailboxWrite v).level = s.level := rfl
@[simp] theorem mailboxWrite_microAt : (s.mailboxWrite v).microAt = s.microAt := rfl
@[simp] theorem mailboxWrite_isrAt : (s.mailboxWrite v).isrAt = s.isrAt := rfl
@[simp] theorem mailboxWrite_rxAt : (s.mailboxWrite v).rxAt = s.rxAt := rfl
@[simp] theorem mailboxWrite_hostOut : (s.mailboxWrite v).hostOut = s.hostOut := rfl
@[simp] theorem mailboxWrite_sched : (s.mailboxWrite v).sched = s.sched := rfl
@[simp] theorem mailboxWrite_powerUps : (s.mailboxWrite v).powerUps = s.powerUps := rfl

end MailboxWrite

section PinSetScl
variable (s : State) (l : Level)

@[simp] theorem pinSetScl_edgeEn : (s.pinSet .scl l).edgeEn = s.edgeEn := rfl
@[simp] theorem pinSetScl_tmrRun : (s.pinSet .scl l).tmrRun = s.tmrRun := rfl
@[simp] theorem pinSetScl_tmrPhase : (s.pinSet .scl l).tmrPhase = s.tmrPhase := rfl
@[simp] theorem pinSetScl_bitPos : (s.pinSet .scl l).bitPos = s.bitPos := rfl
@[simp] theorem pinSetScl_acc : (s.pinSet .scl l).acc = s.acc := rfl
@[simp] theorem pinSetScl_rxBuf : (s.pinSet .scl l).rxBuf = s.rxBuf := rfl
@[simp] theorem pinSetScl_rxRdy : (s.pinSet .scl l).rxRdy = s.rxRdy := rfl
@[simp] theorem pinSetScl_iState : (s.pinSet .scl l).iState = s.iState := rfl
@[simp] theorem pinSetScl_pending : (s.pinSet .scl l).pending = s.pending := rfl
@[simp] theorem pinSetScl_mPhase : (s.pinSet .scl l).mPhase = s.mPhase := rfl
@[simp] theorem pinSetScl_txPos : (s.pinSet .scl l).txPos = s.txPos := rfl
@[simp] theorem pinSetScl_curAction : (s.pinSet .scl l).curAction = s.curAction := rfl
@[simp] theorem pinSetScl_sclOut : (s.pinSet .scl l).sclOut = l := rfl
@[simp] theorem pinSetScl_sdaOut : (s.pinSet .scl l).sdaOut = s.sdaOut := rfl
@[simp] theorem pinSetScl_rx : (s.pinSet .scl l).rx = s.rx := rfl
@[simp] theorem pinSetScl_sdaDev : (s.pinSet .scl l).sdaDev = s.sdaDev := rfl
@[simp] theorem pinSetScl_now : (s.pinSet .scl l).now = s.now := rfl
@[simp] theorem pinSetScl_nextTick : (s.pinSet .scl l).nextTick = s.nextTick := rfl
@[simp] theorem pinSetScl_edgePend : (s.pinSet .scl l).edgePend = s.edgePend := rfl
@[simp] theorem pinSetScl_tmrPend : (s.pinSet .scl l).tmrPend = s.tmrPend := rfl
@[simp] theorem pinSetScl_intMask : (s.pinSet .scl l).intMask = s.intMask := rfl
@[simp] theorem pinSetScl_bootPos : (s.pinSet .scl l).bootPos = s.bootPos := rfl
@[simp] theorem pinSetScl_level : (s.pinSet .scl l).level = s.level := rfl
@[simp] theorem pinSetScl_microAt : (s.pinSet .scl l).microAt = s.microAt := rfl
@[simp] theorem pinSetScl_isrAt : (s.pinSet .scl l).isrAt = s.isrAt := rfl
@[simp] theorem pinSetScl_rxAt : (s.pinSet .scl l).rxAt = s.rxAt := rfl
@[simp] theorem pinSetScl_hostOut : (s.pinSet .scl l).hostOut = s.hostOut := rfl
@[simp] theorem pinSetScl_sched : (s.pinSet .scl l).sched = s.sched := rfl
@[simp] theorem pinSetScl_powerUps : (s.pinSet .scl l).powerUps = s.powerUps := rfl

end PinSetScl

section PinSetSda
variable (s : State) (l : Level)

@[simp] theorem pinSetSda_edgeEn : (s.pinSet .sda l).edgeEn = s.edgeEn := rfl
@[simp] theorem pinSetSda_tmrRun : (s.pinSet .sda l).tmrRun = s.tmrRun := rfl
@[simp] theorem pinSetSda_tmrPhase : (s.pinSet .sda l).tmrPhase = s.tmrPhase := rfl
@[simp] theorem pinSetSda_bitPos : (s.pinSet .sda l).bitPos = s.bitPos := rfl
@[simp] theorem pinSetSda_acc : (s.pinSet .sda l).acc = s.acc := rfl
@[simp] theorem pinSetSda_rxBuf : (s.pinSet .sda l).rxBuf = s.rxBuf := rfl
@[simp] theorem pinSetSda_rxRdy : (s.pinSet .sda l).rxRdy = s.rxRdy := rfl
@[simp] theorem pinSetSda_iState : (s.pinSet .sda l).iState = s.iState := rfl
@[simp] theorem pinSetSda_pending : (s.pinSet .sda l).pending = s.pending := rfl
@[simp] theorem pinSetSda_mPhase : (s.pinSet .sda l).mPhase = s.mPhase := rfl
@[simp] theorem pinSetSda_txPos : (s.pinSet .sda l).txPos = s.txPos := rfl
@[simp] theorem pinSetSda_curAction : (s.pinSet .sda l).curAction = s.curAction := rfl
@[simp] theorem pinSetSda_sclOut : (s.pinSet .sda l).sclOut = s.sclOut := rfl
@[simp] theorem pinSetSda_sdaOut : (s.pinSet .sda l).sdaOut = l := rfl
@[simp] theorem pinSetSda_rx : (s.pinSet .sda l).rx = s.rx := rfl
@[simp] theorem pinSetSda_sdaDev : (s.pinSet .sda l).sdaDev = s.sdaDev := rfl
@[simp] theorem pinSetSda_now : (s.pinSet .sda l).now = s.now := rfl
@[simp] theorem pinSetSda_nextTick : (s.pinSet .sda l).nextTick = s.nextTick := rfl
@[simp] theorem pinSetSda_edgePend : (s.pinSet .sda l).edgePend = s.edgePend := rfl
@[simp] theorem pinSetSda_tmrPend : (s.pinSet .sda l).tmrPend = s.tmrPend := rfl
@[simp] theorem pinSetSda_intMask : (s.pinSet .sda l).intMask = s.intMask := rfl
@[simp] theorem pinSetSda_bootPos : (s.pinSet .sda l).bootPos = s.bootPos := rfl
@[simp] theorem pinSetSda_level : (s.pinSet .sda l).level = s.level := rfl
@[simp] theorem pinSetSda_microAt : (s.pinSet .sda l).microAt = s.microAt := rfl
@[simp] theorem pinSetSda_isrAt : (s.pinSet .sda l).isrAt = s.isrAt := rfl
@[simp] theorem pinSetSda_rxAt : (s.pinSet .sda l).rxAt = s.rxAt := rfl
@[simp] theorem pinSetSda_hostOut : (s.pinSet .sda l).hostOut = s.hostOut := rfl
@[simp] theorem pinSetSda_sched : (s.pinSet .sda l).sched = s.sched := rfl
@[simp] theorem pinSetSda_powerUps : (s.pinSet .sda l).powerUps = s.powerUps := rfl

end PinSetSda

section Emit
variable (s : State) (a : Action)

@[simp] theorem emit_edgeEn : (s.emit a).edgeEn = s.edgeEn := rfl
@[simp] theorem emit_tmrRun : (s.emit a).tmrRun = s.tmrRun := rfl
@[simp] theorem emit_tmrPhase : (s.emit a).tmrPhase = s.tmrPhase := rfl
@[simp] theorem emit_bitPos : (s.emit a).bitPos = s.bitPos := rfl
@[simp] theorem emit_acc : (s.emit a).acc = s.acc := rfl
@[simp] theorem emit_rxBuf : (s.emit a).rxBuf = s.rxBuf := rfl
@[simp] theorem emit_rxRdy : (s.emit a).rxRdy = s.rxRdy := rfl
@[simp] theorem emit_iState : (s.emit a).iState = s.iState := rfl
@[simp] theorem emit_pending : (s.emit a).pending = s.pending := rfl
@[simp] theorem emit_mPhase : (s.emit a).mPhase = .act := rfl
@[simp] theorem emit_txPos : (s.emit a).txPos = s.txPos := rfl
@[simp] theorem emit_curAction : (s.emit a).curAction = some a := rfl
@[simp] theorem emit_sclOut : (s.emit a).sclOut = s.sclOut := rfl
@[simp] theorem emit_sdaOut : (s.emit a).sdaOut = s.sdaOut := rfl
@[simp] theorem emit_rx : (s.emit a).rx = s.rx := rfl
@[simp] theorem emit_sdaDev : (s.emit a).sdaDev = s.sdaDev := rfl
@[simp] theorem emit_now : (s.emit a).now = s.now := rfl
@[simp] theorem emit_nextTick : (s.emit a).nextTick = s.nextTick := rfl
@[simp] theorem emit_edgePend : (s.emit a).edgePend = s.edgePend := rfl
@[simp] theorem emit_tmrPend : (s.emit a).tmrPend = s.tmrPend := rfl
@[simp] theorem emit_intMask : (s.emit a).intMask = s.intMask := rfl
@[simp] theorem emit_bootPos : (s.emit a).bootPos = s.bootPos := rfl
@[simp] theorem emit_level : (s.emit a).level = s.level := rfl
@[simp] theorem emit_microAt : (s.emit a).microAt = s.microAt := rfl
@[simp] theorem emit_isrAt : (s.emit a).isrAt = s.isrAt := rfl
@[simp] theorem emit_rxAt : (s.emit a).rxAt = s.rxAt := rfl
@[simp] theorem emit_hostOut : (s.emit a).hostOut = s.hostOut := rfl
@[simp] theorem emit_sched : (s.emit a).sched = s.sched := rfl
@[simp] theorem emit_powerUps : (s.emit a).powerUps = s.powerUps := rfl

end Emit

section NoAction
variable (s : State)

@[simp] theorem noAction_edgeEn : s.noAction.edgeEn = s.edgeEn := rfl
@[simp] theorem noAction_tmrRun : s.noAction.tmrRun = s.tmrRun := rfl
@[simp] theorem noAction_tmrPhase : s.noAction.tmrPhase = s.tmrPhase := rfl
@[simp] theorem noAction_bitPos : s.noAction.bitPos = s.bitPos := rfl
@[simp] theorem noAction_acc : s.noAction.acc = s.acc := rfl
@[simp] theorem noAction_rxBuf : s.noAction.rxBuf = s.rxBuf := rfl
@[simp] theorem noAction_rxRdy : s.noAction.rxRdy = s.rxRdy := rfl
@[simp] theorem noAction_iState : s.noAction.iState = s.iState := rfl
@[simp] theorem noAction_pending : s.noAction.pending = s.pending := rfl
@[simp] theorem noAction_mPhase : s.noAction.mPhase = .read := rfl
@[simp] theorem noAction_txPos : s.noAction.txPos = s.txPos := rfl
@[simp] theorem noAction_curAction : s.noAction.curAction = s.curAction := rfl
@[simp] theorem noAction_sclOut : s.noAction.sclOut = s.sclOut := rfl
@[simp] theorem noAction_sdaOut : s.noAction.sdaOut = s.sdaOut := rfl
@[simp] theorem noAction_rx : s.noAction.rx = s.rx := rfl
@[simp] theorem noAction_sdaDev : s.noAction.sdaDev = s.sdaDev := rfl
@[simp] theorem noAction_now : s.noAction.now = s.now := rfl
@[simp] theorem noAction_nextTick : s.noAction.nextTick = s.nextTick := rfl
@[simp] theorem noAction_edgePend : s.noAction.edgePend = s.edgePend := rfl
@[simp] theorem noAction_tmrPend : s.noAction.tmrPend = s.tmrPend := rfl
@[simp] theorem noAction_intMask : s.noAction.intMask = s.intMask := rfl
@[simp] theorem noAction_bootPos : s.noAction.bootPos = s.bootPos := rfl
@[simp] theorem noAction_level : s.noAction.level = s.level := rfl
@[simp] theorem noAction_microAt : s.noAction.microAt = s.microAt := rfl
@[simp] theorem noAction_isrAt : s.noAction.isrAt = s.isrAt := rfl
@[simp] theorem noAction_rxAt : s.noAction.rxAt = s.rxAt := rfl
@[simp] theorem noAction_hostOut : s.noAction.hostOut = s.hostOut := rfl
@[simp] theorem noAction_sched : s.noAction.sched = s.sched := rfl
@[simp] theorem noAction_powerUps : s.noAction.powerUps = s.powerUps := rfl

end NoAction

section EnterHandler
variable (s : State)

@[simp] theorem enterHandler_edgeEn : s.enterHandler.edgeEn = s.edgeEn := rfl
@[simp] theorem enterHandler_tmrRun : s.enterHandler.tmrRun = s.tmrRun := rfl
@[simp] theorem enterHandler_tmrPhase : s.enterHandler.tmrPhase = s.tmrPhase := rfl
@[simp] theorem enterHandler_bitPos : s.enterHandler.bitPos = s.bitPos := rfl
@[simp] theorem enterHandler_acc : s.enterHandler.acc = s.acc := rfl
@[simp] theorem enterHandler_rxBuf : s.enterHandler.rxBuf = s.rxBuf := rfl
@[simp] theorem enterHandler_rxRdy : s.enterHandler.rxRdy = s.rxRdy := rfl
@[simp] theorem enterHandler_iState : s.enterHandler.iState = s.iState := rfl
@[simp] theorem enterHandler_pending : s.enterHandler.pending = s.pending := rfl
@[simp] theorem enterHandler_mPhase : s.enterHandler.mPhase = s.mPhase := rfl
@[simp] theorem enterHandler_txPos : s.enterHandler.txPos = s.txPos := rfl
@[simp] theorem enterHandler_curAction : s.enterHandler.curAction = s.curAction := rfl
@[simp] theorem enterHandler_sclOut : s.enterHandler.sclOut = s.sclOut := rfl
@[simp] theorem enterHandler_sdaOut : s.enterHandler.sdaOut = s.sdaOut := rfl
@[simp] theorem enterHandler_rx : s.enterHandler.rx = s.rx := rfl
@[simp] theorem enterHandler_sdaDev : s.enterHandler.sdaDev = s.sdaDev := rfl
@[simp] theorem enterHandler_now : s.enterHandler.now = s.now := rfl
@[simp] theorem enterHandler_nextTick : s.enterHandler.nextTick = s.nextTick := rfl
@[simp] theorem enterHandler_edgePend : s.enterHandler.edgePend = none := rfl
@[simp] theorem enterHandler_tmrPend : s.enterHandler.tmrPend = none := rfl
@[simp] theorem enterHandler_intMask : s.enterHandler.intMask = true := rfl
@[simp] theorem enterHandler_bootPos : s.enterHandler.bootPos = s.bootPos := rfl
@[simp] theorem enterHandler_level : s.enterHandler.level = s.level := rfl
@[simp] theorem enterHandler_microAt : s.enterHandler.microAt = s.microAt := rfl
@[simp] theorem enterHandler_isrAt : s.enterHandler.isrAt = some s.now := rfl
@[simp] theorem enterHandler_rxAt : s.enterHandler.rxAt = s.rxAt := rfl
@[simp] theorem enterHandler_hostOut : s.enterHandler.hostOut = s.hostOut := rfl
@[simp] theorem enterHandler_sched : s.enterHandler.sched = s.sched := rfl
@[simp] theorem enterHandler_powerUps : s.enterHandler.powerUps = s.powerUps := rfl

end EnterHandler

section LeaveHandler
variable (s : State)

@[simp] theorem leaveHandler_edgeEn : s.leaveHandler.edgeEn = s.edgeEn := rfl
@[simp] theorem leaveHandler_tmrRun : s.leaveHandler.tmrRun = s.tmrRun := rfl
@[simp] theorem leaveHandler_tmrPhase : s.leaveHandler.tmrPhase = s.tmrPhase := rfl
@[simp] theorem leaveHandler_bitPos : s.leaveHandler.bitPos = s.bitPos := rfl
@[simp] theorem leaveHandler_acc : s.leaveHandler.acc = s.acc := rfl
@[simp] theorem leaveHandler_rxBuf : s.leaveHandler.rxBuf = s.rxBuf := rfl
@[simp] theorem leaveHandler_rxRdy : s.leaveHandler.rxRdy = s.rxRdy := rfl
@[simp] theorem leaveHandler_iState : s.leaveHandler.iState = s.iState := rfl
@[simp] theorem leaveHandler_pending : s.leaveHandler.pending = s.pending := rfl
@[simp] theorem leaveHandler_mPhase : s.leaveHandler.mPhase = s.mPhase := rfl
@[simp] theorem leaveHandler_txPos : s.leaveHandler.txPos = s.txPos := rfl
@[simp] theorem leaveHandler_curAction : s.leaveHandler.curAction = s.curAction := rfl
@[simp] theorem leaveHandler_sclOut : s.leaveHandler.sclOut = s.sclOut := rfl
@[simp] theorem leaveHandler_sdaOut : s.leaveHandler.sdaOut = s.sdaOut := rfl
@[simp] theorem leaveHandler_rx : s.leaveHandler.rx = s.rx := rfl
@[simp] theorem leaveHandler_sdaDev : s.leaveHandler.sdaDev = s.sdaDev := rfl
@[simp] theorem leaveHandler_now : s.leaveHandler.now = s.now := rfl
@[simp] theorem leaveHandler_nextTick : s.leaveHandler.nextTick = s.nextTick := rfl
@[simp] theorem leaveHandler_edgePend : s.leaveHandler.edgePend = s.edgePend := rfl
@[simp] theorem leaveHandler_tmrPend : s.leaveHandler.tmrPend = s.tmrPend := rfl
@[simp] theorem leaveHandler_intMask : s.leaveHandler.intMask = false := rfl
@[simp] theorem leaveHandler_bootPos : s.leaveHandler.bootPos = s.bootPos := rfl
@[simp] theorem leaveHandler_level : s.leaveHandler.level = s.level := rfl
@[simp] theorem leaveHandler_microAt : s.leaveHandler.microAt = s.microAt := rfl
@[simp] theorem leaveHandler_isrAt : s.leaveHandler.isrAt = s.isrAt := rfl
@[simp] theorem leaveHandler_rxAt : s.leaveHandler.rxAt = s.rxAt := rfl
@[simp] theorem leaveHandler_hostOut : s.leaveHandler.hostOut = s.hostOut := rfl
@[simp] theorem leaveHandler_sched : s.leaveHandler.sched = s.sched := rfl
@[simp] theorem leaveHandler_powerUps : s.leaveHandler.powerUps = s.powerUps := rfl

end LeaveHandler

section QueueFirst
variable (s : State) (items : List HostItem)

@[simp] theorem queueFirst_edgeEn : (s.queueFirst items).edgeEn = s.edgeEn := rfl
@[simp] theorem queueFirst_tmrRun : (s.queueFirst items).tmrRun = s.tmrRun := rfl
@[simp] theorem queueFirst_tmrPhase : (s.queueFirst items).tmrPhase = s.tmrPhase := rfl
@[simp] theorem queueFirst_bitPos : (s.queueFirst items).bitPos = s.bitPos := rfl
@[simp] theorem queueFirst_acc : (s.queueFirst items).acc = s.acc := rfl
@[simp] theorem queueFirst_rxBuf : (s.queueFirst items).rxBuf = s.rxBuf := rfl
@[simp] theorem queueFirst_rxRdy : (s.queueFirst items).rxRdy = s.rxRdy := rfl
@[simp] theorem queueFirst_iState : (s.queueFirst items).iState = s.iState := rfl
@[simp] theorem queueFirst_pending : (s.queueFirst items).pending = s.pending := rfl
@[simp] theorem queueFirst_mPhase : (s.queueFirst items).mPhase = s.mPhase := rfl
@[simp] theorem queueFirst_txPos : (s.queueFirst items).txPos = s.txPos := rfl
@[simp] theorem queueFirst_curAction : (s.queueFirst items).curAction = s.curAction := rfl
@[simp] theorem queueFirst_sclOut : (s.queueFirst items).sclOut = s.sclOut := rfl
@[simp] theorem queueFirst_sdaOut : (s.queueFirst items).sdaOut = s.sdaOut := rfl
@[simp] theorem queueFirst_rx : (s.queueFirst items).rx = s.rx := rfl
@[simp] theorem queueFirst_sdaDev : (s.queueFirst items).sdaDev = s.sdaDev := rfl
@[simp] theorem queueFirst_now : (s.queueFirst items).now = s.now := rfl
@[simp] theorem queueFirst_nextTick : (s.queueFirst items).nextTick = s.nextTick := rfl
@[simp] theorem queueFirst_edgePend : (s.queueFirst items).edgePend = s.edgePend := rfl
@[simp] theorem queueFirst_tmrPend : (s.queueFirst items).tmrPend = s.tmrPend := rfl
@[simp] theorem queueFirst_intMask : (s.queueFirst items).intMask = s.intMask := rfl
@[simp] theorem queueFirst_bootPos : (s.queueFirst items).bootPos = s.bootPos := rfl
@[simp] theorem queueFirst_level : (s.queueFirst items).level = s.level := rfl
@[simp] theorem queueFirst_microAt : (s.queueFirst items).microAt = s.microAt := rfl
@[simp] theorem queueFirst_isrAt : (s.queueFirst items).isrAt = s.isrAt := rfl
@[simp] theorem queueFirst_rxAt : (s.queueFirst items).rxAt = s.rxAt := rfl
@[simp] theorem queueFirst_hostOut : (s.queueFirst items).hostOut = items ++ s.hostOut := rfl
@[simp] theorem queueFirst_sched : (s.queueFirst items).sched = s.sched := rfl
@[simp] theorem queueFirst_powerUps : (s.queueFirst items).powerUps = s.powerUps := rfl

end QueueFirst

section EdgeFall
variable (s : State) (t : Time)

@[simp] theorem edgeFall_edgeEn : (s.edgeFall t).edgeEn = false := rfl
@[simp] theorem edgeFall_tmrRun : (s.edgeFall t).tmrRun = true := rfl
@[simp] theorem edgeFall_tmrPhase : (s.edgeFall t).tmrPhase = false := rfl
@[simp] theorem edgeFall_bitPos : (s.edgeFall t).bitPos = s.bitPos := rfl
@[simp] theorem edgeFall_acc : (s.edgeFall t).acc = s.acc := rfl
@[simp] theorem edgeFall_rxBuf : (s.edgeFall t).rxBuf = s.rxBuf := rfl
@[simp] theorem edgeFall_rxRdy : (s.edgeFall t).rxRdy = s.rxRdy := rfl
@[simp] theorem edgeFall_iState : (s.edgeFall t).iState = s.iState := rfl
@[simp] theorem edgeFall_pending : (s.edgeFall t).pending = s.pending := rfl
@[simp] theorem edgeFall_mPhase : (s.edgeFall t).mPhase = s.mPhase := rfl
@[simp] theorem edgeFall_txPos : (s.edgeFall t).txPos = s.txPos := rfl
@[simp] theorem edgeFall_curAction : (s.edgeFall t).curAction = s.curAction := rfl
@[simp] theorem edgeFall_sclOut : (s.edgeFall t).sclOut = s.sclOut := rfl
@[simp] theorem edgeFall_sdaOut : (s.edgeFall t).sdaOut = s.sdaOut := rfl
@[simp] theorem edgeFall_rx : (s.edgeFall t).rx = s.rx := rfl
@[simp] theorem edgeFall_sdaDev : (s.edgeFall t).sdaDev = s.sdaDev := rfl
@[simp] theorem edgeFall_now : (s.edgeFall t).now = s.now := rfl
@[simp] theorem edgeFall_nextTick : (s.edgeFall t).nextTick = some (t.add (tickDelay false)) := rfl
@[simp] theorem edgeFall_edgePend : (s.edgeFall t).edgePend = s.edgePend := rfl
@[simp] theorem edgeFall_tmrPend : (s.edgeFall t).tmrPend = s.tmrPend := rfl
@[simp] theorem edgeFall_intMask : (s.edgeFall t).intMask = s.intMask := rfl
@[simp] theorem edgeFall_bootPos : (s.edgeFall t).bootPos = s.bootPos := rfl
@[simp] theorem edgeFall_level : (s.edgeFall t).level = s.level := rfl
@[simp] theorem edgeFall_microAt : (s.edgeFall t).microAt = s.microAt := rfl
@[simp] theorem edgeFall_isrAt : (s.edgeFall t).isrAt = s.isrAt := rfl
@[simp] theorem edgeFall_rxAt : (s.edgeFall t).rxAt = s.rxAt := rfl
@[simp] theorem edgeFall_hostOut : (s.edgeFall t).hostOut = s.hostOut := rfl
@[simp] theorem edgeFall_sched : (s.edgeFall t).sched = s.sched := rfl
@[simp] theorem edgeFall_powerUps : (s.edgeFall t).powerUps = s.powerUps := rfl

end EdgeFall

section TickSample
variable (s : State) (l : Level)

@[simp] theorem tickSample_edgeEn : (s.tickSample l).edgeEn = s.edgeEn := rfl
@[simp] theorem tickSample_tmrRun : (s.tickSample l).tmrRun = s.tmrRun := rfl
@[simp] theorem tickSample_tmrPhase : (s.tickSample l).tmrPhase = true := rfl
@[simp] theorem tickSample_bitPos : (s.tickSample l).bitPos = s.bitPos + 1 := rfl
@[simp] theorem tickSample_acc : (s.tickSample l).acc = setBit s.acc s.bitPos.toNat l := rfl
@[simp] theorem tickSample_rxBuf : (s.tickSample l).rxBuf = s.rxBuf := rfl
@[simp] theorem tickSample_rxRdy : (s.tickSample l).rxRdy = s.rxRdy := rfl
@[simp] theorem tickSample_iState : (s.tickSample l).iState = s.iState := rfl
@[simp] theorem tickSample_pending : (s.tickSample l).pending = s.pending := rfl
@[simp] theorem tickSample_mPhase : (s.tickSample l).mPhase = s.mPhase := rfl
@[simp] theorem tickSample_txPos : (s.tickSample l).txPos = s.txPos := rfl
@[simp] theorem tickSample_curAction : (s.tickSample l).curAction = s.curAction := rfl
@[simp] theorem tickSample_sclOut : (s.tickSample l).sclOut = s.sclOut := rfl
@[simp] theorem tickSample_sdaOut : (s.tickSample l).sdaOut = s.sdaOut := rfl
@[simp] theorem tickSample_rx : (s.tickSample l).rx = s.rx := rfl
@[simp] theorem tickSample_sdaDev : (s.tickSample l).sdaDev = s.sdaDev := rfl
@[simp] theorem tickSample_now : (s.tickSample l).now = s.now := rfl
@[simp] theorem tickSample_nextTick : (s.tickSample l).nextTick = s.nextTick.map (·.add (tickDelay true)) := rfl
@[simp] theorem tickSample_edgePend : (s.tickSample l).edgePend = s.edgePend := rfl
@[simp] theorem tickSample_tmrPend : (s.tickSample l).tmrPend = s.tmrPend := rfl
@[simp] theorem tickSample_intMask : (s.tickSample l).intMask = s.intMask := rfl
@[simp] theorem tickSample_bootPos : (s.tickSample l).bootPos = s.bootPos := rfl
@[simp] theorem tickSample_level : (s.tickSample l).level = s.level := rfl
@[simp] theorem tickSample_microAt : (s.tickSample l).microAt = s.microAt := rfl
@[simp] theorem tickSample_isrAt : (s.tickSample l).isrAt = s.isrAt := rfl
@[simp] theorem tickSample_rxAt : (s.tickSample l).rxAt = s.rxAt := rfl
@[simp] theorem tickSample_hostOut : (s.tickSample l).hostOut = s.hostOut := rfl
@[simp] theorem tickSample_sched : (s.tickSample l).sched = s.sched := rfl
@[simp] theorem tickSample_powerUps : (s.tickSample l).powerUps = s.powerUps := rfl

end TickSample

section TickComplete
variable (s : State)

@[simp] theorem tickComplete_edgeEn : s.tickComplete.edgeEn = true := rfl
@[simp] theorem tickComplete_tmrRun : s.tickComplete.tmrRun = false := rfl
@[simp] theorem tickComplete_tmrPhase : s.tickComplete.tmrPhase = s.tmrPhase := rfl
@[simp] theorem tickComplete_bitPos : s.tickComplete.bitPos = 0 := rfl
@[simp] theorem tickComplete_acc : s.tickComplete.acc = s.acc := rfl
@[simp] theorem tickComplete_rxBuf : s.tickComplete.rxBuf = s.acc := rfl
@[simp] theorem tickComplete_rxRdy : s.tickComplete.rxRdy = true := rfl
@[simp] theorem tickComplete_iState : s.tickComplete.iState = s.iState := rfl
@[simp] theorem tickComplete_pending : s.tickComplete.pending = s.pending := rfl
@[simp] theorem tickComplete_mPhase : s.tickComplete.mPhase = s.mPhase := rfl
@[simp] theorem tickComplete_txPos : s.tickComplete.txPos = s.txPos := rfl
@[simp] theorem tickComplete_curAction : s.tickComplete.curAction = s.curAction := rfl
@[simp] theorem tickComplete_sclOut : s.tickComplete.sclOut = s.sclOut := rfl
@[simp] theorem tickComplete_sdaOut : s.tickComplete.sdaOut = s.sdaOut := rfl
@[simp] theorem tickComplete_rx : s.tickComplete.rx = s.rx := rfl
@[simp] theorem tickComplete_sdaDev : s.tickComplete.sdaDev = s.sdaDev := rfl
@[simp] theorem tickComplete_now : s.tickComplete.now = s.now := rfl
@[simp] theorem tickComplete_nextTick : s.tickComplete.nextTick = none := rfl
@[simp] theorem tickComplete_edgePend : s.tickComplete.edgePend = s.edgePend := rfl
@[simp] theorem tickComplete_tmrPend : s.tickComplete.tmrPend = s.tmrPend := rfl
@[simp] theorem tickComplete_intMask : s.tickComplete.intMask = s.intMask := rfl
@[simp] theorem tickComplete_bootPos : s.tickComplete.bootPos = s.bootPos := rfl
@[simp] theorem tickComplete_level : s.tickComplete.level = s.level := rfl
@[simp] theorem tickComplete_microAt : s.tickComplete.microAt = s.microAt := rfl
@[simp] theorem tickComplete_isrAt : s.tickComplete.isrAt = s.isrAt := rfl
@[simp] theorem tickComplete_rxAt : s.tickComplete.rxAt = s.rxAt := rfl
@[simp] theorem tickComplete_hostOut : s.tickComplete.hostOut = s.hostOut := rfl
@[simp] theorem tickComplete_sched : s.tickComplete.sched = s.sched := rfl
@[simp] theorem tickComplete_powerUps : s.tickComplete.powerUps = s.powerUps := rfl

end TickComplete

end Sys2Proof.Machine
end

