-- ==== Sys2Proof/Laws/Ops.lean ====
section
/-! SUPPORT. What each shared operation of `Machine/Ops.lean` can do, said once. -/

namespace Sys2Proof.Machine

/-- `PinSet` writes one of the two lines and nothing else. -/
theorem pinSet_cases (s : State) (q : Pin) (l : Level) :
    (q = .scl ∧ s.pinSet q l = { s with sclOut := l }) ∨
    (q = .sda ∧ s.pinSet q l = { s with sdaOut := l }) := by
  cases q
  · exact .inl ⟨rfl, rfl⟩
  · exact .inr ⟨rfl, rfl⟩

/-- `MailboxTake` returns RXBUF and changes RXRDY alone. -/
theorem mailboxTake_eq (s : State) : s.mailboxTake = (s.rxBuf, { s with rxRdy := false }) := rfl

/-- `MailboxWrite` writes the value and the flag together. -/
theorem mailboxWrite_eq (s : State) (v : Byte) :
    s.mailboxWrite v = { s with rxBuf := v, rxRdy := true } := rfl

/-- A handler answers a next state exactly when its body does, from the state at interrupt entry. -/
theorem inHandler_next {s t : State} {body : State → Result} :
    s.inHandler body = .next t ↔ ∃ u, body s.enterHandler = .next u ∧ t = u.leaveHandler := by
  unfold State.inHandler
  cases h : body s.enterHandler with
  | next u =>
    constructor
    · intro e
      injection e with e
      exact ⟨u, rfl, e.symm⟩
    · rintro ⟨v, hv, rfl⟩
      injection hv with hv
      rw [hv]
  | fault f => simp
  | refused r => simp

/-- Interrupt entry and return keep what the foreground owns (R210, R212). -/
theorem leaveHandler_enterHandler (s : State) :
    s.enterHandler.leaveHandler =
      { s with edgePend := none, tmrPend := none, intMask := false, isrAt := some s.now } := rfl

end Sys2Proof.Machine
end

