-- ==== Sys2Proof/Laws/Sampler.lean ====
section
/-! SUPPORT. What each operation of the sampler can do, said once. -/

namespace Sys2Proof.Machine

/-- `setBit` writes bit `i` and keeps the others. -/
theorem getLsbD_setBit (v : Byte) (i j : Nat) (l : Level) (hj : j < 8) :
    (setBit v i l).getLsbD j = if j = i then l else v.getLsbD j := by
  unfold setBit
  by_cases h : j = i
  · subst h
    cases l <;> simp [hj]
  · cases l <;> simp [h, hj]

/-- A change of RX writes the port and its time, and raises EDGE only for a falling edge with EDGE_EN = 1. -/
theorem driveRx_cases (p : Params) (l : Level) (missed : Bool) (s : State) :
    s.driveRx p l missed =
        { s with rx := l, rxAt := if l = s.rx then s.rxAt else some s.now } ∨
    (s.rx = true ∧ l = false ∧ s.edgeEn = true ∧
      s.driveRx p l missed = { s with rx := l, rxAt := some s.now, edgePend := some s.now }) := by
  unfold State.driveRx
  by_cases h : (s.rx && !l && s.edgeEn && !(missed && s.edgeMayBeMissed p)) = true
  · right
    have hr : s.rx = true := by simp_all
    have hl : l = false := by simp_all
    have he : s.edgeEn = true := by simp_all
    refine ⟨hr, hl, he, ?_⟩
    simp only [h, if_true]
    simp [hr, hl]
  · left
    simp only [h]
    simp

/-- With EDGE_EN = 0 an edge is discarded (R101, R204). -/
theorem driveRx_edge_off (p : Params) (l : Level) (missed : Bool) (s : State)
    (h : s.edgeEn = false) :
    s.driveRx p l missed =
      { s with rx := l, rxAt := if l = s.rx then s.rxAt else some s.now } := by
  unfold State.driveRx
  simp [h]

/-- A level that makes no falling edge makes no event (R110). -/
theorem driveRx_no_fall (p : Params) (l : Level) (missed : Bool) (s : State) (h : (s.rx && !l) = false) :
    s.driveRx p l missed =
      { s with rx := l, rxAt := if l = s.rx then s.rxAt else some s.now } := by
  unfold State.driveRx
  simp [h]

/-- With the timer stopped nothing expires (R203). -/
theorem raiseTimer_stopped (d : SampleDraw) {s : State} (h : s.tmrRun = false) : s.raiseTimer d = s := by
  simp [State.raiseTimer, h]

/-- An expiry raises TIMER while the timer is armed and boot has finished, and otherwise does nothing. -/
theorem raiseTimer_cases (d : SampleDraw) (s : State) :
    (s.bootPos = none ∧ s.tmrRun = true ∧ s.raiseTimer d = { s with tmrPend := some d }) ∨
    (¬(s.bootPos = none ∧ s.tmrRun = true) ∧ s.raiseTimer d = s) := by
  unfold State.raiseTimer
  by_cases h : s.bootPos = none ∧ s.tmrRun = true
  · exact .inl ⟨h.1, h.2, by simp [h.1, h.2]⟩
  · refine .inr ⟨h, ?_⟩
    by_cases hb : s.bootPos = none
    · have ht : s.tmrRun = false := by simpa [hb] using h
      simp [hb, ht]
    · simp [hb]

/-- All that TimerTick can do: sample, and complete the byte at the eighth sample. -/
theorem timerTick_next {l : Level} {s t : State} (h : s.timerTick l = .next t) :
    (s.bitPos.toNat < 7 ∧ t = s.tickSample l) ∨
    (s.bitPos.toNat = 7 ∧ t = (s.tickSample l).tickComplete) := by
  unfold State.timerTick at h
  by_cases h7 : 7 < s.bitPos.toNat
  · simp [h7] at h
  · simp only [h7, if_false] at h
    by_cases h8 : (s.tickSample l).bitPos = 8
    · right
      simp only [h8, if_true] at h
      injection h with h
      refine ⟨?_, h.symm⟩
      have h8' : s.bitPos + 1 = 8#4 := h8
      have := congrArg BitVec.toNat h8'
      simp [BitVec.toNat_add] at this
      omega
    · left
      simp only [h8, if_false] at h
      injection h with h
      refine ⟨?_, h.symm⟩
      have h8' : s.bitPos + 1 ≠ 8#4 := h8
      by_contra hc
      apply h8'
      apply BitVec.eq_of_toNat_eq
      simp [BitVec.toNat_add]
      omega

/-- TimerTick faults only with BITPOS above 7 (R25). -/
theorem timerTick_answers {l : Level} {s : State} (h : s.bitPos.toNat ≤ 7) :
    ∃ t, s.timerTick l = .next t := by
  unfold State.timerTick
  have h7 : ¬ 7 < s.bitPos.toNat := by omega
  simp only [h7, if_false]
  by_cases h8 : (s.tickSample l).bitPos = 8
  · simp only [h8, if_true]
    exact ⟨_, rfl⟩
  · simp only [h8, if_false]
    exact ⟨_, rfl⟩

/-- EdgeFall, from interrupt entry to return. -/
theorem takeEdge_eq (t : Time) (s : State) :
    s.takeEdge t = .next
      { s with
        edgeEn := false
        tmrRun := true
        tmrPhase := false
        nextTick := some (t.add .tFirst)
        edgePend := none
        tmrPend := none
        intMask := false
        isrAt := some s.now } := rfl

/-- All that taking a TIMER event can do. -/
theorem takeTimer_next {d : SampleDraw} {s t : State} (h : s.takeTimer d = .next t) :
    (s.bitPos.toNat < 7 ∧ t = (s.enterHandler.tickSample (s.drawnLevel d)).leaveHandler) ∨
    (s.bitPos.toNat = 7 ∧
      t = (s.enterHandler.tickSample (s.drawnLevel d)).tickComplete.leaveHandler) := by
  obtain ⟨u, hu, rfl⟩ := inHandler_next.mp h
  rcases timerTick_next hu with ⟨hb, rfl⟩ | ⟨hb, rfl⟩
  · exact .inl ⟨hb, rfl⟩
  · exact .inr ⟨hb, rfl⟩

end Sys2Proof.Machine
end

