-- ==== Sys2Proof/Laws/Time.lean ====
section
/-! SUPPORT. Times are real numbers (spec/10_state.md R38): what the comparisons of the model say of the numbers, that the
parameters are any real numbers, and what R8 lets be said of the implementation's. -/

namespace Sys2Proof

section Value
variable (v : TimeValues)

@[simp] theorem value_num (q : Rat) : v.value (.num q) = q := rfl
@[simp] theorem value_draw (n : Nat) : v.value (.draw n) = v.draw n := rfl
@[simp] theorem value_tBit : v.value .tBit = v.tBit := rfl
@[simp] theorem value_tFirst : v.value .tFirst = v.tFirst := rfl
@[simp] theorem value_tJitter : v.value .tJitter = v.tJitter := rfl
@[simp] theorem value_tIsr : v.value .tIsr = v.tIsr := rfl
@[simp] theorem value_tHalf : v.value .tHalf = v.tHalf := rfl
@[simp] theorem value_add (a b : Time) : v.value (a.add b) = v.value a + v.value b := rfl

end Value

/-- T_FIRST for the first expiry, T_BIT for a later one (R24). -/
@[simp] theorem tickDelay_value (v : TimeValues) (phase : Bool) :
    v.value (tickDelay phase) = if phase then v.tBit else v.tFirst := by
  cases phase <;> rfl

section Order
variable {p : Params} {a b : Time}

/-- The comparison of two times is that of their numbers. -/
@[simp] theorem le_eq_true : p.le a b = true ↔ p.value a ≤ p.value b := p.le_iff a b

@[simp] theorem le_eq_false : p.le a b = false ↔ p.value b < p.value a := by
  rw [← Bool.not_eq_true, le_eq_true, not_le]

@[simp] theorem lt_eq_true : p.lt a b = true ↔ p.value a < p.value b := by
  simp [Params.lt]

@[simp] theorem lt_eq_false : p.lt a b = false ↔ p.value b ≤ p.value a := by
  simp [Params.lt]

/-- The later of two times has the greater number. -/
@[simp] theorem later_value (p : Params) (a b : Time) :
    p.value (p.later a b) = max (p.value a) (p.value b) := by
  unfold Params.later
  split
  · exact (max_eq_right (le_eq_true.mp ‹_›)).symm
  · exact (max_eq_left (not_le.mp fun h => ‹¬_› (le_eq_true.mpr h)).le).symm

/-- The later of two times is not earlier than the first. -/
theorem le_later (p : Params) (a b : Time) : p.value a ≤ p.value (p.later a b) :=
  later_value p a b ▸ le_max_left _ _

/-- A length of time is the number it says, or 0 if that is negative. -/
@[simp] theorem span_value (p : Params) (d : Time) : p.value (p.span d) = max 0 (p.value d) := by
  simp [Params.span]

end Order

/-- A length of time is not negative. -/
theorem span_nonneg (p : Params) (d : Time) : 0 ≤ p.value (p.span d) :=
  span_value p d ▸ le_max_left 0 _

/-- Time does not run backwards. -/
theorem le_add_span (p : Params) (t d : Time) : p.value t ≤ p.value (t.add (p.span d)) :=
  le_add_of_nonneg_right (span_nonneg p d)

/-- The numbers leave no choice in the order that `Params` gives along with them. -/
theorem Params.ext_of_values {p q : Params} (h : p.toTimeValues = q.toTimeValues) : p = q := by
  obtain ⟨v, le, hp⟩ := p
  obtain ⟨w, le', hq⟩ := q
  obtain rfl : v = w := h
  obtain rfl : le = le' := funext fun a => funext fun b =>
    Bool.eq_iff_iff.mpr ((hp a b).trans (hq a b).symm)
  rfl

/-- Any real numbers, with their order. -/
noncomputable def Params.ofValues (v : TimeValues) : Params where
  toTimeValues := v
  le a b := decide (v.value a ≤ v.value b)
  le_iff a b := by simp

@[simp] theorem ofValues_toTimeValues (v : TimeValues) : (Params.ofValues v).toTimeValues = v := rfl

/-- The parameters and the draws are any real numbers whatever. -/
theorem exists_params (v : TimeValues) : ∃ p : Params, p.toTimeValues = v :=
  ⟨.ofValues v, rfl⟩

/-- What every choice that R8 allows has, the implementation's parameters have. -/
theorem timing_of_ok {P : Params → Prop} (h : ∀ p : Params, p.Ok → P p) : P Config.timing := by
  unfold Config.timing
  split
  · exact h _ (Subtype.property _)
  · refine h _ ?_
    simp [Params.plain, TimeValues.plain]

/-- T_HALF is positive (R8). -/
theorem timing_half_pos : 0 < Config.timing.tHalf := timing_of_ok fun _ h => h.2.2.2.2.2

/-- T_JITTER is not negative (R8). -/
theorem timing_jitter_nonneg : 0 ≤ Config.timing.tJitter := timing_of_ok fun _ h => h.2.2.1

/-- T_ISR is not negative (R8). -/
theorem timing_isr_nonneg : 0 ≤ Config.timing.tIsr := timing_of_ok fun _ h => h.2.2.2.1

end Sys2Proof
end

