-- ==== Sys2Proof/Laws/Bus.lean ====
section
/-! SUPPORT. What each operation of the transmitter and of the timed level can do, said once. -/

namespace Sys2Proof.Machine

/-- A micro-step's effect on the lines leaves the clock of the timed level as it is. -/
@[simp] theorem applyMicro_now (s : State) (op : MicroOp) : (s.applyMicro op).now = s.now := by
  cases op with
  | pin q l => cases q <;> rfl
  | wait => rfl

/-- TXPOS moves on to the next place, or the frame ends and with it the action (R183). -/
theorem advanceTx_cases (q : TxPos) (s : State) :
    (∃ spot, nextSpot q.frame.length q.spot = some spot ∧
      s.advanceTx q = { s with txPos := some { q with spot := spot }, microAt := s.now }) ∨
    (nextSpot q.frame.length q.spot = none ∧
      s.advanceTx q =
        { s with txPos := none, curAction := none, mPhase := .read, microAt := s.now }) := by
  unfold State.advanceTx
  cases hn : nextSpot q.frame.length q.spot with
  | none => exact .inr ⟨rfl, rfl⟩
  | some spot => exact .inl ⟨spot, rfl, rfl⟩

/-- One micro-step of the transmitter is one the frame has; it acts on the lines, and TXPOS moves on. -/
theorem runMicro_next {q : TxPos} {s t : State} (h : s.runMicro q = .next t) :
    ∃ op, microOp q.frame q.spot = some op ∧ t = (s.applyMicro op).advanceTx q := by
  unfold State.runMicro at h
  cases hop : microOp q.frame q.spot with
  | none => simp [hop] at h
  | some op =>
    simp only [hop] at h
    injection h with h
    exact ⟨op, rfl, h.symm⟩

/-- A micro-step that the frame has is taken. -/
theorem runMicro_answers {q : TxPos} {s : State} {op : MicroOp} (h : microOp q.frame q.spot = some op) :
    s.runMicro q = .next ((s.applyMicro op).advanceTx q) := by
  unfold State.runMicro
  simp [h]

/-- A micro-step changes at most one line. -/
theorem applyMicro_cases (s : State) (op : MicroOp) :
    s.applyMicro op = s ∨ (∃ l, s.applyMicro op = { s with sclOut := l }) ∨
      (∃ l, s.applyMicro op = { s with sdaOut := l }) := by
  cases op with
  | pin q l =>
    cases q
    · exact .inr (.inl ⟨l, rfl⟩)
    · exact .inr (.inr ⟨l, rfl⟩)
  | wait => exact .inl rfl

/-- START, and with it a frame, begins by releasing SDA. -/
theorem sendFrame_eq (d : List Byte) (s : State) :
    s.sendFrame d = .next
      { s with
        sdaOut := true
        txPos := some { frame := addressByte :: d, spot := .start .sclHigh }
        microAt := s.now } := rfl

/-- All that an expiry can do. -/
theorem expire_next {p : Params} {d : SampleDraw} {s t : State} (h : s.expire p d = .next t) :
    t = s ∨ t = s.raiseTimer d := by
  unfold State.expire at h
  split at h
  · injection h with h
    exact .inr h.symm
  · split at h
    · split at h
      · exact absurd h (by simp)
      · split at h
        · split at h
          · injection h with h
            exact .inr h.symm
          · exact absurd h (by simp)
        · exact absurd h (by simp)
    · injection h with h
      exact .inl h.symm

/-- R112's window in real numbers. -/
theorem inWindow_iff {p : Params} {tau now : Time} :
    inWindow p tau now = true ↔
      p.value tau ≤ p.value now + p.tJitter ∧ p.value now ≤ p.value tau + p.tJitter := by
  simp [inWindow]

/-- R112's window as the spec writes it. -/
theorem inWindow_iff_sampledNear {p : Params} {tau now : Time} :
    inWindow p tau now = true ↔ SampledNear p (p.value tau) (p.value now) := by
  rw [inWindow_iff, SampledNear, abs_le]
  constructor <;> rintro ⟨h, k⟩ <;> constructor <;> linarith

/-- All that the passing of time can do. -/
theorem elapse_next {p : Params} {d : Time} {s t : State} (h : s.elapse p d = .next t) :
    t = { s with now := s.now.add (p.span d) } := by
  unfold State.elapse at h
  split at h
  · split at h
    · injection h with h
      exact h.symm
    · exact absurd h (by simp)
  · injection h with h
    exact h.symm

/-- All that a handler's duration can do: time passes, and at the timed level it ends at most T_ISR after the handler
began (R213). -/
theorem handlerTook_next {p : Params} {d : Time} {s t : State} (h : s.handlerTook p d = .next t) :
    t = { s with now := s.now.add (p.span d) } ∧
      (s.level = .timed → ∀ b, s.isrAt = some b → p.value t.now ≤ p.value b + p.tIsr) := by
  unfold State.handlerTook at h
  split at h
  · rename_i b hl hb
    split at h
    · rename_i hd
      obtain rfl := elapse_next h
      refine ⟨rfl, fun _ c hc => ?_⟩
      obtain rfl : b = c := Option.some.inj (hb.symm.trans hc)
      exact le_eq_true.mp hd
    · exact absurd h (by simp)
  · rename_i hn
    exact ⟨elapse_next h, fun hl b hb => (hn b hl hb).elim⟩

end Sys2Proof.Machine
end

