-- ==== Sys2Proof/Laws/Operands.lean ====
section
/-! SUPPORT. The bits of each operand form, one lemma for each (spec/30_encoding.md). -/

namespace Sys2Proof.Machine

theorem getLsbD_pairOf (a b : Byte) (i : Nat) :
    (pairOf a b).getLsbD i = if i < 8 then b.getLsbD i else a.getLsbD (i - 8) :=
  BitVec.getLsbD_append (y := b)

@[simp] theorem pairFirst_pairOf (a b : Byte) : pairFirst (pairOf a b) = a := by
  apply BitVec.eq_of_getLsbD_eq
  intro i hi
  simp [-BitVec.getLsbD_eq_getElem, pairFirst, BitVec.getLsbD_extractLsb', getLsbD_pairOf, hi]

@[simp] theorem pairSecond_pairOf (a b : Byte) : pairSecond (pairOf a b) = b := by
  apply BitVec.eq_of_getLsbD_eq
  intro i hi
  simp [-BitVec.getLsbD_eq_getElem, pairSecond, BitVec.getLsbD_extractLsb', getLsbD_pairOf, hi]

@[simp] theorem pairOf_halves (w : Pair) : pairOf (pairFirst w) (pairSecond w) = w := by
  apply BitVec.eq_of_getLsbD_eq
  intro i hi
  rw [getLsbD_pairOf]
  by_cases h : i < 8
  · simp [-BitVec.getLsbD_eq_getElem, pairSecond, BitVec.getLsbD_extractLsb', h]
  · have h' : i - 8 < 8 := by omega
    have e : 8 + (i - 8) = i := by omega
    simp [-BitVec.getLsbD_eq_getElem, pairFirst, BitVec.getLsbD_extractLsb', h, h', e]

/-- The bits of a first byte: V11 to V5 above the sync bit 1 (R73). -/
theorem getLsbD_firstByte (w : Magnitude) (i : Nat) (hi : i < 8) :
    (firstByte w).getLsbD i = if i = 0 then true else w.getLsbD (i + 4) := by
  have h : (firstByte w).getLsbD i =
      if i < 1 then (1#1).getLsbD i else (w.extractLsb' 5 7).getLsbD (i - 1) :=
    BitVec.getLsbD_append (y := 1#1)
  rw [h]
  interval_cases i <;> simp [-BitVec.getLsbD_eq_getElem, BitVec.getLsbD_extractLsb']

/-- The bits of a second byte: X, S, V4 to V0 above the sync bit 0 (R74). -/
theorem getLsbD_secondByte (x s : BitVec 1) (v : BitVec 5) (i : Nat) (hi : i < 8) :
    (secondByte x s v).getLsbD i =
      if i = 0 then false
      else if i < 6 then v.getLsbD (i - 1)
      else if i = 6 then s.getLsbD 0 else x.getLsbD 0 := by
  have h : (secondByte x s v).getLsbD i =
      if i < 1 then (0#1).getLsbD i else (x ++ s ++ v).getLsbD (i - 1) :=
    BitVec.getLsbD_append (y := 0#1)
  have h5 (j : Nat) : (x ++ s ++ v).getLsbD j =
      if j < 5 then v.getLsbD j else (x ++ s).getLsbD (j - 5) :=
    BitVec.getLsbD_append (y := v)
  have h6 (j : Nat) : (x ++ s).getLsbD j = if j < 1 then s.getLsbD j else x.getLsbD (j - 1) :=
    BitVec.getLsbD_append (y := s)
  rw [h]
  interval_cases i <;> simp [-BitVec.getLsbD_eq_getElem, h5, h6]

/-- The bits of a magnitude: seven of the first byte above five of the second (R75). -/
theorem getLsbD_magnitude (b1 b2 : Byte) (i : Nat) (hi : i < 12) :
    (magnitude b1 b2).getLsbD i = if i < 5 then b2.getLsbD (i + 1) else b1.getLsbD (i - 4) := by
  have h : (magnitude b1 b2).getLsbD i =
      if i < 5 then (b2.extractLsb' 1 5).getLsbD i else (b1.extractLsb' 1 7).getLsbD (i - 5) :=
    BitVec.getLsbD_append (y := b2.extractLsb' 1 5)
  rw [h]
  interval_cases i <;> simp [-BitVec.getLsbD_eq_getElem, BitVec.getLsbD_extractLsb']

/-- A byte with sync bit 1 is the first byte of its magnitude (R73, R75). -/
theorem firstByte_magnitude {b1 : Byte} (b2 : Byte) (h : syncBit b1 = true) :
    firstByte (magnitude b1 b2) = b1 := by
  apply BitVec.eq_of_getLsbD_eq
  intro i hi
  rw [getLsbD_firstByte _ _ hi]
  by_cases h0 : i = 0
  · rw [if_pos h0, h0]
    exact h.symm
  · rw [if_neg h0, getLsbD_magnitude _ _ _ (by omega), if_neg (by omega)]
    congr 1

/-- The lower part of a magnitude is bits 5 to 1 of the second byte (R75). -/
theorem magnitude_low (b1 b2 : Byte) :
    (magnitude b1 b2).extractLsb' 0 5 = b2.extractLsb' 1 5 := by
  apply BitVec.eq_of_getLsbD_eq
  intro i hi
  rw [BitVec.getLsbD_extractLsb', BitVec.getLsbD_extractLsb', decide_eq_true hi,
    getLsbD_magnitude _ _ _ (by omega), if_pos (by omega)]
  simp only [Nat.add_comm]

/-- A byte with sync bit 0 is the second byte of its fields (R74, R75). -/
theorem secondByte_fields (b1 : Byte) {b2 : Byte} (h : syncBit b2 = false) :
    secondByte (b2.extractLsb' 7 1) (BitVec.ofBool (shutdownBit b2))
      ((magnitude b1 b2).extractLsb' 0 5) = b2 := by
  apply BitVec.eq_of_getLsbD_eq
  intro i hi
  rw [getLsbD_secondByte _ _ _ _ hi]
  by_cases h0 : i = 0
  · rw [if_pos h0, h0]
    exact h.symm
  · rw [if_neg h0]
    by_cases h6 : i < 6
    · rw [if_pos h6, BitVec.getLsbD_extractLsb', getLsbD_magnitude _ _ _ (by omega),
        if_pos (by omega), decide_eq_true (by omega : i - 1 < 5), Bool.true_and]
      congr 1
      omega
    · rw [if_neg h6]
      obtain rfl | rfl : i = 6 ∨ i = 7 := by omega
      · rw [if_pos rfl]
        cases hs : b2.getLsbD 6 <;> simp [-BitVec.getLsbD_eq_getElem, shutdownBit, hs]
      · rw [if_neg (by omega), BitVec.getLsbD_extractLsb']
        rfl

/-- The cells of a character: start, the byte's bits from 0 to 7, stop (R70). -/
theorem getLsbD_charOf (d : Byte) (i : Nat) (hi : i < 10) :
    (charOf d).getLsbD i = if i = 0 then false else if i = 9 then true else d.getLsbD (i - 1) := by
  have h : (charOf d).getLsbD i =
      if i < 1 then (0#1).getLsbD i else (1#1 ++ d).getLsbD (i - 1) :=
    BitVec.getLsbD_append (y := 0#1)
  have h8 (j : Nat) : (1#1 ++ d).getLsbD j = if j < 8 then d.getLsbD j else (1#1).getLsbD (j - 8) :=
    BitVec.getLsbD_append (y := d)
  rw [h]
  interval_cases i <;> simp [-BitVec.getLsbD_eq_getElem, h8]

/-- The character of a byte carries that byte. -/
@[simp] theorem charData_charOf (d : Byte) : charData (charOf d) = d := by
  apply BitVec.eq_of_getLsbD_eq
  intro i hi
  have h0 : 1 + i ≠ 0 := by omega
  have h9 : 1 + i ≠ 9 := by omega
  have hs : 1 + i < 10 := by omega
  have e : 1 + i - 1 = i := by omega
  simp only [charData, BitVec.getLsbD_extractLsb', getLsbD_charOf d (1 + i) hs, hi, h0, h9, e]
  simp

/-- The bits of SetVoltage's high byte: 0000 above w[11:8] (R83). -/
theorem getLsbD_dacHigh (w : Magnitude) (i : Nat) (hi : i < 8) :
    (dacHigh w).getLsbD i = (decide (i < 4) && w.getLsbD (i + 8)) := by
  unfold dacHigh
  interval_cases i <;> simp [-BitVec.getLsbD_eq_getElem, BitVec.getLsbD_extractLsb']

/-- The bits of SetVoltage's low byte: w[7:0] (R83). -/
theorem getLsbD_dacLow (w : Magnitude) (i : Nat) (hi : i < 8) :
    (dacLow w).getLsbD i = w.getLsbD i := by
  unfold dacLow
  interval_cases i <;> simp [-BitVec.getLsbD_eq_getElem, BitVec.getLsbD_extractLsb']

/-- The address byte is 0xC0 (R82). -/
theorem addressByte_eq : addressByte = 0xC0#8 := by decide

end Sys2Proof.Machine
end

