-- ==== Sys2Proof/Laws/PerInstr.lean ====
section
/-! SUPPORT. Facts about the instructions as syntax, one lemma for each constructor. -/

namespace Sys2Proof.Laws

open Sys2Proof.Machine

/-- The table row of an instruction as mask and match (spec/opcode_table.json). SHUTDOWN_DATA has no more than its
low byte fixed there. -/
def rowBits : Instr → Pair × Pair
  | .discard _ => (0x01, 0x00)
  | .first _ => (0x01, 0x01)
  | .refirst _ => (0x01, 0x01)
  | .shutdown _ => (0x41, 0x40)
  | .setv _ => (0x41, 0x00)
  | .encSetv _ _ => (0x0141, 0x0100)
  | .encShutdown _ _ _ => (0x0141, 0x0140)
  | .serialChar _ => (0x201, 0x200)
  | .addrByte => (0xFF, 0xC0)
  | .setvData _ => (0xF000, 0x0000)
  | .shutdownData => (0x00FF, 0x0000)

/-- The encoding of a well-formed instruction has the fixed bits of its table row, and no bit above its stream's word. -/
def FixedBits.Statement (i : Instr) : Prop :=
  i.wellFormed = true →
    encode i &&& (rowBits i).1 = (rowBits i).2 ∧ (encode i).toNat < 2 ^ (streamOf i).width

/-- A byte's fixed bits are those of the word it is widened to. -/
theorem widened_byte {m f b : Byte} (h : hasFixedBits m f b = true) :
    b.zeroExtend 16 &&& m.zeroExtend 16 = f.zeroExtend 16 ∧ (b.zeroExtend 16).toNat < 2 ^ 8 := by
  constructor
  · have h' : b &&& m = f := by simpa [hasFixedBits] using h
    rw [← h']
    ext i
    simp
  · have := b.isLt
    simp [BitVec.toNat_setWidth]
    omega

theorem FixedBits.discard (b : Byte) : FixedBits.Statement (.discard b) := fun h => widened_byte h

theorem FixedBits.first (b : Byte) : FixedBits.Statement (.first b) := fun h => widened_byte h

theorem FixedBits.refirst (b : Byte) : FixedBits.Statement (.refirst b) := fun h => widened_byte h

theorem FixedBits.shutdown (b : Byte) : FixedBits.Statement (.shutdown b) := fun h => widened_byte h

theorem FixedBits.setv (b : Byte) : FixedBits.Statement (.setv b) := fun h => widened_byte h

theorem FixedBits.encSetv (w : Magnitude) (x : BitVec 1) : FixedBits.Statement (.encSetv w x) := by
  intro _
  refine ⟨?_, (encode _).isLt⟩
  apply BitVec.eq_of_getLsbD_eq
  intro i hi
  interval_cases i <;>
    simp [-BitVec.getLsbD_eq_getElem, encode, rowBits, getLsbD_pairOf, getLsbD_firstByte, getLsbD_secondByte]

theorem FixedBits.encShutdown (f : Byte) (x : BitVec 1) (v : BitVec 5) :
    FixedBits.Statement (.encShutdown f x v) := by
  intro h
  refine ⟨?_, (encode _).isLt⟩
  have h' : f &&& 0x01#8 = 0x01#8 := by simpa [Instr.wellFormed, hasFixedBits] using h
  have hf : f.getLsbD 0 = true := by
    have := congrArg (fun b : Byte => b.getLsbD 0) h'
    simpa using this
  apply BitVec.eq_of_getLsbD_eq
  intro i hi
  interval_cases i <;>
    simp [-BitVec.getLsbD_eq_getElem, encode, rowBits, getLsbD_pairOf, getLsbD_secondByte, hf]

theorem FixedBits.serialChar (c : Cells) : FixedBits.Statement (.serialChar c) := by
  intro h
  constructor
  · have h' : c &&& 0x201#10 = 0x200#10 := by simpa [Instr.wellFormed, hasFixedBits] using h
    have e : encode (.serialChar c) &&& (rowBits (.serialChar c)).1 =
        (c &&& 0x201#10).zeroExtend 16 := by
      ext i
      simp [encode, rowBits]
    rw [e, h']
    rfl
  · have := c.isLt
    simp [encode, streamOf, Stream.width, BitVec.toNat_setWidth]
    omega

theorem FixedBits.addrByte : FixedBits.Statement .addrByte := by
  intro _
  decide

theorem FixedBits.setvData (w : Magnitude) : FixedBits.Statement (.setvData w) := by
  intro _
  refine ⟨?_, (encode _).isLt⟩
  apply BitVec.eq_of_getLsbD_eq
  intro i hi
  interval_cases i <;>
    simp [-BitVec.getLsbD_eq_getElem, encode, rowBits, getLsbD_pairOf, getLsbD_dacHigh]

theorem FixedBits.shutdownData : FixedBits.Statement .shutdownData := by
  intro _
  refine ⟨?_, (encode _).isLt⟩
  apply BitVec.eq_of_getLsbD_eq
  intro i hi
  interval_cases i <;>
    simp [-BitVec.getLsbD_eq_getElem, encode, rowBits, getLsbD_pairOf, sdLo]

end Sys2Proof.Laws
end

