-- ==== Sys2Proof/Laws/Step.lean ====
section
/-! SUPPORT. What one step of the machine can be, said once: a handler, or the move that was chosen. -/

namespace Sys2Proof.Machine

/-- The answer of a move. -/
def Move.answer : Move → Result
  | .run i t => exec i t
  | .done r => r

theorem stepWith_eq (p : Params) (s : State) : stepWith p s = (s.nextMove p).answer := by
  unfold stepWith Move.answer
  cases s.nextMove p <;> rfl

/-- A step takes the pending EDGE event, the pending TIMER event, or the chosen move. -/
theorem stepWith_cases (p : Params) (s : State) :
    (∃ t, s.intMask = false ∧ s.edgePend = some t ∧ stepWith p s = s.takeEdge t) ∨
    (∃ d, s.intMask = false ∧ s.edgePend = none ∧ s.tmrPend = some d ∧
      stepWith p s = s.takeTimer d) ∨
    ((s.intMask = true ∨ (s.edgePend = none ∧ s.tmrPend = none)) ∧
      stepWith p s = (s.chosenMove p).answer) := by
  rw [stepWith_eq]
  unfold State.nextMove
  cases hm : s.intMask with
  | true => exact .inr (.inr ⟨.inl rfl, by simp⟩)
  | false =>
    cases he : s.edgePend with
    | some t => exact .inl ⟨t, rfl, rfl, by simp [Move.answer]⟩
    | none =>
      cases ht : s.tmrPend with
      | some d => exact .inr (.inl ⟨d, rfl, rfl, rfl, by simp [Move.answer]⟩)
      | none => exact .inr (.inr ⟨.inr ⟨rfl, rfl⟩, by simp⟩)

/-- The chosen move is the default one, or the next turn of the environment's list. -/
theorem chosenMove_cases (p : Params) (s : State) :
    (s.sched = [] ∧ s.chosenMove p = s.defaultMove p) ∨
    (∃ t r, s.sched = t :: r ∧ s.chosenMove p = { s with sched := r }.turnMove p t) := by
  unfold State.chosenMove
  cases h : s.sched with
  | nil => exact .inl ⟨rfl, rfl⟩
  | cons t r => exact .inr ⟨t, r, rfl, rfl⟩

/-- An undisturbed state with a turn at hand takes that turn. -/
theorem stepWith_turn {p : Params} {s : State} {t : Turn} {r : List Turn} (hm : s.intMask = false)
    (he : s.edgePend = none) (ht : s.tmrPend = none) (hs : s.sched = t :: r) :
    stepWith p s = ({ s with sched := r }.turnMove p t).answer := by
  rw [stepWith_eq]
  simp [State.nextMove, State.chosenMove, hm, he, ht, hs]

/-- What an agent does in a state `u` in which no interrupt is taken: one constructor for each kind of step. -/
inductive Acts (p : Params) (u : State) : State → Prop where
  /-- Nothing but time and the list of choices moves: a hold, a wait, a turn without effect. -/
  | rest : Acts p u u
  /-- A boot step (R231). -/
  | boot (k : BootStep) : u.bootPos = some k → Acts p u (u.bootStep k)
  /-- READ (R181). -/
  | read : u.bootPos = none → u.mPhase = .read → Acts p u u.readStep
  /-- DECODE (R182). -/
  | command (b : Byte) (t : State) : u.bootPos = none → u.mPhase = .decode b →
      exec (decodeCommand u.iState b) u = .next t → Acts p u t
  /-- ACT with no frame begun (R171, R172). -/
  | frame (a : Action) (t : State) : u.bootPos = none → u.mPhase = .act → u.txPos = none →
      u.curAction = some a → u.sendFrame (actionBytes a) = .next t → Acts p u t
  /-- ACT inside a frame (R140). A Wait of the timed level is over. -/
  | micro (q : TxPos) (t : State) : u.bootPos = none → u.mPhase = .act → u.txPos = some q →
      u.waitEnd p = none → u.runMicro q = .next t → Acts p u t
  /-- The host's queue changes and nothing else (R70, R80). -/
  | queue (h : List HostItem) : Acts p u { u with hostOut := h }
  /-- The host drives a cell (R70). -/
  | cell (l : Level) (h : List HostItem) : Acts p u ({ u with hostOut := h }.driveCell p l)
  /-- RX takes a level (R110). -/
  | rx (l : Level) (missed : Bool) : Acts p u (u.driveRx p l missed)
  /-- The device sets SDA_DEV (R20). -/
  | device (l : Level) : Acts p u { u with sdaDev := l }
  /-- The sample timer expires (R103). -/
  | timer (d : SampleDraw) : Acts p u (u.raiseTimer d)
  /-- Power is lost and restored (R219). -/
  | power : Acts p u u.powerCycle

/-- The host's forms do nothing but change the host's queue. -/
theorem exec_host_form {c : Stream} {w : Pair} {i : Instr} {s t : State}
    (hc : c = .host ∨ c = .line) (hd : decode c w = .ok i) (he : exec i s = .next t) :
    ∃ h, t = { s with hostOut := h } := by
  have hi : (∃ w x, i = .encSetv w x) ∨ (∃ f x v, i = .encShutdown f x v) ∨
      ∃ c, i = .serialChar c := by
    unfold decode at hd
    split at hd
    · rcases hc with rfl | rfl
      · simp only [decodeHost] at hd
        split at hd
        · split at hd
          · injection hd with hd
            exact .inr (.inl ⟨_, _, _, hd.symm⟩)
          · injection hd with hd
            exact .inl ⟨_, _, hd.symm⟩
        · exact absurd hd (by simp)
      · simp only [decodeLine] at hd
        split at hd
        · injection hd with hd
          exact .inr (.inr ⟨_, hd.symm⟩)
        · exact absurd hd (by simp)
    · exact absurd hd (by simp)
  rcases hi with ⟨w, x, rfl⟩ | ⟨f, x, v, rfl⟩ | ⟨c, rfl⟩
  · simp only [exec, execEncSetv] at he
    injection he with he
    exact ⟨_, he.symm⟩
  · simp only [exec, execEncShutdown] at he
    injection he with he
    exact ⟨_, he.symm⟩
  · simp only [exec, execSerialChar] at he
    injection he with he
    exact ⟨_, he.symm⟩

/-- A pair is read by the decoder of the host's stream. -/
theorem decode_host (w : Pair) : decode .host w = decodeHost w := by
  unfold decode
  rw [if_pos (by exact w.isLt)]

/-- A character is read by the decoder of the line's stream. -/
theorem decode_line (c : Cells) : decode .line (c.zeroExtend 16) = decodeLine c := by
  have e : (c.zeroExtend 16).extractLsb' 0 10 = c := by
    apply BitVec.eq_of_getLsbD_eq
    intro i hi
    simp [-BitVec.getLsbD_eq_getElem, BitVec.getLsbD_extractLsb', hi]
    omega
  have hw : (c.zeroExtend 16).toNat < 2 ^ 10 := by
    have := c.isLt
    simp [BitVec.toNat_setWidth]
    omega
  unfold decode
  rw [if_pos (by exact hw)]
  simp only [e]

/-- All that the serial host can do. -/
theorem hostMove_next {p : Params} {s t : State} (h : (s.hostMove p).answer = .next t) :
    Acts p s t := by
  unfold State.hostMove at h
  cases hq : s.hostOut with
  | nil =>
    simp only [hq, Move.answer] at h
    injection h with h
    exact h ▸ .rest
  | cons x r =>
    cases x with
    | pair w =>
      simp only [hq] at h
      cases hd : decodeHost w with
      | ok i =>
        simp only [hd, Move.answer] at h
        obtain ⟨q, rfl⟩ := exec_host_form (.inl rfl) ((decode_host w).trans hd) h
        exact .queue q
      | error e =>
        simp only [hd, Move.answer] at h
        injection h with h
        exact h ▸ .queue _
    | char c =>
      simp only [hq] at h
      cases hd : decodeLine c with
      | ok i =>
        simp only [hd, Move.answer] at h
        obtain ⟨q, rfl⟩ := exec_host_form (.inr rfl) ((decode_line c).trans hd) h
        exact .queue q
      | error e =>
        simp only [hd, Move.answer] at h
        injection h with h
        exact h ▸ .queue _
    | cell l =>
      simp only [hq, Move.answer] at h
      injection h with h
      exact h ▸ .cell l r

/-- A host form puts the characters of its two bytes at the head of the host's queue. -/
theorem exec_pair {w : Pair} {i : Instr} (hd : decodeHost w = .ok i) (s : State) :
    exec i s = .next (s.queueFirst (pairItems w)) := by
  unfold decodeHost at hd
  dsimp only at hd
  split at hd
  · rename_i hs
    simp only [Bool.and_eq_true, Bool.not_eq_true'] at hs
    have h1 := firstByte_magnitude (pairSecond w) hs.1
    have h2 := secondByte_fields (pairFirst w) hs.2
    have hv : (magnitude (pairFirst w) (pairSecond w)).extractLsb' 0 5 =
        (pairSecond w).extractLsb' 1 5 := magnitude_low _ _
    split at hd
    · rename_i hb
      injection hd with hd
      subst hd
      rw [hb, hv] at h2
      simp only [exec, execEncShutdown, pairItems]
      exact congrArg (fun b => Host.Outcome.next (s.queueFirst
        [.char (charOf (pairFirst w)), .char (charOf b)])) h2
    · rename_i hb
      injection hd with hd
      subst hd
      rw [Bool.not_eq_true] at hb
      rw [hb] at h2
      simp only [exec, execEncSetv, pairItems, h1]
      exact congrArg (fun b => Host.Outcome.next (s.queueFirst
        [.char (charOf (pairFirst w)), .char (charOf b)])) h2
  · exact absurd hd (by simp)

/-- The serial host's turn always completes. -/
theorem hostMove_answers (p : Params) (s : State) : ∃ t, (s.hostMove p).answer = .next t := by
  unfold State.hostMove
  split
  · exact ⟨_, rfl⟩
  · rename_i w _ _
    cases hd : decodeHost w with
    | ok i => exact ⟨_, exec_pair hd _⟩
    | error e => exact ⟨_, rfl⟩
  · rename_i c _ _
    cases hd : decodeLine c with
    | ok i =>
      unfold decodeLine at hd
      split at hd
      · injection hd with hd
        subst hd
        exact ⟨_, rfl⟩
      · exact absurd hd (by simp)
    | error e => exact ⟨_, rfl⟩
  · exact ⟨_, rfl⟩

/-- What `hostDrives` says of a turn of the host is what the turn does to RX and to the host's queue. -/
theorem hostMove_drives {p : Params} {s t : State} (h : (s.hostMove p).answer = .next t) :
    t.rx = (hostDrives s.hostOut).1.getD s.rx ∧ t.hostOut = (hostDrives s.hostOut).2 := by
  unfold State.hostMove at h
  cases hq : s.hostOut with
  | nil =>
    simp only [hq, Move.answer] at h
    injection h with h
    subst h
    exact ⟨rfl, hq⟩
  | cons x r =>
    cases x with
    | pair w =>
      simp only [hq] at h
      cases hd : decodeHost w with
      | ok i =>
        simp only [hd, Move.answer, exec_pair hd] at h
        injection h with h
        exact h ▸ ⟨rfl, rfl⟩
      | error e =>
        simp only [hd, Move.answer] at h
        injection h with h
        exact h ▸ ⟨rfl, rfl⟩
    | char c =>
      simp only [hq] at h
      cases hd : decodeLine c with
      | ok i =>
        unfold decodeLine at hd
        split at hd
        · injection hd with hd
          subst hd
          simp only [decodeLine, *, Move.answer, exec, execSerialChar] at h
          injection h with h
          exact h ▸ ⟨rfl, rfl⟩
        · exact absurd hd (by simp)
      | error e =>
        simp only [hd, Move.answer] at h
        injection h with h
        exact h ▸ ⟨rfl, rfl⟩
    | cell l =>
      simp only [hq, Move.answer] at h
      injection h with h
      subst h
      unfold State.driveCell State.raiseTimer State.driveRx
      cases s.level with
      | event => dsimp only; split <;> exact ⟨rfl, rfl⟩
      | timed => exact ⟨rfl, rfl⟩

/-- A turn of the host drives the first of the levels that its queue holds, if it drives one, and leaves the others. -/
theorem hostDrives_levels (q : List HostItem) :
    q.flatMap itemLevels = (hostDrives q).1.toList ++ (hostDrives q).2.flatMap itemLevels := by
  cases q with
  | nil => rfl
  | cons x r => cases x <;> simp [hostDrives, itemLevels, pairItems, charItems, List.flatMap_map]

/-- With no turn left, what the default move has the host drive comes off the levels to come. -/
theorem levelsToCome_host (q : List HostItem) :
    levelsToCome .event q [] = (hostDrives q).1.toList ++ levelsToCome .event (hostDrives q).2 [] :=
  hostDrives_levels q

@[simp] theorem hasFall_nil (l : Level) : hasFall l [] = false := rfl
@[simp] theorem hasFall_cons (l l' : Level) (ls : List Level) :
    hasFall l (l' :: ls) = ((l && !l') || hasFall l' ls) := rfl

/-- If a level is driven first, the levels after it are looked at from there. -/
theorem hasFall_toList_append (l : Level) (o : Option Level) (ls : List Level) :
    hasFall l (o.toList ++ ls) = ((l && !o.getD l) || hasFall (o.getD l) ls) := by
  cases o <;> simp

/-- All that the foreground can do in ACT. -/
theorem actMove_next {p : Params} {s t : State} (hb : s.bootPos = none) (hm : s.mPhase = .act)
    (h : (s.actMove p).answer = .next t) : Acts p s t := by
  unfold State.actMove at h
  cases hq : s.txPos with
  | none =>
    simp only [hq] at h
    cases ha : s.curAction with
    | none => simp [ha, Move.answer] at h
    | some a =>
      cases a with
      | setVoltage w =>
        simp only [ha, Move.answer] at h
        exact .frame (.setVoltage w) t hb hm hq ha h
      | shutdown =>
        simp only [ha, Move.answer] at h
        exact .frame .shutdown t hb hm hq ha h
  | some q =>
    simp only [hq] at h
    by_cases hs : q.spot = .bit 0 7 .sda
    · simp only [hs, if_true] at h
      have hw : s.waitEnd p = none := by
        unfold State.waitEnd
        cases s.level with
        | event => rfl
        | timed =>
          simp only [hb, hm, hq, hs, microOp, slotOp]
          cases q.frame[0]? <;> simp
      cases hd : (q.frame.head?).map decodeAddress with
      | none => simp [hd, Move.answer] at h
      | some e =>
        cases e with
        | error e => simp [hd, Move.answer] at h
        | ok i =>
          simp only [hd, Move.answer] at h
          have hi : i = .addrByte := by
            cases hf : q.frame.head? with
            | none => simp [hf] at hd
            | some v =>
              simp only [hf, Option.map_some, decodeAddress] at hd
              injection hd with hd
              split at hd
              · injection hd with hd
                exact hd.symm
              · exact absurd hd (by simp)
          subst hi
          simp only [exec, execAddrByte, hq] at h
          split at h
          · exact .micro q t hb hm hq hw h
          · exact absurd h (by simp)
    · simp only [hs, if_false] at h
      cases hw : s.waitEnd p with
      | none =>
        simp only [hw, Option.isSome_none] at h
        exact .micro q t hb hm hq hw h
      | some e =>
        simp only [hw, Option.isSome_some, if_true, Move.answer] at h
        injection h with h
        exact h ▸ .rest

/-- All that the foreground can do. -/
theorem foregroundMove_next {p : Params} {s t : State}
    (h : (s.foregroundMove p).answer = .next t) : Acts p s t := by
  unfold State.foregroundMove at h
  cases hb : s.bootPos with
  | some k =>
    simp only [hb, Move.answer] at h
    injection h with h
    exact h ▸ .boot k hb
  | none =>
    simp only [hb] at h
    cases hm : s.mPhase with
    | read =>
      simp only [hm, Move.answer] at h
      injection h with h
      exact h ▸ .read hb hm
    | decode b =>
      simp only [hm, Move.answer] at h
      exact .command b t hb hm h
    | act =>
      simp only [hm] at h
      exact actMove_next hb hm h

/-- All that a turn of the environment can do: an agent acts, or time passes. -/
theorem turnMove_next {p : Params} {s t : State} {x : Turn}
    (h : (s.turnMove p x).answer = .next t) : ∃ n, p.value s.now ≤ p.value n ∧ Acts p { s with now := n } t := by
  cases x with
  | foreground => exact ⟨s.now, le_refl _, foregroundMove_next h⟩
  | host => exact ⟨s.now, le_refl _, hostMove_next h⟩
  | rx l missed =>
    injection h with h
    exact ⟨s.now, le_refl _, h ▸ .rx l missed⟩
  | device l =>
    injection h with h
    exact ⟨s.now, le_refl _, h ▸ .device l⟩
  | expiry d =>
    rcases expire_next h with rfl | rfl
    · exact ⟨t.now, le_refl _, .rest⟩
    · exact ⟨s.now, le_refl _, .timer d⟩
  | elapse d => exact ⟨s.now.add (p.span d), le_add_span _ _ _, elapse_next h ▸ .rest⟩
  | handler d => exact ⟨s.now.add (p.span d), le_add_span _ _ _, (handlerTook_next h).1 ▸ .rest⟩
  | powerCycle =>
    injection h with h
    exact ⟨s.now, le_refl _, h ▸ .power⟩

/-- A Wait that is not over ends later. -/
theorem waitEnd_later {p : Params} {s : State} {e : Time} (h : s.waitEnd p = some e) :
    p.value s.now ≤ p.value e := by
  unfold State.waitEnd at h
  split at h
  · split at h
    · rename_i hw
      simp only [Bool.and_eq_true, lt_eq_true] at hw
      injection h with h
      exact h ▸ hw.2.le
    · exact absurd h (by simp)
  · exact absurd h (by simp)

/-- All that the default move can do: an agent acts, at this instant or at a later one. -/
theorem defaultMove_next {p : Params} {s t : State} (h : (s.defaultMove p).answer = .next t) :
    ∃ n, p.value s.now ≤ p.value n ∧ Acts p { s with now := n } t := by
  unfold State.defaultMove at h
  obtain hl | hl : s.level = .event ∨ s.level = .timed := by cases s.level <;> simp
  · simp only [hl] at h
    by_cases hr : s.foregroundReady = true
    · rw [if_pos hr] at h
      exact ⟨s.now, le_refl _, foregroundMove_next h⟩
    · rw [if_neg hr] at h
      by_cases hh : s.hostOut.isEmpty = true
      · rw [if_pos hh] at h
        injection h with h
        exact ⟨s.now, le_refl _, h ▸ .timer .line⟩
      · rw [if_neg hh] at h
        exact ⟨s.now, le_refl _, hostMove_next h⟩
  · simp only [hl] at h
    cases hw : s.waitEnd p with
    | none =>
      cases ht : s.tickDue with
      | none =>
        simp only [hw, ht] at h
        by_cases hr : s.foregroundReady = true
        · rw [if_pos hr] at h
          exact ⟨s.now, le_refl _, foregroundMove_next h⟩
        · rw [if_neg hr] at h
          injection h with h
          exact ⟨s.now, le_refl _, h ▸ .rest⟩
      | some tau =>
        simp only [hw, ht] at h
        by_cases hr : s.foregroundReady = true
        · rw [if_pos hr] at h
          exact ⟨s.now, le_refl _, foregroundMove_next h⟩
        · rw [if_neg hr] at h
          injection h with h
          exact ⟨p.later s.now tau, le_later _ _ _, h ▸ .timer .line⟩
    | some e =>
      have he := waitEnd_later hw
      cases ht : s.tickDue with
      | none =>
        simp only [hw, ht, ← hl] at h
        exact ⟨e, he, foregroundMove_next h⟩
      | some tau =>
        simp only [hw, ht] at h
        by_cases hte : p.le tau e = true
        · rw [if_pos hte] at h
          injection h with h
          exact ⟨p.later s.now tau, le_later _ _ _, h ▸ .timer .line⟩
        · simp only [if_neg hte, ← hl] at h
          exact ⟨e, he, foregroundMove_next h⟩

/-- ALL THAT A STEP CAN DO: it takes the pending EDGE event, it takes the pending TIMER event, or, with no interrupt to take,
an agent acts, at this instant or at a later one, with the choice that was used taken off the list. -/
theorem stepWith_next {p : Params} {s t : State} (h : stepWith p s = .next t) :
    (∃ te, s.intMask = false ∧ s.edgePend = some te ∧ s.takeEdge te = .next t) ∨
    (∃ d, s.intMask = false ∧ s.edgePend = none ∧ s.tmrPend = some d ∧
      s.takeTimer d = .next t) ∨
    ((s.intMask = true ∨ (s.edgePend = none ∧ s.tmrPend = none)) ∧
      ∃ r n, p.value s.now ≤ p.value n ∧ Acts p { s with sched := r, now := n } t) := by
  rcases stepWith_cases p s with ⟨te, hm, he, e⟩ | ⟨d, hm, he, ht, e⟩ | ⟨hn, e⟩
  · exact .inl ⟨te, hm, he, e ▸ h⟩
  · exact .inr (.inl ⟨d, hm, he, ht, e ▸ h⟩)
  · refine .inr (.inr ⟨hn, ?_⟩)
    rw [e] at h
    rcases chosenMove_cases p s with ⟨_, hd⟩ | ⟨x, r, _, hd⟩
    · rw [hd] at h
      obtain ⟨n, hle, ha⟩ := defaultMove_next h
      exact ⟨s.sched, n, hle, ha⟩
    · rw [hd] at h
      obtain ⟨n, hle, ha⟩ := turnMove_next h
      exact ⟨r, n, hle, ha⟩

end Sys2Proof.Machine
end

