-- ==== Sys2Proof/Tests/Slice0.lean ====
section
/-! SUPPORT. The model's own tests: ill-formed instructions are refused, words written out from the spec decode to what they
stand for, single steps give what spec/95_test_vectors.md gives, and the hypotheses of each statement of
`Certificates/Slice0/Obligations.lean` can be met. -/

namespace Sys2Proof.Tests

open Sys2Proof Sys2Proof.Machine

/-! ### States to test on -/

/-- A field of the next state, if there is one. -/
def after {α : Type} (r : Result) (f : State → α) : Option α :=
  match r with
  | .next t => some (f t)
  | .fault _ => none
  | .refused _ => none

/-- The reset state with the choices `ts` ahead. -/
def scheduled (ts : List Turn) : State := { State.reset with sched := ts }

/-- The interpreter waits for a second byte, with `b` pending. -/
def awaiting (b : Byte) : State := { State.reset with iState := .awaitSecond, pending := b }

/-- A byte is being received and `n` of its bits have been sampled. -/
def receiving (n : BitVec 4) : State :=
  { State.reset with
    edgeEn := false, tmrRun := true, tmrPhase := n != 0, bitPos := n, nextTick := some (.num 0) }

/-- The frame of SetVoltage(1) is being sent, at `spot`, with the lines as given. -/
def sending (spot : TxSpot) (scl sda : Level) : State :=
  { State.reset with
    mPhase := .act
    curAction := some (.setVoltage 1)
    txPos := some { frame := [0xC0, 0x00, 0x01], spot := spot }
    sclOut := scl
    sdaOut := sda }

/-- An action is about to be performed. -/
def acting (a : Action) : State := { State.reset with mPhase := .act, curAction := some a }

/-- The boot sequence is about to take step `k`. -/
def booting (k : BootStep) : State :=
  { State.reset with bootPos := some k, intMask := true, edgeEn := false }

/-- The timed level's parameters in units of a twentieth of T_BIT, with a jitter just below half of it; the environment
draws 0 and √2. -/
noncomputable def jittery : Params :=
  .ofValues
    { tBit := 20, tFirst := 30, tJitter := 9, tIsr := 2, tHalf := 1
      draw := fun n => if n = 0 then 0 else √2 }

/-- No jitter, and a first sample one and a half periods after the edge. -/
noncomputable def steady (tBit : ℝ) : Params :=
  .ofValues
    { tBit := tBit, tFirst := 3 / 2 * tBit, tJitter := 0, tIsr := 0, tHalf := 1, draw := fun _ => 0 }

theorem inv_receiving (n : BitVec 4) (h : n.toNat ≤ 7) : (receiving n).Inv :=
  ⟨rfl, rfl, (fun h => nomatch h), h, rfl, fun _ => rfl, (fun h => nomatch h), fun _ => rfl,
    (fun h => nomatch h), rfl⟩

theorem inv_sending {spot : TxSpot} {scl sda : Level}
    (h : (sending spot scl sda).sequencersAgree = true) : (sending spot scl sda).Inv :=
  ⟨rfl, rfl, fun _ => rfl, Nat.zero_le 7, rfl, (fun h => nomatch h), (fun h => nomatch h),
    (fun h => nomatch h), (fun h => nomatch h), h⟩

/-! ### Ill-formed instructions (the masks of R77, R80 and R70) -/

theorem test_wellFormed_discard : (Instr.discard 0x03).wellFormed = false := by decide
theorem test_wellFormed_first : (Instr.first 0x02).wellFormed = false := by decide
theorem test_wellFormed_refirst : (Instr.refirst 0x40).wellFormed = false := by decide
theorem test_wellFormed_shutdown :
    (Instr.shutdown 0x41).wellFormed = false ∧ (Instr.shutdown 0x02).wellFormed = false := by decide
theorem test_wellFormed_setv :
    (Instr.setv 0x03).wellFormed = false ∧ (Instr.setv 0x40).wellFormed = false := by decide
theorem test_wellFormed_encShutdown : (Instr.encShutdown 0x02 0 0).wellFormed = false := by decide
theorem test_wellFormed_serialChar :
    (Instr.serialChar 0b1000000001).wellFormed = false ∧
    (Instr.serialChar 0b0111111110).wellFormed = false := by decide

/-! ### Words written out from the encodings -/

/-- R77: in AWAIT_FIRST bit 0 = 0 is DISCARD, bit 6 notwithstanding (V15c). -/
theorem test_decode_discard :
    decode (.command .awaitFirst) 0b0000000001000000#16 = .ok (.discard 0b01000000#8) := by decide
/-- R73, R77: V11 to V5 = 1010101, then sync bit 1. -/
theorem test_decode_first :
    decode (.command .awaitFirst) 0b0000000010101011#16 = .ok (.first 0b10101011#8) := by decide
/-- R77: in AWAIT_SECOND bit 0 = 1 is REFIRST, bit 6 notwithstanding (V19a). -/
theorem test_decode_refirst :
    decode (.command .awaitSecond) 0b0000000001000001#16 = .ok (.refirst 0b01000001#8) := by decide
/-- R74, R77: X = 1, S = 1, V4 to V0 = 00000, sync bit 0 (V17). -/
theorem test_decode_shutdown :
    decode (.command .awaitSecond) 0b0000000011000000#16 = .ok (.shutdown 0b11000000#8) := by decide
/-- R74, R77: X = 1, S = 0, V4 to V0 = 11111, sync bit 0 (V19g). -/
theorem test_decode_setv :
    decode (.command .awaitSecond) 0b0000000010111110#16 = .ok (.setv 0b10111110#8) := by decide
/-- R80: w = 0x555 and X = 0 is 55 2A (V20). -/
theorem test_decode_encSetv :
    decode .host 0b0101010100101010#16 = .ok (.encSetv 0x555#12 0#1) := by decide
/-- R80: ENC_SHUTDOWN(0x01) is 01 40; here with X = 1 and v = 00001. -/
theorem test_decode_encShutdown :
    decode .host 0b0000000111000010#16 = .ok (.encShutdown 0x01#8 1#1 1#5) := by decide
/-- R70: the cells of 0x41 in time order are 0 10000010 1. -/
theorem test_decode_serialChar :
    decode .line 0b0000001010000010#16 = .ok (.serialChar 0b1010000010#10) ∧
    cellLevels 0b1010000010#10 =
      [false, true, false, false, false, false, false, true, false, true] := by decide
/-- R82: 1100000 and then the write bit 0. -/
theorem test_decode_addrByte : decode .busAddress 0b0000000011000000#16 = .ok .addrByte := by decide
/-- R83: SetVoltage(4065) is 0F E1. -/
theorem test_decode_setvData :
    decode .busData 0b0000111111100001#16 = .ok (.setvData 4065#12) := by decide
/-- R84: SD_HI and then 0x00. -/
theorem test_decode_shutdownData : decode .busData (Config.sdHi ++ 0#8) = .ok .shutdownData := by
  have hm : BitVec.ofNat 4 (Config.sdMode.val + 1) ≠ 0#4 := by
    have := Config.sdMode.isLt
    simp only [ne_eq, ← BitVec.toNat_inj, BitVec.toNat_ofNat]
    omega
  have hi : (Config.sdHi ++ 0#8).extractLsb' 12 4 = BitVec.ofNat 4 (Config.sdMode.val + 1) := by
    unfold Config.sdHi
    generalize BitVec.ofNat 4 (Config.sdMode.val + 1) = a
    generalize Config.sdLow = b
    revert a b
    decide
  have hw : (Config.sdHi ++ 0#8).toNat < 2 ^ Stream.width .busData := (Config.sdHi ++ 0#8).isLt
  unfold decode
  rw [if_pos hw]
  simp only [decodeData, hi, if_neg hm]
  exact if_pos rfl
/-- R80, R70, R82, R83: words that no row of their stream matches are rejected by name. -/
theorem test_decode_rejects :
    decode .host 0x0001#16 = .error .notHostPair ∧ decode .line 0x0001#16 = .error .notSerialChar ∧
    decode .busAddress 0x00C1#16 = .error .notAddressByte ∧
    decode (.command .awaitFirst) 0x0100#16 = .error .tooWide := by decide

/-! ### Single steps (spec/95_test_vectors.md) -/

/-- V15c: a shutdown-shaped byte in AWAIT_FIRST is dropped. -/
theorem test_exec_discard :
    after (exec (.discard 0x40) State.reset) (fun t => (t.curAction, t.iState)) =
      some (none, .awaitFirst) := by decide
/-- V15f. -/
theorem test_exec_first :
    after (exec (.first 0xFF) State.reset) (fun t => (t.iState, t.pending)) =
      some (.awaitSecond, 0xFF) := by decide
/-- V19c. -/
theorem test_exec_refirst :
    after (exec (.refirst 0xFF) (awaiting 0x01)) (fun t => (t.iState, t.pending)) =
      some (.awaitSecond, 0xFF) := by decide
/-- V18. -/
theorem test_exec_shutdown :
    after (exec (.shutdown 0x7E) (awaiting 0xFF)) (fun t => (t.curAction, t.pending)) =
      some (some .shutdown, 0xFF) := by decide
/-- V19h and V19j. -/
theorem test_exec_setv :
    after (exec (.setv 0x2A) (awaiting 0x55)) State.curAction = some (some (.setVoltage 1365)) ∧
    after (exec (.setv 0x20) (awaiting 0x3F)) State.curAction = some (some (.setVoltage 1008)) := by
  decide
/-- V20: w = 265 is 11 12, and section 2.1's cells of 0x11 and 0x12. -/
theorem test_exec_encSetv :
    after (exec (.encSetv 265 0) State.reset) State.hostOut =
      some [.char 0b1000100010, .char 0b1000100100] := by decide
/-- S2: 01 40, and section 2.1's cells of 0x01 and 0x40. -/
theorem test_exec_encShutdown :
    after (exec (.encShutdown 0x01 0 0) State.reset) State.hostOut =
      some [.char 0b1000000010, .char 0b1010000000] := by decide
/-- Section 2.1: 0x02 is 0 01000000 1. -/
theorem test_exec_serialChar :
    after (exec (.serialChar 0b1000000100) State.reset) State.hostOut =
      some ([false, false, true, false, false, false, false, false, false, true].map .cell) := by
  decide
/-- V22: after START the first slot puts bit 7 of 0xC0 on SDA: (0,0) becomes (0,1). -/
theorem test_exec_addrByte :
    after (exec .addrByte (sending (.bit 0 7 .sda) false false)) (fun t => (t.sclOut, t.sdaOut)) =
      some (false, true) := by decide
/-- Section 2.5: SetVoltage(1025) is C0 04 01. -/
theorem test_exec_setvData :
    after (exec (.setvData 1025) (acting (.setVoltage 1025))) (fun t => t.txPos.map TxPos.frame) =
      some (some [0xC0, 0x04, 0x01]) := by decide
/-- Section 2.5: Shutdown is C0 SD_HI 00. -/
theorem test_exec_shutdownData :
    after (exec .shutdownData (acting .shutdown)) (fun t => t.txPos.map TxPos.frame) =
      some (some [0xC0, Config.sdHi, 0x00]) := rfl
/-- V3: the completing tick overwrites the unread byte. -/
theorem test_overrun :
    after ({ receiving 7 with rxBuf := 0x01, rxRdy := true, acc := 0b10000010 }.timerTick false) (fun t => (t.rxBuf, t.rxRdy)) = some (0x02, true) := by decide
/-- V6: with the tick first, the take returns the new byte and leaves none ready. -/
theorem test_tick_before_take :
    after ({ receiving 7 with rxBuf := 0x01, rxRdy := true, acc := 0x01 }.timerTick true)
      (fun t => (t.readStep.mPhase, t.readStep.rxRdy)) = some (.decode 0x81, false) := by decide
/-- V10, V11: T_h = T is received; V11's T_h = 0.94 T is not. -/
theorem test_reception :
    ReceptionCondition (steady 1) 1 ∧ ¬ ReceptionCondition (steady 1) (94 / 100) := by
  constructor
  · intro k hk
    interval_cases k <;> norm_num [steady]
  · intro h
    have := (h 7 (by decide)).2
    norm_num [steady] at this

/-! ### The hypotheses of the statements can be met -/

theorem witness_DecodeEncodeRoundTrip :
    (Instr.discard 0xFE).wellFormed = true ∧ (Instr.first 0xFF).wellFormed = true ∧
    (Instr.refirst 0x01).wellFormed = true ∧ (Instr.shutdown 0xFE).wellFormed = true ∧
    (Instr.setv 0xBE).wellFormed = true ∧ (Instr.encSetv 4095 1).wellFormed = true ∧
    (Instr.encShutdown 0xFF 1 31).wellFormed = true ∧
    (Instr.serialChar 0b1111111110).wellFormed = true ∧ Instr.addrByte.wellFormed = true ∧
    (Instr.setvData 4095).wellFormed = true ∧ Instr.shutdownData.wellFormed = true := by decide

theorem witness_EncodeDecodeRoundTrip :
    decode (.command .awaitSecond) 0x00FE#16 = .ok (.shutdown 0xFE#8) ∧
    decode .host 0xFFBE#16 = .ok (.encSetv 4095#12 1#1) ∧
    decode .busData 0x0FFF#16 = .ok (.setvData 4095#12) := by decide

theorem witness_EveryCommandByteHasOneClass :
    streamOf (.setv 0xBE) = .command (awaiting 0x01).iState ∧ (Instr.setv 0xBE).wellFormed = true ∧
    encode (.setv 0xBE) = (0xBE#8).zeroExtend 16 := by decide

/-- V19f: FF 3E is 4095. -/
theorem witness_MagnitudeOfTwoBytes :
    (0xFF#8).getLsbD 0 = true ∧ (0x3E#8).extractLsb' 1 5 = 31#5 ∧ magnitude 0xFF 0x3E = 4095 := by
  decide

theorem witness_DiscardDropsByte :
    State.reset.iState = .awaitFirst ∧ (0xFE#8).getLsbD 0 = false := by decide
theorem witness_FirstKeepsByte :
    State.reset.iState = .awaitFirst ∧ (0x01#8).getLsbD 0 = true := by decide
theorem witness_RefirstReplacesByte :
    (awaiting 0x01).iState = .awaitSecond ∧ (0x41#8).getLsbD 0 = true := by decide
theorem witness_ShutdownEmitsShutdown :
    (awaiting 0x01).iState = .awaitSecond ∧ (0x40#8).getLsbD 0 = false ∧
    (0x40#8).getLsbD 6 = true := by decide
theorem witness_SetvEmitsSetVoltage :
    (awaiting 0xFF).iState = .awaitSecond ∧ (0xBE#8).getLsbD 0 = false ∧
    (0xBE#8).getLsbD 6 = false := by decide
theorem witness_HostMagnitudeRoundTrip : State.reset.iState = .awaitFirst := rfl
theorem witness_ShutdownTakesPrecedence :
    (0xFF#8).getLsbD 0 = true ∧ (0x7E#8).getLsbD 0 = false ∧ (0x7E#8).getLsbD 6 = true := by decide
/-- V21. -/
theorem witness_SyncBytesNeverAct :
    (0x41#8).getLsbD 0 = true ∧ ∀ c ∈ [0x01#8, 0x03#8, 0xFF#8], c.getLsbD 0 = true := by decide

theorem witness_EdgeWhileDisabledIsLost :
    { receiving 3 with sched := [.rx false true] }.Undisturbed ∧
    (receiving 3).edgeEn = false ∧ (receiving 3).rx = true :=
  ⟨⟨rfl, rfl, rfl⟩, rfl, rfl⟩
/-- An edge; then, with EDGE_EN = 1, a line that stays low (V29), that rises, and that stays high. -/
theorem witness_FallingEdgeStartsByte :
    ((scheduled [.rx false false]).Undisturbed ∧ (scheduled [.rx false false]).edgeEn = true ∧
      (scheduled [.rx false false]).rx = true) ∧
    ∀ x ∈ [(false, false), (false, true), (true, true)],
      let s := { scheduled [.rx x.2 false] with rx := x.1 }
      s.Undisturbed ∧ s.edgeEn = true ∧ (s.rx = false ∨ x.2 = true) ∧
      s.sched = .rx x.2 false :: [] :=
  ⟨⟨⟨rfl, rfl, rfl⟩, rfl, rfl⟩, fun x hx =>
    ⟨⟨rfl, rfl, rfl⟩, rfl, by revert x; decide, rfl⟩⟩
/-- The first tick and the last that does not complete a byte, with the line's level and with the other drawn. -/
theorem witness_TickSamplesOneBit :
    ∀ d ∈ [SampleDraw.line, .drawn false],
      ∀ s ∈ [{ receiving 0 with tmrPend := some d }, { receiving 6 with tmrPend := some d }],
        s.intMask = false ∧ s.edgePend = none ∧ s.tmrPend = some d ∧ s.bitPos.toNat < 7 := by
  decide
theorem witness_EighthTickCompletesByte :
    ∀ d ∈ [SampleDraw.line, .drawn false], ∀ s ∈ [{ receiving 7 with tmrPend := some d }],
      s.intMask = false ∧ s.edgePend = none ∧ s.tmrPend = some d ∧ s.bitPos = 7 := by
  decide
theorem witness_OverrunLeavesNoTrace :
    (∀ s ∈ [{ receiving 7 with tmrPend := some .line, rxRdy := true, rxBuf := 0x01 }],
      s.intMask = false ∧ s.edgePend = none ∧ s.tmrPend = some .line ∧ s.bitPos = 7) ∧
    (∀ s ∈ [{ State.reset with edgePend := some (.num 3), rxRdy := true, rxBuf := 0x01 }],
      s.intMask = false ∧ s.edgePend = some (.num 3)) := by decide
theorem witness_EightTicksAssembleByte : State.reset.bitPos = 0 := rfl
/-- A character whose stop cell is 1, and one whose stop cell is 0. -/
theorem witness_CharacterIsReceived :
    ∀ c ∈ [charOf 0xA5, charOf 0xA5 &&& 0x1FF#10],
      let s := { scheduled (List.replicate 9 .host) with hostOut := (cellLevels c).map .cell }
      s.Undisturbed ∧ s.bootPos = none ∧ s.level = .event ∧ s.edgeEn = true ∧ s.tmrRun = false ∧
      s.bitPos = 0 ∧ s.rx = true ∧ c.getLsbD 0 = false ∧
      s.hostOut = (cellLevels c).map .cell ++ [] ∧ s.sched = List.replicate 9 .host ++ [] := by
  intro c hc
  refine ⟨⟨rfl, rfl, rfl⟩, rfl, rfl, rfl, rfl, rfl, rfl, ?_, (List.append_nil _).symm, rfl⟩
  revert c
  decide
/-- Every sample as late as the jitter lets it be. -/
theorem witness_CorrectReception :
    ReceptionCondition jittery 20 ∧ State.reset.bitPos = 0 ∧
    ∀ k, k < 8 → SampledNear jittery (tickTime jittery 5 k) (tickTime jittery 5 k + 9) ∧
      CharLevel (charOf 0xA5) 20 (tickTime jittery 5 k + 9 - 5) ((0xA5#8).getLsbD k) := by
  refine ⟨fun k hk => ?_, rfl, fun k hk => ⟨?_, fun j hj h1 h2 => ?_, fun h => ?_⟩⟩
  · interval_cases k <;> norm_num [jittery]
  · norm_num [SampledNear, jittery]
  · have hk' : k + 1 = j := by
      simp only [tickTime, jittery, ofValues_toTimeValues] at h1 h2
      have l1 : (j : ℝ) < k + 2 := by linarith
      have l2 : (k : ℝ) < j := by linarith
      have : j < k + 2 := by exact_mod_cast l1
      have : k < j := by exact_mod_cast l2
      omega
    subst hk'
    interval_cases k <;> decide
  · exfalso
    have hk' : (k : ℝ) ≤ 7 := by exact_mod_cast Nat.le_of_lt_succ hk
    have hk0 : (0 : ℝ) ≤ k := Nat.cast_nonneg k
    simp only [tickTime, jittery, ofValues_toTimeValues] at h
    rcases h with h | h <;> linarith
/-- A T_h close to either end of the open range, 136 to 153 for T_BIT = 144, and the ends. -/
theorem witness_BaudToleranceRange :
    2 * (steady 144).tFirst = 3 * (steady 144).tBit ∧ (steady 144).tJitter = 0 ∧
    (∀ th ∈ [1361 / 10, 1529 / 10], ReceptionCondition (steady 144) th) ∧
    ∀ th ∈ [136, 153], ¬ ReceptionCondition (steady 144) th := by
  refine ⟨by norm_num [steady], rfl, ?_, ?_⟩
  · simp only [List.forall_mem_cons, List.not_mem_nil, false_implies, implies_true, and_true]
    constructor <;> intro k hk <;> interval_cases k <;> norm_num [steady]
  · simp only [List.forall_mem_cons, List.not_mem_nil, false_implies, implies_true, and_true]
    constructor <;> intro h <;> have := h 7 (by decide) <;> norm_num [steady] at this

theorem witness_ReadTakesOrHolds :
    ∀ b : Bool, { scheduled [.foreground] with rxRdy := b }.Undisturbed ∧
      (scheduled [.foreground]).bootPos = none ∧ (scheduled [.foreground]).mPhase = .read :=
  fun _ => ⟨⟨rfl, rfl, rfl⟩, rfl, rfl⟩
theorem witness_OnlyCompletingTickMakesByteReady :
    ∃ s t : State, s.Inv ∧ s.bootPos = none ∧ s.rxRdy = false ∧ step s = .next t ∧
      t.bootPos = none ∧ t.rxRdy = true := by
  refine ⟨{ receiving 7 with tmrPend := some .line }, _, ?_, rfl, rfl, rfl, rfl, rfl⟩
  exact ⟨rfl, rfl, (fun h => nomatch h), by decide, rfl, fun _ => rfl, (fun h => nomatch h),
    fun _ => rfl, (fun h => nomatch h), rfl⟩
theorem witness_HandlersComeFirstAndKeepForeground :
    ∀ s ∈ [{ State.reset with edgePend := some (.num 3) }, { receiving 7 with tmrPend := some .line }],
      s.intMask = false ∧ s.bitPos.toNat ≤ 7 ∧
      (s.edgePend.isSome = true ∨ s.tmrPend.isSome = true) := by decide
theorem witness_ForegroundKeepsSampler :
    ∃ s t : State, s.Undisturbed ∧ s.bootPos = none ∧ s.sched = .foreground :: [] ∧
      step s = .next t ∧ s.rxRdy = true ∧ t.rxRdy = false :=
  ⟨{ scheduled [.foreground] with rxRdy := true }, _, ⟨rfl, rfl, rfl⟩, rfl, rfl, rfl, rfl, rfl⟩

theorem witness_AddrByteBeginsWithBitSeven :
    (sending (.bit 0 7 .sda) false false).txPos =
      some { frame := 0xC0#8 :: [0x00, 0x01], spot := .bit 0 7 .sda } := rfl
/-- The least fuel, and more. -/
theorem witness_FrameWalkIsSendFrame :
    ([0xC0#8] : List Byte) ≠ [] ∧ ∀ fuel ∈ [57, 1000], 12 + 45 * [0xC0#8].length ≤ fuel := by decide
theorem witness_ActSendsWholeFrame :
    ∀ a ∈ [Action.setVoltage 4095, .shutdown],
      (acting a).Undisturbed ∧ (acting a).bootPos = none ∧ (acting a).level = .event ∧
      (acting a).sched = [] ∧ (acting a).mPhase = .act ∧ (acting a).curAction = some a ∧
      (acting a).txPos = none :=
  fun _ _ => ⟨⟨rfl, rfl, rfl⟩, rfl, rfl, rfl, rfl, rfl, rfl⟩
/-- The first micro-step of a frame, and the last, at each level, the last Wait having just lasted T_HALF or half of it. -/
theorem witness_MicroStepActsOnItsLine :
    ∀ x ∈ [(TxSpot.start .sdaHigh, MicroOp.pin .sda true), (.stop .waitFree, .wait)],
      ∀ l ∈ [ModelLevel.event, .timed], ∀ n ∈ [Time.tHalf, .num (1 / 2)],
        let s := { sending x.1 true true with sched := [.foreground], level := l, now := n }
        s.Undisturbed ∧ s.bootPos = none ∧ s.mPhase = .act ∧
        s.txPos = some { frame := [0xC0, 0x00, 0x01], spot := x.1 } ∧ x.1 ≠ .bit 0 7 .sda ∧
        microOp [0xC0, 0x00, 0x01] x.1 = some x.2 ∧ s.sched = .foreground :: [] ∧
        (n = .tHalf → jittery.value s.microAt + jittery.tHalf ≤ jittery.value s.now) ∧
        (n = .num (1 / 2) → jittery.value s.now < jittery.value s.microAt + jittery.tHalf) := by
  intro x hx l _ n _
  refine ⟨⟨rfl, rfl, rfl⟩, rfl, rfl, ?_, ?_, ?_, rfl, ?_, ?_⟩
  · rfl
  · revert x; decide
  · revert x; decide
  · rintro rfl
    norm_num [jittery, sending, State.reset]
  · rintro rfl
    norm_num [jittery, sending, State.reset]
/-- The fall in START and the rise in STOP. -/
theorem witness_SdaChangesOnlyByDiscipline :
    (∃ t, (sending (.start .sdaFall) true true).Inv ∧
      step (sending (.start .sdaFall) true true) = .next t ∧ t.bootPos = none ∧ t.sclOut = true ∧
      t.sdaOut = false) ∧
    (∃ t, (sending (.stop .sdaRise) true false).Inv ∧
      step (sending (.stop .sdaRise) true false) = .next t ∧ t.bootPos = none ∧ t.sclOut = true ∧
      t.sdaOut = true) :=
  ⟨⟨_, inv_sending rfl, rfl, rfl, rfl, rfl⟩, ⟨_, inv_sending rfl, rfl, rfl, rfl, rfl⟩⟩
theorem witness_DeviceMovesOnlyTheSdaWire :
    (scheduled [.device false]).Undisturbed ∧
    (scheduled [.device false]).sched = .device false :: [] := ⟨⟨rfl, rfl, rfl⟩, rfl⟩

theorem witness_StepRunsDecodedCommand :
    ∀ r ∈ [[], [Turn.foreground]],
      let s := { awaiting 0x01 with mPhase := .decode 0x02, sched := r }
      s.Undisturbed ∧ s.bootPos = none ∧ s.mPhase = .decode 0x02 :=
  fun _ _ => ⟨⟨rfl, rfl, rfl⟩, rfl, rfl⟩
theorem witness_StepRunsDecodedHostForm :
    (scheduled [.host]).Undisturbed ∧ (scheduled [.host]).sched = .host :: [] ∧
    { scheduled [.host] with hostOut := [.pair 0x0102] }.hostOut = .pair 0x0102#16 :: [] ∧
    decode .host 0x0102#16 = .ok (.encSetv 1#12 0#1) ∧
    { scheduled [.host] with hostOut := [.char 0x202] }.hostOut = .char 0x202#10 :: [] ∧
    decode .line ((0x202#10).zeroExtend 16) = .ok (.serialChar 0x202#10) :=
  ⟨⟨rfl, rfl, rfl⟩, rfl, rfl, by decide, rfl, by decide⟩
theorem witness_StepRunsDecodedBusForm :
    (∀ s ∈ [{ acting (.setVoltage 4095) with sched := [.foreground] },
      { sending (.bit 0 7 .sda) false false with sched := [.foreground] }],
      s.intMask = false ∧ s.edgePend = none ∧ s.tmrPend = none ∧ s.bootPos = none ∧
      s.mPhase = .act ∧ s.sched = .foreground :: []) ∧
    actionBytes (.setVoltage 4095) = [0x0F, 0xFF] ∧
    decode .busData (pairOf 0x0F 0xFF) = .ok (.setvData 4095#12) ∧
    decode .busAddress ((0xC0#8).zeroExtend 16) = .ok .addrByte := by decide
/-- The shutdown form of the same statement. -/
theorem witness_StepRunsDecodedBusForm_shutdown :
    (acting .shutdown).Undisturbed ∧ (acting .shutdown).txPos = none ∧
    (acting .shutdown).curAction = some .shutdown ∧ actionBytes .shutdown = [Config.sdHi, 0x00] ∧
    decode .busData (pairOf Config.sdHi 0x00) = .ok .shutdownData :=
  ⟨⟨rfl, rfl, rfl⟩, rfl, rfl, rfl, test_decode_shutdownData⟩
theorem witness_PlacedWordIsRunNext :
    decodeTableWord 8 0x01 = some (.first 0x01) ∧ decodeTableWord 8 0x40 = some (.shutdown 0x40) ∧
    decodeTableWord 8 0x00 = some (.setv 0x00) ∧ decodeTableWord 16 0x0100 = some (.encSetv 0 0) ∧
    decodeTableWord 16 0x0140 = some (.encShutdown 0x01 0 0) ∧
    decodeTableWord 10 0x200 = some (.serialChar 0x200) ∧ decodeTableWord 8 0xC0 = some .addrByte ∧
    decodeTableWord 16 0x0000 = some (.setvData 0) := by decide
/-- A turn at hand of the foreground, of the timer, of the device, of time, of a line that stays high, or of a host that sends a
rising edge only (RX being low), one high cell, or an idle line for the length of a character; and nothing left to do. -/
theorem witness_QuiescentStateRests :
    ∀ l ∈ [ModelLevel.event, .timed],
      (∀ x ∈ [(true, [Turn.foreground], []), (true, [.expiry .line], []), (true, [.device false], []),
          (true, [.elapse (.draw 1)], []), (true, [.rx true false], []), (false, [.rx true false], []),
          (true, [.host], [HostItem.cell true]), (true, [], [.char 0x3FF]), (true, [], [])],
        let s := { scheduled x.2.1 with rx := x.1, hostOut := x.2.2, level := l }
        s.Quiescent ∧ s.Inv ∧ .powerCycle ∉ s.sched ∧ ∀ d, Turn.handler d ∉ s.sched) ∧
      { scheduled [] with level := l, hostOut := [.cell true] }.Quiescent := by
  intro l hl
  refine ⟨fun x hx => ⟨⟨⟨rfl, rfl, rfl⟩, rfl, rfl, rfl, rfl, ?_⟩, ?_, ?_, ?_⟩,
    ⟨⟨rfl, rfl, rfl⟩, rfl, rfl, rfl, rfl, ?_⟩⟩
  · revert l x
    decide
  · exact ⟨rfl, rfl, fun _ => rfl, Nat.zero_le 7, rfl, (fun h => nomatch h), (fun h => nomatch h),
      (fun h => nomatch h), (fun h => nomatch h), rfl⟩
  · show .powerCycle ∉ x.2.1
    clear hl l
    revert x
    decide
  · intro d
    revert x
    simp [scheduled]
  · revert l
    decide
/-- A character, a pair or a low level to come is an edge to come. -/
theorem test_edgeToCome :
    { scheduled [] with hostOut := [.char 0x200] }.edgeToCome = true ∧
    { scheduled [] with hostOut := [.pair 0] }.edgeToCome = true ∧
    (scheduled [.rx false false]).edgeToCome = true := by decide

theorem witness_BootReachesResetValues :
    (scheduled (.powerCycle :: List.replicate 5 .foreground)).Undisturbed ∧
    (scheduled (.powerCycle :: List.replicate 5 .foreground)).sched =
      .powerCycle :: (List.replicate 5 .foreground ++ []) := ⟨⟨rfl, rfl, rfl⟩, rfl⟩
/-- The other form of the hypothesis: power is lost in the middle of the boot sequence. -/
theorem witness_BootReachesResetValues_booting :
    { booting .flagsCleared with sched := .powerCycle :: List.replicate 5 .foreground }.intMask =
      true := rfl
/-- Before the first boot step, with an edge coming, and at the last one. -/
theorem witness_NoSamplerEventDuringBoot :
    (∃ t, { booting .busIdle with sched := [.rx false false] }.Inv ∧
      step { booting .busIdle with sched := [.rx false false] } = .next t) ∧
    (∃ t, (booting .edgeEnabled).Inv ∧ step (booting .edgeEnabled) = .next t) :=
  ⟨⟨_, ⟨rfl, rfl, rfl, rfl, rfl, by decide, by decide, by decide, by decide⟩, rfl⟩,
    ⟨_, ⟨rfl, rfl, rfl, rfl, rfl, by decide, by decide, by decide, by decide⟩, rfl⟩⟩

theorem witness_StepKeepsInvariant :
    (∃ t, (receiving 7).Inv ∧ step (receiving 7) = .next t) ∧
    (∃ t, (sending (.stop .waitFree) true true).Inv ∧
      step (sending (.stop .waitFree) true true) = .next t) ∧
    (∃ t, (booting .edgeEnabled).Inv ∧ step (booting .edgeEnabled) = .next t) :=
  ⟨⟨_, inv_receiving 7 (by decide), rfl⟩, ⟨_, inv_sending rfl, rfl⟩,
    ⟨_, ⟨rfl, rfl, rfl, rfl, rfl, by decide, by decide, by decide, by decide⟩, rfl⟩⟩
theorem witness_StepsNeverFault : (receiving 0).Inv ∧ (receiving 0).level = .event :=
  ⟨inv_receiving 0 (by decide), rfl⟩
/-- Two states in the middle of a byte that differ in every unspecified element. -/
theorem witness_UnspecifiedContentsAreNeverObserved :
    (receiving 3).Inv ∧
    (receiving 3).SameSeen { receiving 3 with acc := 0xF8, rxBuf := 0x12, pending := 0x34 } := by
  refine ⟨inv_receiving 3 (by decide), rfl, ?_, (fun h => nomatch h), (fun h => nomatch h),
    fun _ => rfl⟩
  intro i hi
  have hi' : i < 3 := hi
  revert i
  decide

/-- √2 of time may pass, with the timer stopped, with it armed and, at the timed level, up to the last instant that a tick may
have, but no longer; an edge and a tick may be pending at an irrational instant; and a tick may complete a byte. -/
theorem witness_TimeIsRealValued :
    (∃ p : Params, Irrational (p.value (.draw 1)) ∧ 0 < p.value (.draw 1)) ∧
    (scheduled [.elapse (.draw 1)]).Undisturbed ∧
    (scheduled [.elapse (.draw 1)]).nextTick = none ∧
    (∀ n ∈ [Time.draw 1, .num (-8)],
      let s := { receiving 0 with
        level := .timed, nextTick := some n, sched := [.elapse (.add .tJitter (.draw 1))] }
      s.Undisturbed ∧ s.level = .timed ∧ s.nextTick = some n ∧
      (n = .draw 1 → jittery.value s.now + max 0 (jittery.value (.add .tJitter (.draw 1))) =
        jittery.value n + jittery.tJitter) ∧
      (n = .num (-8) → jittery.value n + jittery.tJitter <
        jittery.value s.now + max 0 (jittery.value (.add .tJitter (.draw 1))))) ∧
    (∀ s ∈ [{ State.reset with edgePend := some (.draw 1) }],
      s.intMask = false ∧ s.edgePend = some (.draw 1)) ∧
    (∀ s ∈ [{ receiving 0 with tmrPend := some .line, nextTick := some (.draw 1) },
      { receiving 6 with tmrPend := some .line, nextTick := some (.draw 1) }],
      s.intMask = false ∧ s.edgePend = none ∧ s.tmrPend = some .line ∧
      s.nextTick = some (.draw 1) ∧ s.bitPos.toNat < 7) ∧
    (∀ s ∈ [{ receiving 7 with tmrPend := some .line }],
      s.intMask = false ∧ s.edgePend = none ∧ s.tmrPend = some .line ∧ s.bitPos = 7) := by
  refine ⟨⟨jittery, ?_, ?_⟩, ⟨rfl, rfl, rfl⟩, rfl, fun n _ =>
    ⟨⟨rfl, rfl, rfl⟩, rfl, rfl, ?_, ?_⟩, by decide, by decide, by decide⟩
  · simpa [jittery] using irrational_sqrt_two
  · simp [jittery]
  · rintro rfl
    have h2 : (0 : ℝ) ≤ 9 + √2 := by positivity
    simp [jittery, receiving, State.reset, h2, add_comm]
  · rintro rfl
    have h2 : (0 : ℝ) ≤ √2 := by positivity
    have h3 : (0 : ℝ) ≤ 9 + √2 := by positivity
    norm_num [jittery, receiving, State.reset, h3]
    linarith

/-- No time is given to a handler: the state is the same but for the name of NOW. -/
theorem step_handlerNone {n : Time} (r : List Turn) (h : Config.timing.value n = 0) :
    step { scheduled (.handler (.num 0) :: r) with
        level := .timed, isrAt := some (.num 0), now := n } =
      .next { scheduled r with
        level := .timed, isrAt := some (.num 0), now := n.add (Config.timing.span (.num 0)) } := by
  have hw : Config.timing.le (n.add (Config.timing.span (.num 0))) ((Time.num 0).add .tIsr) = true := by
    simp [h, timing_isr_nonneg]
  rw [step, stepWith_turn rfl rfl rfl rfl]
  simp only [State.turnMove, Move.answer, State.handlerTook, hw]
  rfl
/-- Time past T_ISR; an irrational time up to it with no tick ahead; and two turns for one handler. -/
theorem witness_LongHandlerIsRefused :
    (∃ (p : Params) (s : State) (b d : Time), s.Undisturbed ∧ s.level = .timed ∧ s.isrAt = some b ∧
      s.sched = .handler d :: [] ∧ p.value b + p.tIsr < p.value s.now + max 0 (p.value d)) ∧
    (∃ (p : Params) (s : State) (b d : Time), s.Undisturbed ∧ s.level = .timed ∧ s.isrAt = some b ∧
      s.sched = .handler d :: [] ∧ p.value s.now + max 0 (p.value d) ≤ p.value b + p.tIsr ∧
      s.nextTick = none) ∧
    (∃ (s t : State) (b : Time), s.Undisturbed ∧ s.level = .timed ∧ s.isrAt = some b ∧
      Config.timing.value s.now ≤ Config.timing.value b + Config.timing.tIsr ∧
      s.sched = [Time.num 0, Time.num 0].map .handler ++ [] ∧
      Host.Core.run Sys2Proof.core 2 s = .next t) := by
  refine ⟨⟨jittery, { scheduled [.handler (.num 3)] with level := .timed, isrAt := some (.num 0) },
      .num 0, .num 3, ⟨rfl, rfl, rfl⟩, rfl, rfl, rfl, ?_⟩,
    ⟨jittery, { scheduled [.handler (.draw 1)] with level := .timed, isrAt := some (.num 0) },
      .num 0, .draw 1, ⟨rfl, rfl, rfl⟩, rfl, rfl, rfl, ?_, rfl⟩,
    ⟨{ scheduled [.handler (.num 0), .handler (.num 0)] with
        level := .timed, isrAt := some (.num 0), now := .num 0 },
      { scheduled [] with
        level := .timed, isrAt := some (.num 0)
        now := .add (.add (.num 0) (Config.timing.span (.num 0))) (Config.timing.span (.num 0)) },
      .num 0, ⟨rfl, rfl, rfl⟩, rfl, rfl, ?_, rfl, ?_⟩⟩
  · norm_num [jittery, scheduled, State.reset]
  · simp [jittery, scheduled, State.reset]
  · simp [timing_isr_nonneg]
  · have h1 := step_handlerNone [.handler (.num 0)] (n := .num 0) (by simp)
    have h2 := step_handlerNone [] (n := (Time.num 0).add (Config.timing.span (.num 0))) (by simp)
    simp only [Host.Core.run, Sys2Proof.core, h1, h2]
/-- The tick as early as its window allows. -/
theorem witness_TickFallsInItsWindow :
    ∃ s t : State, s.Undisturbed ∧ s.bootPos = none ∧ s.level = .timed ∧ s.tmrRun = true ∧
      s.sched = .expiry .line :: [] ∧ stepWith Config.timing s = .next t ∧
      s.nextTick = some .tJitter ∧ Config.timing.value s.now = 0 := by
  let s : State :=
    { receiving 0 with level := .timed, nextTick := some .tJitter, sched := [.expiry .line] }
  refine ⟨s, { s with sched := [], tmrPend := some .line }, ⟨rfl, rfl, rfl⟩, rfl, rfl, rfl, rfl,
    ?_, rfl, by simp [s, receiving, State.reset]⟩
  have hw : inWindow Config.timing .tJitter (.num 0) = true := by
    simp [inWindow_iff, timing_jitter_nonneg]
  rw [stepWith_turn rfl rfl rfl rfl]
  simp only [State.turnMove, Move.answer, State.expire, s, receiving, State.reset, hw]
  rfl
/-- A tick as early as it can be with RX high, and the four ways RX may go: it has just changed, a turn of the line or a
queued cell changes it at the end of the window, or it does not change. -/
theorem witness_JitterAdmitsBothLevels :
    ∀ x ∈ [(some (.num 0), [], []), (none, [Turn.elapse (.add .tJitter .tJitter), .rx false false], []),
        (none, [Turn.elapse (.add .tJitter .tJitter), .host], [HostItem.cell false]),
        (none, [Turn.device false], [])],
      let s := { receiving 0 with
        level := .timed, nextTick := some .tJitter, rxAt := x.1
        sched := .expiry (.drawn false) :: x.2.1, hostOut := x.2.2 }
      s.Undisturbed ∧ s.bootPos = none ∧ s.level = .timed ∧ s.tmrRun = true ∧ s.rx = true ∧
      s.nextTick = some .tJitter ∧
      SampledNear Config.timing (Config.timing.value .tJitter) (Config.timing.value s.now) ∧
      Config.timing.value s.now + max 0 (Config.timing.value (.add .tJitter .tJitter)) ≤
        Config.timing.value .tJitter + Config.timing.tJitter ∧
      s.sched = .expiry (.drawn false) :: x.2.1 := by
  intro x _
  have h := timing_jitter_nonneg
  refine ⟨⟨rfl, rfl, rfl⟩, rfl, rfl, rfl, rfl, rfl, ?_, ?_, rfl⟩
  · simp [SampledNear, receiving, State.reset, abs_of_nonneg h]
  · simp [receiving, State.reset, h]
/-- An instant soon after the completing tick, an irrational one, and the last of the window. -/
theorem witness_EdgeAfterByteMayBeMissed :
    ∀ n ∈ [Time.num (51 / 10), .add (.num 5) (.draw 1), .num 7],
      let s := { scheduled [.rx false true] with level := .timed, isrAt := some (.num 5), now := n }
      s.Undisturbed ∧ s.level = .timed ∧ s.edgeEn = true ∧ s.rx = true ∧
      s.isrAt = some (.num 5) ∧ jittery.value (.num 5) < jittery.value s.now ∧
      jittery.value s.now ≤ jittery.value (.num 5) + jittery.tIsr := by
  intro n hn
  have h2 : √2 ≤ (2 : ℝ) := Real.sqrt_le_iff.mpr (by norm_num)
  refine ⟨⟨rfl, rfl, rfl⟩, rfl, rfl, rfl, rfl, ?_, ?_⟩ <;> revert n <;>
    simp only [List.forall_mem_cons] <;> norm_num [jittery, h2]
  linarith
/-- The completing tick as late as it can be, and a host period just above the least. -/
theorem witness_BackToBackEdgeIsCaught :
    ∃ s : State, s.Undisturbed ∧ s.level = .timed ∧ s.edgeEn = true ∧ s.rx = true ∧
      s.isrAt = some (.num 179) ∧
      SampledNear jittery (tickTime jittery 0 7) (jittery.value (.num 179)) ∧
      BackToBackCondition jittery (91 / 5) ∧ jittery.value s.now = 0 + 10 * (91 / 5) ∧
      s.sched = .rx false true :: [] := by
  refine ⟨{ scheduled [.rx false true] with
      level := .timed, isrAt := some (.num 179), now := .num 182 },
    ⟨rfl, rfl, rfl⟩, rfl, rfl, rfl, rfl, ?_, ?_, ?_, rfl⟩
  · norm_num [SampledNear, tickTime, jittery]
  · norm_num [BackToBackCondition, jittery]
  · norm_num

/-- The last Wait of a frame ends at the earliest instant that it can. -/
theorem step_lastWait (n : Time) :
    step { sending (.stop .waitFree) true true with
        level := .timed, microAt := n, now := n.add .tHalf, sched := [.foreground] } =
      .next { sending (.stop .waitFree) true true with
        level := .timed, microAt := n.add .tHalf, now := n.add .tHalf
        mPhase := .read, curAction := none, txPos := none } := by
  have hw : Config.timing.lt (n.add .tHalf) (n.add .tHalf) = false := by simp
  rw [step, stepWith_turn rfl rfl rfl rfl]
  simp only [State.turnMove, State.foregroundMove, sending, State.reset, State.actMove,
    State.waitEnd, hw, Bool.and_false]
  rfl
theorem witness_WaitLastsHalfPeriod :
    ∃ (s t : State) (q : TxPos), s.level = .timed ∧ s.bootPos = none ∧ s.txPos = some q ∧
      microOp q.frame q.spot = some .wait ∧ stepWith Config.timing s = .next t ∧
      t.bootPos = none ∧ t.txPos ≠ s.txPos ∧ t.now = s.microAt.add .tHalf :=
  ⟨_, _, _, rfl, rfl, rfl, rfl, step_lastWait (.num 0), rfl, (fun h => nomatch h), rfl⟩
/-- The first micro-step of a frame, and the last, 58 T_HALF after the frame began. -/
theorem witness_FrameLastsItsWaits :
    (∃ (s t : State) (q : TxPos), s.Inv ∧ s.bootPos = none ∧ s.level = .timed ∧ s.txPos = some q ∧
      0 + waitsBefore q.frame.length q.spot * Config.timing.tHalf ≤ Config.timing.value s.microAt ∧
      Config.timing.value s.microAt ≤ Config.timing.value s.now ∧
      step s = .next t ∧ t.bootPos = none ∧ t.txPos.isSome = true) ∧
    (∃ (s t : State) (q : TxPos) (t0 : ℝ), s.Inv ∧ s.bootPos = none ∧ s.level = .timed ∧
      s.txPos = some q ∧
      t0 + waitsBefore q.frame.length q.spot * Config.timing.tHalf ≤ Config.timing.value s.microAt ∧
      Config.timing.value s.microAt ≤ Config.timing.value s.now ∧
      step s = .next t ∧ t.bootPos = none ∧ t.txPos = none) := by
  constructor
  · refine ⟨{ sending (.start .sdaHigh) true true with level := .timed, sched := [.foreground] }, _,
      { frame := [0xC0, 0x00, 0x01], spot := .start .sdaHigh }, ?_, rfl, rfl, rfl, ?_, le_refl _,
      rfl, rfl, rfl⟩
    · exact ⟨rfl, rfl, fun _ => rfl, by decide, rfl, (fun h => nomatch h), (fun h => nomatch h),
        (fun h => nomatch h), (fun h => nomatch h), rfl⟩
    · simp [waitsBefore, sending, State.reset]
  · refine ⟨_, _, _, -(58 * Config.timing.tHalf), ?_, rfl, rfl, rfl, ?_, ?_,
      step_lastWait (.num 0), rfl, rfl⟩
    · exact ⟨rfl, rfl, fun _ => rfl, by decide, rfl, (fun h => nomatch h), (fun h => nomatch h),
        (fun h => nomatch h), (fun h => nomatch h), rfl⟩
    · show -(58 * Config.timing.tHalf) + ((58 : Nat) : ℝ) * Config.timing.tHalf ≤ _
      simp
    · simp [timing_half_pos.le]

end Sys2Proof.Tests
end

section
/-! SUPPORT. The obligations about the scope and the parameters (spec/00_scope.md). -/

namespace Sys2Proof.Proofs

/-- Settles O53. `timing_of_ok` gives the opaque parameters every property that R8's constraints imply, whether an
implementation names its parameters or not; the property here is the constraints themselves. -/
theorem timingParametersAreAdmissible : Obligations.TimingParametersAreAdmissible := by
  unfold Obligations.TimingParametersAreAdmissible
  exact timing_of_ok (P := Params.Ok) fun _ hok => hok

end Sys2Proof.Proofs
end

section
/-! SUPPORT. Rules that the obligations about the state share: what a micro-step does to the lines and to TXPOS, what DECODE
does, and when the sequencers agree. -/

namespace Sys2Proof.Proofs

open Sys2Proof.Machine

/-- BITPOS counts on within the byte and past its last bit (R25, R103). -/
theorem toNat_bitPos_next {b : BitVec 4} (hb : b.toNat ≤ 7) : (b + 1).toNat = b.toNat + 1 := by
  change (b + 1#4).toNat = b.toNat + 1
  simp only [BitVec.toNat_add, BitVec.toNat_ofNat]
  omega

/-- A micro-step writes the two lines and nothing else. -/
theorem applyMicro_eq (s : State) (op : MicroOp) :
    s.applyMicro op =
      { s with
        sclOut := (linesAfter [op] (s.sclOut, s.sdaOut)).1
        sdaOut := (linesAfter [op] (s.sclOut, s.sdaOut)).2 } := by
  cases op with
  | pin q l => cases q <;> rfl
  | wait => rfl

/-- The state after a micro-step inside a frame: TXPOS is at the next place. -/
theorem runMicro_inside {q : TxPos} {s : State} {op : MicroOp} {spot : TxSpot}
    (hop : microOp q.frame q.spot = some op) (hn : nextSpot q.frame.length q.spot = some spot) :
    s.runMicro q = .next
      { s with
        sclOut := (linesAfter [op] (s.sclOut, s.sdaOut)).1
        sdaOut := (linesAfter [op] (s.sclOut, s.sdaOut)).2
        txPos := some { q with spot := spot }
        microAt := s.now } := by
  rw [runMicro_answers hop, applyMicro_eq]
  simp only [State.advanceTx, hn]

/-- The state after the last micro-step of STOP: the frame and its action are over (R183). -/
theorem runMicro_last {q : TxPos} {s : State} {op : MicroOp}
    (hop : microOp q.frame q.spot = some op) (hn : nextSpot q.frame.length q.spot = none) :
    s.runMicro q = .next
      { s with
        sclOut := (linesAfter [op] (s.sclOut, s.sdaOut)).1
        sdaOut := (linesAfter [op] (s.sclOut, s.sdaOut)).2
        txPos := none
        curAction := none
        mPhase := .read
        microAt := s.now } := by
  rw [runMicro_answers hop, applyMicro_eq]
  simp only [State.advanceTx, hn]

/-- The action that a second byte with sync bit 0 completes, after first byte `b1` (R76, R153, R155). -/
def commandAction (b1 b : Byte) : Action :=
  if shutdownBit b then .shutdown else .setVoltage (magnitude b1 b)

/-- The state after DECODE of byte `b`: the four outcomes of R150 and R182. -/
def decoded (b : Byte) (s : State) : State :=
  match syncBit b, s.iState with
  | true, _ => { s with pending := b, iState := .awaitSecond }.noAction
  | false, .awaitFirst => s.noAction
  | false, .awaitSecond => { s with iState := .awaitFirst }.emit (commandAction s.pending b)

/-- DECODE always completes, whatever the byte (R78). -/
theorem exec_decodeCommand (b : Byte) (s : State) :
    exec (decodeCommand s.iState b) s = .next (decoded b s) := by
  cases hs : syncBit b <;> cases hi : s.iState
  case false.awaitFirst => simp [decodeCommand, exec, execDiscard, decoded, hs, hi]
  case true.awaitFirst => simp [decodeCommand, exec, execFirst, decoded, hs, hi]
  case true.awaitSecond => simp [decodeCommand, exec, execRefirst, decoded, hs, hi]
  case false.awaitSecond =>
    cases hd : shutdownBit b
    · simp [decodeCommand, exec, execSetv, decoded, commandAction, hs, hi, hd]
    · simp [decodeCommand, exec, execShutdown, decoded, commandAction, hs, hi, hd]

/-- Outside ACT the sequencers agree exactly when no action and no frame is in hand and the bus is idle (R139, R183). -/
theorem sequencersAgree_outside {s : State} (hm : s.mPhase ≠ .act) :
    s.sequencersAgree = true ↔
      s.curAction = none ∧ s.txPos = none ∧ s.sclOut = true ∧ s.sdaOut = true := by
  unfold State.sequencersAgree
  cases hm' : s.mPhase <;> cases s.curAction <;> cases s.txPos <;> simp_all

/-- In ACT before the frame begins the sequencers agree exactly when there is an action and the bus is idle. -/
theorem sequencersAgree_begin {s : State} {a : Action} (hm : s.mPhase = .act)
    (ha : s.curAction = some a) (hq : s.txPos = none) :
    s.sequencersAgree = true ↔ s.sclOut = true ∧ s.sdaOut = true := by
  simp [State.sequencersAgree, hm, ha, hq]

/-- Inside a frame the sequencers agree exactly when the frame is that of CUR_ACTION, the place lies in it, and the lines are as
they are before that place's micro-step. -/
theorem sequencersAgree_inside {s : State} {q : TxPos} (hm : s.mPhase = .act) (hq : s.txPos = some q) :
    s.sequencersAgree = true ↔
      ∃ a, s.curAction = some a ∧ q.frame = actionFrame a ∧
        spotInFrame q.frame.length q.spot = true ∧
        spotLines q.frame q.spot s.sclOut s.sdaOut = true := by
  unfold State.sequencersAgree
  cases ha : s.curAction <;> simp [hm, hq, and_assoc]

/-- A slot's micro-step leaves the lines as they are before the next one; the last leaves SCL low (R133, R134). -/
theorem slotLines_after {b : Level} {m : SlotMicro} {scl sda : Level} (h : slotLines b m scl sda = true) :
    match nextSlot m with
    | some m' =>
      slotLines b m' (linesAfter [slotOp b m] (scl, sda)).1 (linesAfter [slotOp b m] (scl, sda)).2 = true
    | none => (linesAfter [slotOp b m] (scl, sda)).1 = false := by
  cases m <;> simp_all [nextSlot, slotLines, slotOp, linesAfter]

/-- A micro-step leaves the lines as they are to be before the next place's micro-step (R132 to R137). -/
theorem spotLines_after {frame : List Byte} {spot spot' : TxSpot} {op : MicroOp} {scl sda : Level}
    (hop : microOp frame spot = some op) (hl : spotLines frame spot scl sda = true)
    (hn : nextSpot frame.length spot = some spot') :
    spotLines frame spot' (linesAfter [op] (scl, sda)).1 (linesAfter [op] (scl, sda)).2 = true := by
  cases spot with
  | start m =>
    cases m <;> cases hop <;> cases hn <;> simp_all [spotLines, startOp, linesAfter, slotLines]
  | bit k i m =>
    obtain ⟨v, hv, rfl⟩ : ∃ v, frame[k]? = some v ∧ slotOp (v.getLsbD i.val) m = op := by
      simpa [microOp] using hop
    have hs := slotLines_after (by simpa [spotLines, hv] using hl : slotLines (v.getLsbD i.val) m scl sda = true)
    cases hm : nextSlot m with
    | some m' =>
      simp only [nextSpot, hm, Option.some.injEq] at hn hs
      subst hn
      simpa [spotLines, hv] using hs
    | none =>
      simp only [nextSpot, hm] at hn hs
      split at hn <;> cases hn <;> simp only [spotLines, slotLines, hs, Bool.not_false]
  | ack k m =>
    obtain ⟨-, rfl⟩ : k < frame.length ∧ slotOp true m = op := by simpa [microOp] using hop
    have hs := slotLines_after (b := true) hl
    cases hm : nextSlot m with
    | some m' =>
      simp only [nextSpot, hm, Option.some.injEq] at hn hs
      subst hn
      exact hs
    | none =>
      simp only [nextSpot, hm] at hn hs
      split at hn <;> cases hn <;> simp only [spotLines, slotLines, hs, Bool.not_false]
  | stop m =>
    cases m <;> cases hop <;> cases hn <;> simp_all [spotLines, stopOp, linesAfter]

/-- The place after one in a non-empty frame lies in it. -/
theorem spotInFrame_next {n : Nat} {spot spot' : TxSpot} (h0 : 0 < n) (h : spotInFrame n spot = true)
    (hn : nextSpot n spot = some spot') : spotInFrame n spot' = true := by
  cases spot with
  | start m => cases m <;> cases hn <;> simp [spotInFrame, h0]
  | bit k i m =>
    cases m
    case sclFall =>
      simp only [nextSpot, nextSlot] at hn
      split at hn <;> cases hn <;> exact h
    all_goals cases hn; exact h
  | ack k m =>
    cases m
    case sclFall =>
      simp only [nextSpot, nextSlot] at hn
      split at hn <;> cases hn <;> simp_all [spotInFrame]
    all_goals cases hn; exact h
  | stop m => cases m <;> cases hn <;> rfl

/-- Only the last micro-step of STOP has none after it. -/
theorem eq_waitFree_of_nextSpot {n : Nat} {spot : TxSpot} (hn : nextSpot n spot = none) :
    spot = .stop .waitFree := by
  cases spot with
  | start m => cases m <;> cases hn
  | bit k i m =>
    cases m
    case sclFall => simp only [nextSpot, nextSlot] at hn; split at hn <;> cases hn
    all_goals cases hn
  | ack k m =>
    cases m
    case sclFall => simp only [nextSpot, nextSlot] at hn; split at hn <;> cases hn
    all_goals cases hn
  | stop m =>
    cases m
    case waitFree => rfl
    all_goals cases hn

end Sys2Proof.Proofs
end

section
/-! SUPPORT. The invariant of the machine (spec/10_state.md R42): the reset state meets it and every step keeps it. -/

namespace Sys2Proof.Proofs

open Sys2Proof.Machine

section Unfold
variable {s : State} {k : BootStep}

/-- Once boot has finished the invariant is that of running. -/
theorem inv_of_runInv (hb : s.bootPos = none) (h : s.RunInv) : s.Inv := by
  simpa [State.Inv, hb] using h

theorem runInv_of_inv (hb : s.bootPos = none) (h : s.Inv) : s.RunInv := by
  simpa [State.Inv, hb] using h

/-- Before a boot step the invariant is that of booting. -/
theorem inv_of_bootInv (hb : s.bootPos = some k) (h : s.BootInv k) : s.Inv := by
  simpa [State.Inv, hb] using h

theorem bootInv_of_inv (hb : s.bootPos = some k) (h : s.Inv) : s.BootInv k := by
  simpa [State.Inv, hb] using h

end Unfold

/-- Interrupts are unmasked only once boot has finished. -/
theorem runInv_of_unmasked {s : State} (h : s.Inv) (hm : s.intMask = false) :
    s.bootPos = none ∧ s.RunInv := by
  cases hb : s.bootPos with
  | none => exact ⟨rfl, runInv_of_inv hb h⟩
  | some k =>
    have hmask := (bootInv_of_inv hb h).masked
    simp [hm] at hmask

/-- The invariant says nothing of time, of the choices to come, of the host's queue, and of SDA_DEV. -/
theorem inv_environment {s : State} (h : s.Inv) (r : List Turn) (n : Time) (q : List HostItem)
    (l : Level) : ({ s with sched := r, now := n, hostOut := q, sdaDev := l } : State).Inv := by
  cases hb : s.bootPos with
  | none => exact inv_of_runInv rfl { runInv_of_inv hb h with }
  | some k => exact inv_of_bootInv rfl { bootInv_of_inv hb h with }

section Environment
variable {s : State}

/-- A change of RX keeps the invariant: an edge is pending only if EDGE_EN = 1, which it is not in boot. -/
theorem inv_driveRx (h : s.Inv) (p : Params) (l : Level) (missed : Bool) :
    (s.driveRx p l missed).Inv := by
  cases hb : s.bootPos with
  | none =>
    have hr := runInv_of_inv hb h
    rcases driveRx_cases p l missed s with e | ⟨_, _, hen, e⟩ <;> rw [e]
    · exact inv_of_runInv hb { hr with }
    · exact inv_of_runInv hb { hr with edgeWhileEnabled := fun _ => hen }
  | some k =>
    have hk := bootInv_of_inv hb h
    rw [driveRx_edge_off p l missed s hk.edgeOff]
    exact inv_of_bootInv hb { hk with }

/-- An expiry keeps the invariant: TIMER pends only while the timer is armed. -/
theorem inv_raiseTimer (h : s.Inv) (d : SampleDraw) : (s.raiseTimer d).Inv := by
  rcases raiseTimer_cases d s with ⟨hb, ht, e⟩ | ⟨_, e⟩ <;> rw [e]
  · exact inv_of_runInv hb { runInv_of_inv hb h with timerWhileArmed := fun _ => ht }
  · exact h

/-- A cell of the host keeps the invariant. -/
theorem inv_driveCell (h : s.Inv) (p : Params) (l : Level) : (s.driveCell p l).Inv := by
  have hd := inv_driveRx h p l false
  unfold State.driveCell
  cases s.level with
  | event => exact inv_raiseTimer hd .line
  | timed => exact hd

/-- The return of power meets the invariant of boot's beginning. -/
theorem inv_powerCycle (s : State) : s.powerCycle.Inv :=
  inv_of_bootInv rfl
    ⟨rfl, rfl, rfl, rfl, rfl, by simp [bootDone], by simp [bootDone], by simp [bootDone],
      by simp [bootDone]⟩

end Environment

section Foreground
variable {s : State}

/-- Each boot step keeps what the earlier ones have set, and the last one reaches the invariant of running (R231). -/
theorem inv_bootStep {k : BootStep} (h : s.BootInv k) : (s.bootStep k).Inv := by
  cases k with
  | busIdle =>
    exact inv_of_bootInv rfl { h with
      bus := fun _ => ⟨rfl, rfl⟩, timer := by simp [bootDone], flags := by simp [bootDone]
      positions := by simp [bootDone] }
  | timerStopped =>
    exact inv_of_bootInv rfl { h with
      bus := fun _ => h.bus (by simp [bootDone]), timer := fun _ => rfl, flags := by simp [bootDone]
      positions := by simp [bootDone] }
  | flagsCleared =>
    exact inv_of_bootInv rfl { h with
      bus := fun _ => h.bus (by simp [bootDone]), timer := fun _ => h.timer (by simp [bootDone])
      flags := fun _ => ⟨rfl, rfl⟩, positions := by simp [bootDone] }
  | sequencersSet =>
    exact inv_of_bootInv rfl { h with
      bus := fun _ => h.bus (by simp [bootDone]), timer := fun _ => h.timer (by simp [bootDone])
      flags := fun _ => h.flags (by simp [bootDone]), positions := fun _ => ⟨rfl, rfl, rfl, rfl⟩ }
  | edgeEnabled =>
    obtain ⟨hscl, hsda⟩ := h.bus (by simp [bootDone])
    have hrun := h.timer (by simp [bootDone])
    obtain ⟨hbit, -⟩ := h.flags (by simp [bootDone])
    obtain ⟨hist, hread, htx, hact⟩ := h.positions (by simp [bootDone])
    refine inv_of_runInv rfl
      { unmasked := rfl
        oneEnabled := by simp [State.bootStep, hrun]
        idleAtBitZero := fun _ => hbit
        bitInByte := by simp [State.bootStep, hbit]
        tickWhileArmed := by simp [State.bootStep, hrun, h.noTick]
        phaseOfTick := by simp [State.bootStep, hrun]
        edgeWhileEnabled := fun _ => rfl
        timerWhileArmed := by simp [State.bootStep, h.noTimer]
        pendingIsFirst := by simp [State.bootStep, hist]
        sequencers := ?_ }
    have hout : (s.bootStep .edgeEnabled).mPhase ≠ .act := by simp [State.bootStep, hread]
    exact Iff.mpr (sequencersAgree_outside hout) ⟨hact, htx, hscl, hsda⟩

/-- READ keeps the invariant: the bus stays idle in DECODE. -/
theorem inv_readStep (hb : s.bootPos = none) (h : s.RunInv) (hm : s.mPhase = .read) :
    s.readStep.Inv := by
  have hidle := (sequencersAgree_outside (by simp [hm])).mp h.sequencers
  unfold State.readStep
  split
  · exact inv_of_runInv hb
      { h with sequencers := Iff.mpr (sequencersAgree_outside (by simp)) hidle }
  · exact inv_of_runInv hb h

/-- DECODE keeps the invariant: PENDING takes a byte with sync bit 1, and an action finds the bus idle. -/
theorem inv_decoded {b : Byte} (hb : s.bootPos = none) (h : s.RunInv) (hm : s.mPhase = .decode b) :
    (decoded b s).Inv := by
  have hidle := (sequencersAgree_outside (by simp [hm])).mp h.sequencers
  obtain ⟨-, htx, hscl, hsda⟩ := id hidle
  unfold decoded
  split
  case h_1 hsync =>
    exact inv_of_runInv hb { h with
      pendingIsFirst := fun _ => hsync
      sequencers := Iff.mpr (sequencersAgree_outside (by simp)) hidle }
  case h_2 =>
    exact inv_of_runInv hb
      { h with sequencers := Iff.mpr (sequencersAgree_outside (by simp)) hidle }
  case h_3 =>
    exact inv_of_runInv hb { h with
      pendingIsFirst := by simp
      sequencers := Iff.mpr (sequencersAgree_begin rfl rfl htx) ⟨hscl, hsda⟩ }

/-- A frame begins at START's first place, with the lines still idle after its first micro-step (R132, R137). -/
theorem inv_sendFrame {a : Action} {t : State} (hb : s.bootPos = none) (h : s.RunInv)
    (hm : s.mPhase = .act) (hq : s.txPos = none) (ha : s.curAction = some a)
    (e : s.sendFrame (actionBytes a) = .next t) : t.Inv := by
  obtain ⟨hscl, -⟩ := (sequencersAgree_begin hm ha hq).mp h.sequencers
  have hlines : spotLines (actionFrame a) (.start .sclHigh) s.sclOut true = true := by
    simp [spotLines, hscl]
  cases (sendFrame_eq _ s).symm.trans e
  exact inv_of_runInv hb
    { h with sequencers := Iff.mpr (sequencersAgree_inside hm rfl) ⟨a, ha, rfl, rfl, hlines⟩ }

/-- A micro-step keeps the invariant: the lines are as the next place asks, and idle after STOP (R132 to R137, R183). -/
theorem inv_runMicro {q : TxPos} {t : State} (hb : s.bootPos = none) (h : s.RunInv)
    (hm : s.mPhase = .act) (hq : s.txPos = some q) (e : s.runMicro q = .next t) : t.Inv := by
  obtain ⟨a, ha, hframe, hin, hlines⟩ := (sequencersAgree_inside hm hq).mp h.sequencers
  have hlen : 0 < q.frame.length := by simp [hframe, actionFrame]
  obtain ⟨op, hop, -⟩ := runMicro_next e
  cases hn : nextSpot q.frame.length q.spot with
  | some spot =>
    cases (runMicro_inside hop hn).symm.trans e
    exact inv_of_runInv hb { h with
      sequencers := Iff.mpr (sequencersAgree_inside hm rfl)
        ⟨a, ha, hframe, spotInFrame_next hlen hin hn, spotLines_after hop hlines hn⟩ }
  | none =>
    cases (runMicro_last hop hn).symm.trans e
    rw [eq_waitFree_of_nextSpot hn] at hop hlines
    cases hop
    obtain ⟨hscl, hsda⟩ : s.sclOut = true ∧ s.sdaOut = true := by simpa [spotLines] using hlines
    exact inv_of_runInv hb
      { h with sequencers := Iff.mpr (sequencersAgree_outside (by simp)) ⟨rfl, rfl, hscl, hsda⟩ }

end Foreground

section Interrupts
variable {s t : State}

/-- EdgeFall keeps the invariant: it disables edge detection and arms the timer, at BITPOS = 0 (R102). -/
theorem inv_takeEdge {te : Time} (hb : s.bootPos = none) (h : s.RunInv) (hp : s.edgePend = some te)
    (e : s.takeEdge te = .next t) : t.Inv := by
  have hzero := h.idleAtBitZero (h.edgeWhileEnabled (by simp [hp]))
  cases (takeEdge_eq te s).symm.trans e
  exact inv_of_runInv hb { h with
    unmasked := rfl
    oneEnabled := rfl
    idleAtBitZero := by simp
    tickWhileArmed := rfl
    phaseOfTick := by simp [hzero]
    edgeWhileEnabled := by simp
    timerWhileArmed := by simp }

/-- TimerTick keeps the invariant: it moves BITPOS on within the byte, or completes the byte and disarms the timer
(R103, R104). -/
theorem inv_takeTimer {d : SampleDraw} (hb : s.bootPos = none) (h : s.RunInv)
    (hp : s.tmrPend = some d) (e : s.takeTimer d = .next t) : t.Inv := by
  have hrun := h.timerWhileArmed (by simp [hp])
  have hen : s.edgeEn = false := by simp [h.oneEnabled, hrun]
  rcases takeTimer_next e with ⟨hlt, rfl⟩ | ⟨-, rfl⟩
  · have hnext := toNat_bitPos_next hlt.le
    have hne : s.bitPos + 1 ≠ 0 := fun h0 => by rw [h0] at hnext; exact absurd hnext (by simp)
    exact inv_of_runInv hb { h with
      unmasked := rfl
      idleAtBitZero := by simp [hen]
      bitInByte := (Nat.le_of_eq hnext).trans hlt
      tickWhileArmed := by simpa using h.tickWhileArmed
      phaseOfTick := fun _ => by simpa using hne
      edgeWhileEnabled := by simp
      timerWhileArmed := by simp }
  · exact inv_of_runInv hb { h with
      unmasked := rfl
      oneEnabled := rfl
      idleAtBitZero := fun _ => rfl
      bitInByte := by simp
      tickWhileArmed := rfl
      phaseOfTick := by simp
      edgeWhileEnabled := fun _ => rfl
      timerWhileArmed := by simp }

end Interrupts

/-- What an agent does keeps the invariant. -/
theorem inv_of_acts {p : Params} {s t : State} (h : s.Inv) (ha : Acts p s t) : t.Inv := by
  cases ha with
  | rest => exact h
  | boot k hk => exact inv_bootStep (bootInv_of_inv hk h)
  | read hb hm => exact inv_readStep hb (runInv_of_inv hb h) hm
  | command b _ hb hm e =>
    cases (exec_decodeCommand b s).symm.trans e
    exact inv_decoded hb (runInv_of_inv hb h) hm
  | frame a _ hb hm hq hact e => exact inv_sendFrame hb (runInv_of_inv hb h) hm hq hact e
  | micro q _ hb hm hq _ e => exact inv_runMicro hb (runInv_of_inv hb h) hm hq e
  | queue q => exact inv_environment h _ _ q _
  | cell l q => exact inv_driveCell (inv_environment h _ _ q _) p l
  | rx l missed => exact inv_driveRx h p l missed
  | device l => exact inv_environment h _ _ _ l
  | timer d => exact inv_raiseTimer h d
  | power => exact inv_powerCycle s

/-- Settles O48: the reset state is booted, with the timer stopped and the bus idle. -/
theorem resetMeetsInvariant : Obligations.ResetMeetsInvariant := by
  unfold Obligations.ResetMeetsInvariant
  exact inv_of_runInv rfl
    { unmasked := rfl
      oneEnabled := rfl
      idleAtBitZero := fun _ => rfl
      bitInByte := by decide
      tickWhileArmed := rfl
      phaseOfTick := by decide
      edgeWhileEnabled := fun _ => rfl
      timerWhileArmed := by decide
      pendingIsFirst := by decide
      sequencers := rfl }

/-- Settles O49: a handler runs only once boot has finished, and each agent keeps its own part of the invariant. -/
theorem stepKeepsInvariant : Obligations.StepKeepsInvariant := by
  unfold Obligations.StepKeepsInvariant
  intro s t h hstep
  rcases stepWith_next hstep with ⟨te, hm, hp, e⟩ | ⟨d, hm, -, hp, e⟩ | ⟨-, r, n, -, ha⟩
  · obtain ⟨hb, hr⟩ := runInv_of_unmasked h hm
    exact inv_takeEdge hb hr hp e
  · obtain ⟨hb, hr⟩ := runInv_of_unmasked h hm
    exact inv_takeTimer hb hr hp e
  · exact inv_of_acts (inv_environment h r n _ _) ha

end Sys2Proof.Proofs
end

section
/-! SUPPORT. What no rule reads: the contents that R43 leaves unspecified, and the device's level on SDA (spec/10_state.md R43,
R37). Two runs are compared step by step; the second state is the first with other contents in those fields. -/

namespace Sys2Proof.Proofs

open Sys2Proof.Machine

/-- Contents for the fields of which some or all are not read. -/
structure Unseen where
  acc : Byte
  rxBuf : Byte
  pending : Byte
  tmrPhase : Bool
  sdaDev : Level

/-- The state with other contents in those fields. -/
def veil (s : State) (h : Unseen) : State :=
  { s with acc := h.acc, rxBuf := h.rxBuf, pending := h.pending, tmrPhase := h.tmrPhase, sdaDev := h.sdaDev }

/-- The contents are those of the state but for what is not read: with `dev` the level of SDA_DEV and nothing else, without it
what `State.SameSeen` leaves free. -/
structure MayHold (dev : Bool) (s : State) (h : Unseen) : Prop where
  sampled : ∀ i : Nat, i < s.bitPos.toNat → h.acc.getLsbD i = s.acc.getLsbD i
  ready : s.rxRdy = true → h.rxBuf = s.rxBuf
  second : s.iState = .awaitSecond → h.pending = s.pending
  armed : s.tmrRun = true → h.tmrPhase = s.tmrPhase
  device : dev = false → h.sdaDev = s.sdaDev
  contents : dev = true →
    h.acc = s.acc ∧ h.rxBuf = s.rxBuf ∧ h.pending = s.pending ∧ h.tmrPhase = s.tmrPhase

/-- Two states that differ at most in what is not read. -/
def Veiled (dev : Bool) (s t : State) : Prop :=
  ∃ h, t = veil s h ∧ MayHold dev s h

/-- Without the device the relation is that of R43's unspecified contents. -/
theorem veiled_false_iff {s t : State} : Veiled false s t ↔ s.SameSeen t := by
  constructor
  · rintro ⟨h, rfl, hc⟩
    refine ⟨?_, hc.sampled, hc.ready, hc.second, hc.armed⟩
    simp only [veil, hc.device]
  · rintro ⟨e, hsampled, hready, hsecond, harmed⟩
    refine ⟨⟨t.acc, t.rxBuf, t.pending, t.tmrPhase, s.sdaDev⟩, e, ?_⟩
    exact ⟨hsampled, hready, hsecond, harmed, fun _ => rfl, nofun⟩

/-- With the device the relation is that of the device's level. -/
theorem veiled_true_iff {s t : State} : Veiled true s t ↔ t = { s with sdaDev := t.sdaDev } := by
  constructor
  · rintro ⟨h, rfl, hc⟩
    obtain ⟨hacc, hbuf, hpend, hphase⟩ := hc.contents rfl
    simp only [veil, hacc, hbuf, hpend, hphase]
  · intro e
    refine ⟨⟨s.acc, s.rxBuf, s.pending, s.tmrPhase, t.sdaDev⟩, e, ?_⟩
    exact ⟨fun _ _ => rfl, fun _ => rfl, fun _ => rfl, fun _ => rfl, nofun, fun _ => ⟨rfl, rfl, rfl, rfl⟩⟩

/-- Two answers that differ at most in what is not read, stops being equal. -/
abbrev AnswersVeiled (dev : Bool) : Result → Result → Prop :=
  ResultsRelated (Veiled dev)

/-- Two moves whose answers differ at most so. -/
abbrev MovesVeiled (dev : Bool) (m n : Move) : Prop :=
  AnswersVeiled dev m.answer n.answer

/-- Two choices on one condition are related if their branches are. -/
theorem related_ite {α : Type} {r : α → α → Prop} {c : Prop} [Decidable c] {a b a' b' : α}
    (ht : c → r a b) (hf : ¬c → r a' b') : r (if c then a else a') (if c then b else b') := by
  split
  · exact ht ‹_›
  · exact hf ‹_›

/-! ### The fields and readings that the moves turn on -/

section Seen
variable (s : State) (h : Unseen)

@[simp] theorem veil_iState : (veil s h).iState = s.iState := rfl
@[simp] theorem veil_mPhase : (veil s h).mPhase = s.mPhase := rfl
@[simp] theorem veil_txPos : (veil s h).txPos = s.txPos := rfl
@[simp] theorem veil_curAction : (veil s h).curAction = s.curAction := rfl
@[simp] theorem veil_nextTick : (veil s h).nextTick = s.nextTick := rfl
@[simp] theorem veil_edgePend : (veil s h).edgePend = s.edgePend := rfl
@[simp] theorem veil_tmrPend : (veil s h).tmrPend = s.tmrPend := rfl
@[simp] theorem veil_bootPos : (veil s h).bootPos = s.bootPos := rfl
@[simp] theorem veil_level : (veil s h).level = s.level := rfl
@[simp] theorem veil_isrAt : (veil s h).isrAt = s.isrAt := rfl
@[simp] theorem veil_hostOut : (veil s h).hostOut = s.hostOut := rfl
@[simp] theorem veil_sched : (veil s h).sched = s.sched := rfl
@[simp] theorem veil_waitEnd (p : Params) : (veil s h).waitEnd p = s.waitEnd p := rfl
@[simp] theorem veil_tickDue : (veil s h).tickDue = s.tickDue := rfl

end Seen

section Environment
variable {dev : Bool} {s : State} {h : Unseen}

/-- RX's changes read nothing that is veiled. -/
theorem driveRx_veiled (hc : MayHold dev s h) (p : Params) (l : Level) (missed : Bool) :
    Veiled dev (s.driveRx p l missed) ((veil s h).driveRx p l missed) :=
  ⟨h, rfl, { hc with }⟩

/-- Neither does an expiry of the timer. -/
theorem raiseTimer_veiled (hc : MayHold dev s h) (d : SampleDraw) :
    Veiled dev (s.raiseTimer d) ((veil s h).raiseTimer d) :=
  related_ite (r := Veiled dev) (fun _ => ⟨h, rfl, { hc with }⟩) fun _ => ⟨h, rfl, hc⟩

/-- Neither does a cell of the host. -/
theorem driveCell_veiled (hc : MayHold dev s h) (p : Params) (l : Level) :
    Veiled dev (s.driveCell p l) ((veil s h).driveCell p l) := by
  unfold State.driveCell
  simp only [veil_level]
  obtain ⟨h', e, hc'⟩ := driveRx_veiled hc p l false
  rw [e]
  cases s.level with
  | event => exact raiseTimer_veiled hc' .line
  | timed => exact ⟨h', rfl, hc'⟩

/-- The return of power writes the unspecified contents anew and keeps SDA_DEV. -/
theorem powerCycle_veiled (hc : MayHold dev s h) :
    Veiled dev s.powerCycle (veil s h).powerCycle := by
  let g := Config.powerUp s.powerUps
  refine ⟨⟨g.acc, g.rxBuf, g.pending, g.tmrPhase, h.sdaDev⟩, rfl, ?_⟩
  exact ⟨fun _ _ => rfl, fun _ => rfl, fun _ => rfl, fun _ => rfl, hc.device, fun _ => ⟨rfl, rfl, rfl, rfl⟩⟩

/-- The passing of time reads nothing that is veiled. -/
theorem elapse_veiled (hc : MayHold dev s h) (p : Params) (d : Time) :
    AnswersVeiled dev (s.elapse p d) ((veil s h).elapse p d) := by
  have hpass : Veiled dev { s with now := s.now.add (p.span d) }
      { veil s h with now := s.now.add (p.span d) } := ⟨h, rfl, { hc with }⟩
  unfold State.elapse
  rw [veil_level, veil_nextTick]
  split
  · exact related_ite (r := AnswersVeiled dev) (fun _ => hpass) fun _ => rfl
  · exact hpass

theorem handlerTook_veiled (hc : MayHold dev s h) (p : Params) (d : Time) :
    AnswersVeiled dev (s.handlerTook p d) ((veil s h).handlerTook p d) := by
  have hpass := elapse_veiled hc p d
  unfold State.handlerTook
  simp only [veil_level, veil_isrAt]
  cases s.level with
  | event => exact hpass
  | timed =>
    cases s.isrAt with
    | none => exact hpass
    | some b => exact related_ite (r := AnswersVeiled dev) (fun _ => hpass) fun _ => rfl

theorem expire_veiled (hc : MayHold dev s h) (p : Params) (d : SampleDraw) :
    AnswersVeiled dev (s.expire p d) ((veil s h).expire p d) := by
  have hraise := raiseTimer_veiled hc d
  unfold State.expire
  simp only [veil_level, veil_nextTick]
  cases s.level with
  | event => exact hraise
  | timed =>
    refine related_ite (r := AnswersVeiled dev) (fun _ => ?_) fun _ => ⟨h, rfl, hc⟩
    cases s.nextTick with
    | none => rfl
    | some tau =>
      refine related_ite (r := AnswersVeiled dev) (fun _ => ?_) fun _ => rfl
      exact related_ite (r := AnswersVeiled dev) (fun _ => hraise) fun _ => rfl

end Environment

section Interrupts
variable {dev : Bool} {s : State} {h : Unseen}

/-- EdgeFall writes TMR_PHASE. -/
theorem takeEdge_veiled (hc : MayHold dev s h) (te : Time) :
    AnswersVeiled dev (s.takeEdge te) ((veil s h).takeEdge te) := by
  refine ⟨{ h with tmrPhase := false }, rfl, { hc with armed := fun _ => rfl, contents := fun hd => ?_ }⟩
  obtain ⟨hacc, hbuf, hpend, -⟩ := hc.contents hd
  exact ⟨hacc, hbuf, hpend, rfl⟩

/-- The bits of ACC below BITPOS stay equal when a sample is written at BITPOS to both. -/
theorem setBit_agree {a b : Byte} {n : Nat} (l : Level) (hab : ∀ i < n, a.getLsbD i = b.getLsbD i)
    {i : Nat} (hi : i < n + 1) : (setBit a n l).getLsbD i = (setBit b n l).getLsbD i := by
  by_cases h8 : i < 8
  · rw [getLsbD_setBit _ _ _ _ h8, getLsbD_setBit _ _ _ _ h8]
    split
    · rfl
    · exact hab i (by omega)
  · rw [BitVec.getLsbD_of_ge _ _ (by omega), BitVec.getLsbD_of_ge _ _ (by omega)]

/-- TimerTick's sampling part writes one bit of ACC and TMR_PHASE. -/
theorem tickSample_mayHold (hc : MayHold dev s h) (hb : s.bitPos.toNat ≤ 7) (l : Level) :
    MayHold dev (s.tickSample l)
      { h with acc := setBit h.acc s.bitPos.toNat l, tmrPhase := true } := by
  have hnext : (s.tickSample l).bitPos.toNat = s.bitPos.toNat + 1 := toNat_bitPos_next hb
  refine { hc with
    sampled := fun i hi => setBit_agree l hc.sampled (hnext ▸ hi)
    armed := fun _ => rfl
    contents := fun hd => ?_ }
  obtain ⟨hacc, hbuf, hpend, -⟩ := hc.contents hd
  exact ⟨by simp [hacc], hbuf, hpend, rfl⟩

/-- Once all eight bits of ACC are sampled, the completing part delivers the same byte. -/
theorem tickComplete_veiled (hc : MayHold dev s h) (hb : s.bitPos = 8) :
    Veiled dev s.tickComplete (veil s h).tickComplete := by
  have hacc : h.acc = s.acc :=
    BitVec.eq_of_getLsbD_eq fun i hi => hc.sampled i (by simpa [hb] using hi)
  refine ⟨{ h with rxBuf := h.acc }, rfl, { hc with
    sampled := nofun, ready := fun _ => hacc, armed := nofun, contents := fun hd => ?_ }⟩
  obtain ⟨-, -, hpend, hphase⟩ := hc.contents hd
  exact ⟨hacc, hacc, hpend, hphase⟩

theorem timerTick_veiled (hc : MayHold dev s h) (l : Level) :
    AnswersVeiled dev (s.timerTick l) ((veil s h).timerTick l) := by
  unfold State.timerTick
  refine related_ite (r := AnswersVeiled dev) (fun _ => rfl) fun hb => ?_
  have hc' := tickSample_mayHold hc (Nat.le_of_not_lt hb) l
  exact related_ite (r := AnswersVeiled dev) (fun h8 => tickComplete_veiled hc' h8)
    fun _ => ⟨_, rfl, hc'⟩

/-- A handler is blind to what is veiled if its body is. -/
theorem inHandler_veiled {body body' : State → Result}
    (hb : AnswersVeiled dev (body s.enterHandler) (body' (veil s h).enterHandler)) :
    AnswersVeiled dev (s.inHandler body) ((veil s h).inHandler body') := by
  unfold State.inHandler
  cases ht : body s.enterHandler <;> cases hu : body' (veil s h).enterHandler <;>
    rw [ht, hu] at hb
  case next.next t u =>
    obtain ⟨h', rfl, hc'⟩ := hb
    exact ⟨h', rfl, { hc' with }⟩
  all_goals exact hb

theorem takeTimer_veiled (hc : MayHold dev s h) (d : SampleDraw) :
    AnswersVeiled dev (s.takeTimer d) ((veil s h).takeTimer d) :=
  inHandler_veiled (timerTick_veiled (s := s.enterHandler) { hc with } (s.drawnLevel d))

end Interrupts

section Foreground
variable {dev : Bool} {s : State} {h : Unseen}

/-- A boot step reads nothing, and clears the flags under which the unspecified contents would be read. -/
theorem bootStep_veiled (hc : MayHold dev s h) (k : BootStep) :
    Veiled dev (s.bootStep k) ((veil s h).bootStep k) := by
  cases k with
  | busIdle => exact ⟨h, rfl, { hc with }⟩
  | timerStopped => exact ⟨h, rfl, { hc with armed := nofun }⟩
  | flagsCleared => exact ⟨h, rfl, { hc with sampled := nofun, ready := nofun }⟩
  | sequencersSet => exact ⟨h, rfl, { hc with second := nofun }⟩
  | edgeEnabled => exact ⟨h, rfl, { hc with }⟩

/-- READ takes RXBUF only while a byte is ready. -/
theorem readStep_veiled (hc : MayHold dev s h) : Veiled dev s.readStep (veil s h).readStep := by
  refine related_ite (r := Veiled dev) (fun hr => ⟨h, ?_, { hc with ready := nofun }⟩)
    fun _ => ⟨h, rfl, hc⟩
  have hbuf := hc.ready hr
  simp [veil, mailboxTake_eq, hbuf]

/-- DECODE reads PENDING only in AWAIT_SECOND. -/
theorem decoded_veiled (hc : MayHold dev s h) (b : Byte) :
    Veiled dev (decoded b s) (decoded b (veil s h)) := by
  unfold decoded
  simp only [veil_iState]
  cases hb : syncBit b with
  | true =>
    refine ⟨{ h with pending := b }, rfl, { hc with second := fun _ => rfl, contents := fun hd => ?_ }⟩
    obtain ⟨hacc, hbuf, -, hphase⟩ := hc.contents hd
    exact ⟨hacc, hbuf, rfl, hphase⟩
  | false =>
    cases hi : s.iState with
    | awaitFirst => exact ⟨h, rfl, { hc with }⟩
    | awaitSecond =>
      have hpend := hc.second hi
      refine ⟨h, ?_, { hc with second := nofun }⟩
      simp [veil, State.emit, hpend]

/-- A micro-step reads the place in the frame alone. -/
theorem runMicro_veiled (hc : MayHold dev s h) (q : TxPos) :
    AnswersVeiled dev (s.runMicro q) ((veil s h).runMicro q) := by
  cases hop : microOp q.frame q.spot with
  | none =>
    simp only [State.runMicro, hop]
    rfl
  | some op =>
    cases hn : nextSpot q.frame.length q.spot with
    | some spot =>
      rw [runMicro_inside hop hn, runMicro_inside hop hn]
      exact ⟨h, rfl, { hc with }⟩
    | none =>
      rw [runMicro_last hop hn, runMicro_last hop hn]
      exact ⟨h, rfl, { hc with }⟩

theorem sendFrame_veiled (hc : MayHold dev s h) (d : List Byte) :
    AnswersVeiled dev (s.sendFrame d) ((veil s h).sendFrame d) :=
  runMicro_veiled hc _

theorem execAddrByte_veiled (hc : MayHold dev s h) :
    AnswersVeiled dev (execAddrByte s) (execAddrByte (veil s h)) := by
  unfold execAddrByte
  simp only [veil_txPos]
  cases s.txPos with
  | none => rfl
  | some q => exact related_ite (r := AnswersVeiled dev) (fun _ => runMicro_veiled hc q) fun _ => rfl

/-- The address stream holds ADDR_BYTE and nothing else (R82). -/
theorem eq_addrByte_of_decodeAddress {v : Byte} {i : Instr} (hd : decodeAddress v = .ok i) :
    i = .addrByte := by
  unfold decodeAddress at hd
  split at hd <;> cases hd
  rfl

theorem actMove_veiled (hc : MayHold dev s h) (p : Params) :
    MovesVeiled dev (s.actMove p) ((veil s h).actMove p) := by
  unfold State.actMove
  simp only [veil_txPos, veil_curAction]
  cases s.txPos with
  | none =>
    cases s.curAction with
    | none => rfl
    | some a =>
      cases a with
      | setVoltage w => exact sendFrame_veiled hc [dacHigh w, dacLow w]
      | shutdown => exact sendFrame_veiled hc [Config.sdHi, sdLo]
  | some q =>
    refine related_ite (r := MovesVeiled dev) (fun _ => ?_) fun _ =>
      related_ite (r := MovesVeiled dev) (fun _ => ⟨h, rfl, hc⟩) fun _ => runMicro_veiled hc q
    rcases hd : q.frame.head?.map decodeAddress with _ | e | i
    · rfl
    · rfl
    · obtain ⟨v, -, hv⟩ := Option.map_eq_some_iff.mp hd
      cases eq_addrByte_of_decodeAddress hv
      exact execAddrByte_veiled hc

theorem foregroundMove_veiled (hc : MayHold dev s h) (p : Params) :
    MovesVeiled dev (s.foregroundMove p) ((veil s h).foregroundMove p) := by
  unfold State.foregroundMove
  simp only [veil_bootPos, veil_mPhase]
  cases s.bootPos with
  | some k => exact bootStep_veiled hc k
  | none =>
    cases s.mPhase with
    | read => exact readStep_veiled hc
    | decode b =>
      change AnswersVeiled dev (exec _ s) (exec _ (veil s h))
      rw [exec_decodeCommand, exec_decodeCommand]
      exact decoded_veiled hc b
    | act => exact actMove_veiled hc p

end Foreground

/-- The state after a turn of the host: a pair becomes its characters, a character its cells, and a cell is driven. -/
def hostDriven (p : Params) (s : State) : State :=
  match s.hostOut with
  | [] => s
  | .pair w :: r => { s with hostOut := r }.queueFirst (pairItems w)
  | .char c :: r => { s with hostOut := r }.queueFirst (charItems c)
  | .cell l :: r => { s with hostOut := r }.driveCell p l

/-- A character that is decoded puts its cells at the head of the host's queue. -/
theorem exec_char {c : Cells} {i : Instr} (hd : decodeLine c = .ok i) (s : State) :
    exec i s = .next (s.queueFirst (charItems c)) := by
  unfold decodeLine at hd
  split at hd <;> cases hd
  rfl

/-- A host form or a character that is decoded is sent as one that is not (log 22). -/
theorem hostMove_answer (p : Params) (s : State) :
    (s.hostMove p).answer = .next (hostDriven p s) := by
  unfold State.hostMove hostDriven
  cases s.hostOut with
  | nil => rfl
  | cons x r =>
    cases x with
    | pair w =>
      cases hd : decodeHost w with
      | ok i => simpa only [hd, Move.answer] using exec_pair hd _
      | error e => simp only [hd, Move.answer]
    | char c =>
      cases hd : decodeLine c with
      | ok i => simpa only [hd, Move.answer] using exec_char hd _
      | error e => simp only [hd, Move.answer]
    | cell l => rfl

section Moves
variable {dev : Bool} {s : State} {h : Unseen}

theorem hostMove_veiled (hc : MayHold dev s h) (p : Params) :
    MovesVeiled dev (s.hostMove p) ((veil s h).hostMove p) := by
  unfold MovesVeiled
  rw [hostMove_answer, hostMove_answer]
  unfold hostDriven
  simp only [veil_hostOut]
  cases s.hostOut with
  | nil => exact ⟨h, rfl, hc⟩
  | cons x r =>
    cases x with
    | pair w => exact ⟨h, rfl, { hc with }⟩
    | char c => exact ⟨h, rfl, { hc with }⟩
    | cell l => exact driveCell_veiled (s := { s with hostOut := r }) { hc with } p l

theorem turnMove_veiled (hc : MayHold dev s h) (p : Params) (x : Turn) :
    MovesVeiled dev (s.turnMove p x) ((veil s h).turnMove p x) := by
  cases x with
  | foreground => exact foregroundMove_veiled hc p
  | host => exact hostMove_veiled hc p
  | rx l missed => exact driveRx_veiled hc p l missed
  | device l => exact ⟨{ h with sdaDev := l }, rfl, { hc with device := fun _ => rfl }⟩
  | expiry d => exact expire_veiled hc p d
  | elapse d => exact elapse_veiled hc p d
  | handler d => exact handlerTook_veiled hc p d
  | powerCycle => exact powerCycle_veiled hc

theorem defaultMove_veiled (hc : MayHold dev s h) (p : Params) :
    MovesVeiled dev (s.defaultMove p) ((veil s h).defaultMove p) := by
  have hfore := foregroundMove_veiled hc p
  have hrest : Veiled dev s (veil s h) := ⟨h, rfl, hc⟩
  have htick (tau : Time) : Veiled dev (s.tickAt p tau) ((veil s h).tickAt p tau) :=
    raiseTimer_veiled (s := { s with now := p.later s.now tau }) { hc with } .line
  have hlater (e : Time) : MovesVeiled dev (({ s with now := e } : State).foregroundMove p)
      (({ veil s h with now := e } : State).foregroundMove p) :=
    foregroundMove_veiled (s := { s with now := e }) { hc with } p
  unfold State.defaultMove
  rw [veil_level, veil_waitEnd, veil_tickDue]
  split
  · exact related_ite (r := MovesVeiled dev) (fun _ => hfore) fun _ =>
      related_ite (r := MovesVeiled dev) (fun _ => raiseTimer_veiled hc .line) fun _ =>
        hostMove_veiled hc p
  · split
    · exact related_ite (r := MovesVeiled dev) (fun _ => hfore) fun _ => hrest
    · exact related_ite (r := MovesVeiled dev) (fun _ => hfore) fun _ => htick _
    · exact hlater _
    · exact related_ite (r := MovesVeiled dev) (fun _ => htick _) fun _ => hlater _

theorem chosenMove_veiled (hc : MayHold dev s h) (p : Params) :
    MovesVeiled dev (s.chosenMove p) ((veil s h).chosenMove p) := by
  unfold State.chosenMove
  simp only [veil_sched]
  cases s.sched with
  | nil => exact defaultMove_veiled hc p
  | cons x r => exact turnMove_veiled (s := { s with sched := r }) { hc with } p x

theorem nextMove_veiled (hc : MayHold dev s h) (p : Params) :
    MovesVeiled dev (s.nextMove p) ((veil s h).nextMove p) := by
  unfold State.nextMove
  simp only [veil_edgePend, veil_tmrPend]
  refine related_ite (r := MovesVeiled dev) (fun _ => chosenMove_veiled hc p) fun _ => ?_
  cases s.edgePend with
  | some te => exact takeEdge_veiled hc te
  | none =>
    cases s.tmrPend with
    | some d => exact takeTimer_veiled hc d
    | none => exact chosenMove_veiled hc p

end Moves

/-- What is veiled decides nothing: from two states that differ in it alone a step answers two such states, or the same stop. -/
theorem stepWith_veiled {dev : Bool} {s t : State} (hst : Veiled dev s t) (p : Params) :
    AnswersVeiled dev (stepWith p s) (stepWith p t) := by
  obtain ⟨h, rfl, hc⟩ := hst
  rw [stepWith_eq, stepWith_eq]
  exact nextMove_veiled hc p

/-- Settles O51: the unspecified contents are veiled, whether or not the invariant holds. -/
theorem unspecifiedContentsAreNeverObserved : Obligations.UnspecifiedContentsAreNeverObserved := by
  unfold Obligations.UnspecifiedContentsAreNeverObserved
  intro s t _ hst
  have hrel : Veiled false = State.SameSeen := funext₂ fun _ _ => propext veiled_false_iff
  exact hrel ▸ stepWith_veiled (veiled_false_iff.mpr hst) Config.timing

/-- Settles O38: the device's level is veiled. -/
theorem deviceLevelIsNeverRead : Obligations.DeviceLevelIsNeverRead := by
  unfold Obligations.DeviceLevelIsNeverRead
  intro s l
  have hrel : Veiled true = fun a b => b = { a with sdaDev := b.sdaDev } :=
    funext₂ fun _ _ => propext veiled_true_iff
  exact hrel ▸ stepWith_veiled (veiled_true_iff.mpr rfl) Config.timing

end Sys2Proof.Proofs
end

section
/-! SUPPORT. The obligations about single steps on the state: reset's values, the device's turn, a micro-step, and time
(spec/10_state.md). -/

namespace Sys2Proof.Proofs

open Sys2Proof.Machine

/-- Settles O45: the values are those that `State.reset` is written with. -/
theorem resetHoldsSpecValues : Obligations.ResetHoldsSpecValues :=
  ⟨rfl, rfl, rfl, rfl, rfl, rfl, rfl, rfl, rfl, rfl, rfl, rfl, rfl⟩

/-- Settles O39: an undisturbed state takes the device's turn. -/
theorem deviceMovesOnlyTheSdaWire : Obligations.DeviceMovesOnlyTheSdaWire := by
  unfold Obligations.DeviceMovesOnlyTheSdaWire
  rintro s l r ⟨hm, he, ht⟩ hs
  exact ⟨_, stepWith_turn hm he ht hs, rfl, rfl, rfl⟩

section MicroStep
variable {p : Params} {s : State} {q : TxPos} {op : MicroOp}

/-- In ACT the foreground is held at a place exactly if that is a Wait of the timed level which has not lasted T_HALF (R131). -/
theorem waitEnd_isSome_iff (hb : s.bootPos = none) (hm : s.mPhase = .act) (hq : s.txPos = some q)
    (hop : microOp q.frame q.spot = some op) :
    (s.waitEnd p).isSome = true ↔
      s.level = .timed ∧ op = .wait ∧ p.value s.now < p.value s.microAt + p.tHalf := by
  unfold State.waitEnd
  cases hl : s.level with
  | event => simp
  | timed =>
    simp only [hb, hm, hq, hop]
    split <;> simp_all

/-- In ACT, past the address byte's first place, the foreground holds in a running Wait and otherwise takes the micro-step. -/
theorem foregroundMove_micro (p : Params) (hb : s.bootPos = none) (hm : s.mPhase = .act)
    (hq : s.txPos = some q) (hspot : q.spot ≠ .bit 0 7 .sda) :
    s.foregroundMove p = .done (if (s.waitEnd p).isSome then .next s else s.runMicro q) := by
  simp only [State.foregroundMove, hb, hm, State.actMove, hq, if_neg hspot]
  split <;> rfl

end MicroStep

/-- Settles O36: the foreground's turn is the micro-step at TXPOS unless a Wait still runs (`waitEnd_isSome_iff`), and then it
changes nothing. -/
theorem microStepActsOnItsLine : Obligations.MicroStepActsOnItsLine := by
  unfold Obligations.MicroStepActsOnItsLine
  rintro p s q op r ⟨hmask, hedge, htimer⟩ hb hm hq hspot hop hs
  have hturn : stepWith p s =
      if (({ s with sched := r } : State).waitEnd p).isSome then .next { s with sched := r }
      else ({ s with sched := r } : State).runMicro q := by
    rw [stepWith_turn hmask hedge htimer hs]
    exact congrArg Move.answer (foregroundMove_micro (s := { s with sched := r }) p hb hm hq hspot)
  have hheld := waitEnd_isSome_iff (p := p) (s := { s with sched := r }) hb hm hq hop
  constructor
  · intro hover
    have hgo : ¬(({ s with sched := r } : State).waitEnd p).isSome = true := fun hw => by
      obtain ⟨hl, hop', hlt⟩ := hheld.mp hw
      exact absurd (hover hl hop') (not_le.mpr hlt)
    rw [hturn, if_neg hgo]
    cases hn : nextSpot q.frame.length q.spot with
    | some spot => exact ⟨_, runMicro_inside hop hn, rfl, rfl, by simp [hm]⟩
    | none => exact ⟨_, runMicro_last hop hn, rfl, rfl, by simp⟩
  · intro hl hop' hlt
    rw [hturn, if_pos (hheld.mpr ⟨hl, hop', hlt⟩)]

section Time
variable {p : Params} {s : State}

/-- Time passes freely unless it would take NOW past NEXT_TICK by more than T_JITTER at the timed level (R111, R112). -/
theorem elapse_passes (d : Time)
    (h : s.level = .timed → ∀ tau, s.nextTick = some tau →
      p.value s.now + max 0 (p.value d) ≤ p.value tau + p.tJitter) :
    s.elapse p d = .next { s with now := s.now.add (p.span d) } := by
  unfold State.elapse
  split
  · rename_i tau hl ht
    rw [if_pos (by simpa using h hl tau ht)]
  · rfl

/-- Time that would take NOW past NEXT_TICK by more than T_JITTER is refused at the timed level. -/
theorem elapse_overdue {d tau : Time} (hl : s.level = .timed) (ht : s.nextTick = some tau)
    (h : p.value tau + p.tJitter < p.value s.now + max 0 (p.value d)) :
    s.elapse p d = .refused .tickOverdue := by
  simp only [State.elapse, hl, ht]
  rw [if_neg (by simpa using h)]

/-- An unmasked EDGE event is taken before anything else (R206, R210). -/
theorem stepWith_edge {te : Time} (hm : s.intMask = false) (he : s.edgePend = some te) :
    stepWith p s = s.takeEdge te := by
  simp [stepWith, State.nextMove, hm, he]

/-- An unmasked TIMER event is taken when no EDGE event pends (R206, R210). -/
theorem stepWith_timer {d : SampleDraw} (hm : s.intMask = false) (he : s.edgePend = none)
    (ht : s.tmrPend = some d) : stepWith p s = s.takeTimer d := by
  simp [stepWith, State.nextMove, hm, he, ht]

/-- TimerTick faults only with BITPOS above 7 (R25). -/
theorem takeTimer_answers (d : SampleDraw) (hb : s.bitPos.toNat ≤ 7) :
    ∃ t, s.takeTimer d = .next t := by
  obtain ⟨u, hu⟩ := timerTick_answers (l := s.drawnLevel d) (s := s.enterHandler) hb
  exact ⟨_, inHandler_next.mpr ⟨u, hu, rfl⟩⟩

/-- Before the eighth sample TimerTick samples and does no more (R103). -/
theorem takeTimer_samples (d : SampleDraw) (hb : s.bitPos.toNat < 7) :
    s.takeTimer d = .next (s.enterHandler.tickSample (s.drawnLevel d)).leaveHandler := by
  obtain ⟨t, ht⟩ := takeTimer_answers d hb.le
  rcases takeTimer_next ht with ⟨-, rfl⟩ | ⟨h7, -⟩
  · exact ht
  · exact absurd h7 hb.ne

/-- The eighth sample completes the byte (R104). -/
theorem takeTimer_completes (d : SampleDraw) (hb : s.bitPos.toNat = 7) :
    s.takeTimer d = .next (s.enterHandler.tickSample (s.drawnLevel d)).tickComplete.leaveHandler := by
  obtain ⟨t, ht⟩ := takeTimer_answers d hb.le
  rcases takeTimer_next ht with ⟨h7, -⟩ | ⟨-, rfl⟩
  · exact absurd hb h7.ne
  · exact ht

end Time

/-- Settles O52: any real numbers may be the values of times (`exists_params`), and each step adds the number that its rule
names. -/
theorem timeIsRealValued : Obligations.TimeIsRealValued := by
  unfold Obligations.TimeIsRealValued
  refine ⟨exists_params, ?elapse, ?edge, ?tick, ?complete⟩
  case elapse =>
    rintro p s d r ⟨hm, he, ht⟩ hs
    have hturn : stepWith p s = ({ s with sched := r } : State).elapse p d :=
      stepWith_turn hm he ht hs
    rw [hturn]
    constructor
    · intro hdue
      exact ⟨_, elapse_passes (s := { s with sched := r }) d hdue, by simp⟩
    · intro tau hl htick hlate
      exact elapse_overdue (s := { s with sched := r }) hl htick hlate
  case edge =>
    intro p s te hm he
    exact ⟨_, _, (stepWith_edge hm he).trans (takeEdge_eq te s), rfl, rfl, rfl⟩
  case tick =>
    intro p s d tau hm he ht hn hb
    refine ⟨_, tau.add .tBit, (stepWith_timer hm he ht).trans (takeTimer_samples d hb), rfl, ?_, rfl⟩
    simp [hn, tickDelay]
  case complete =>
    intro p s d hm he ht hb
    exact ⟨_, (stepWith_timer hm he ht).trans (takeTimer_completes d (by simp [hb])), rfl, rfl⟩

end Sys2Proof.Proofs
end

section
/-! SUPPORT. The obligation about the assembly of a received byte in ACC and the mailbox (spec/20_memory.md). -/

namespace Sys2Proof.Proofs

open Sys2Proof.Machine

section Assembly
variable {s : State} {v : Byte}

/-- Before the eighth sample TimerTick samples and does no more (R103). -/
theorem timerTick_samples (l : Level) (hb : s.bitPos.toNat < 7) :
    s.timerTick l = .next (s.tickSample l) := by
  obtain ⟨t, ht⟩ := timerTick_answers (l := l) hb.le
  rcases timerTick_next ht with ⟨-, rfl⟩ | ⟨h7, -⟩
  · exact ht
  · exact absurd h7 hb.ne

/-- The eighth sample completes the byte (R104). -/
theorem timerTick_completes (l : Level) (hb : s.bitPos.toNat = 7) :
    s.timerTick l = .next (s.tickSample l).tickComplete := by
  obtain ⟨t, ht⟩ := timerTick_answers (l := l) hb.le
  rcases timerTick_next ht with ⟨h7, -⟩ | ⟨-, rfl⟩
  · exact absurd hb h7.ne
  · exact ht

/-- A tick that answers a next state leaves the other ticks to it. -/
theorem ticks_cons {t : State} {l : Level} (ls : List Level) (h : s.timerTick l = .next t) :
    s.ticks (l :: ls) = t.ticks ls := by
  simp only [State.ticks, h]

/-- ACC holds `v` in every bit sampled so far: those below BITPOS (R103). The bits above are whatever ACC held. -/
def SampledBits (v : Byte) (s : State) : Prop :=
  ∀ i : Nat, i < s.bitPos.toNat → s.acc.getLsbD i = v.getLsbD i

/-- Nothing is sampled yet at BITPOS = 0, so ACC may hold anything. -/
theorem sampledBits_of_bitPos_zero (hb : s.bitPos = 0) : SampledBits v s := by
  intro i hi
  simp [hb] at hi

/-- A sample at the level of its own bit of `v` adds that bit and keeps those below it. -/
theorem tickSample_sampledBits (hb : s.bitPos.toNat ≤ 7) (h : SampledBits v s) :
    SampledBits v (s.tickSample (v.getLsbD s.bitPos.toNat)) := by
  intro i hi
  rw [tickSample_bitPos, toNat_bitPos_next hb] at hi
  rw [tickSample_acc, getLsbD_setBit _ _ _ _ (by omega)]
  split
  case isTrue heq => rw [heq]
  case isFalse hne => exact h i (by omega)

/-- ACC is `v` once all eight bits are sampled. -/
theorem acc_eq_of_sampledBits (hb : s.bitPos.toNat = 8) (h : SampledBits v s) : s.acc = v :=
  BitVec.eq_of_getLsbD_eq fun i hi => h i (hb ▸ hi)

/-- The ticks from BITPOS to the eighth, each at the level of its own bit of `v`, end in the completing part of a tick with
`v` in ACC. By induction on the ticks before the eighth. -/
theorem ticks_complete_byte (n : Nat) (hb : s.bitPos.toNat + n = 7) (h : SampledBits v s) :
    ∃ u : State, s.ticks ((List.range' s.bitPos.toNat (n + 1)).map fun k => v.getLsbD k) =
      .next u.tickComplete ∧ u.acc = v := by
  induction n generalizing s with
  | zero =>
    refine ⟨_, ticks_cons [] (timerTick_completes _ hb), acc_eq_of_sampledBits ?_ ?_⟩
    · rw [tickSample_bitPos, toNat_bitPos_next hb.le]
      omega
    · exact tickSample_sampledBits hb.le h
  | succ n ih =>
    have hlt : s.bitPos.toNat < 7 := by omega
    have hnext : (s.tickSample (v.getLsbD s.bitPos.toNat)).bitPos.toNat = s.bitPos.toNat + 1 :=
      toNat_bitPos_next hlt.le
    obtain ⟨u, hu, hacc⟩ := ih (by omega) (tickSample_sampledBits hlt.le h)
    rw [hnext] at hu
    exact ⟨u, (ticks_cons _ (timerTick_samples _ hlt)).trans hu, hacc⟩

end Assembly

/-- Settles O21: all eight ticks of `ticks_complete_byte`, whose completing part writes the mailbox and rearms the edge. -/
theorem eightTicksAssembleByte : Obligations.EightTicksAssembleByte := by
  unfold Obligations.EightTicksAssembleByte
  intro s v hb
  obtain ⟨u, hu, hacc⟩ := ticks_complete_byte 7 (by simp [hb]) (sampledBits_of_bitPos_zero (v := v) hb)
  rw [hb] at hu
  exact ⟨_, hu, hacc, rfl, rfl, rfl, rfl⟩

end Sys2Proof.Proofs
end

section
/-! SUPPORT. The operand forms read back (spec/30_encoding.md): the fields of a byte or a pair that was put together are those it
was put together from. -/

namespace Sys2Proof.Proofs

open Sys2Proof.Machine

/-- A first byte has sync bit 1 (R72, R73). -/
@[simp] theorem syncBit_firstByte (w : Magnitude) : syncBit (firstByte w) = true :=
  getLsbD_firstByte w 0 (by omega)

/-- A second byte has sync bit 0 (R72, R74). -/
@[simp] theorem syncBit_secondByte (x s : BitVec 1) (v : BitVec 5) : syncBit (secondByte x s v) = false :=
  getLsbD_secondByte x s v 0 (by omega)

/-- S is bit 6 of a second byte (R74). -/
@[simp] theorem shutdownBit_secondByte (x s : BitVec 1) (v : BitVec 5) :
    shutdownBit (secondByte x s v) = s.getLsbD 0 :=
  getLsbD_secondByte x s v 6 (by omega)

/-- The don't-care bit of a second byte is its bit 7 (R74). -/
@[simp] theorem dontCare_secondByte (x s : BitVec 1) (v : BitVec 5) :
    (secondByte x s v).extractLsb' 7 1 = x := by
  unfold secondByte
  rw [BitVec.extractLsb'_append_eq_of_le (by omega), BitVec.extractLsb'_append_eq_of_le (by omega),
    BitVec.extractLsb'_append_eq_left]

/-- V4 to V0 are bits 5 to 1 of a second byte (R74). -/
@[simp] theorem low_secondByte (x s : BitVec 1) (v : BitVec 5) :
    (secondByte x s v).extractLsb' 1 5 = v := by
  unfold secondByte
  rw [BitVec.extractLsb'_append_eq_of_le (by omega), BitVec.extractLsb'_append_eq_right]

/-- A magnitude is that of its first byte and of any second byte that carries its lower part (R75). -/
theorem magnitude_firstByte {w : Magnitude} {b2 : Byte} (h : b2.extractLsb' 1 5 = w.extractLsb' 0 5) :
    magnitude (firstByte w) b2 = w := by
  unfold magnitude firstByte
  rw [h, BitVec.extractLsb'_append_eq_left]
  exact (BitVec.extractLsb'_append_extractLsb'_eq_extractLsb' rfl).trans BitVec.extractLsb'_eq_self

/-- The upper four bits of a pair are those of its first byte (R83, R84). -/
theorem high_pairOf (a b : Byte) : (pairOf a b).extractLsb' 12 4 = a.extractLsb' 4 4 := by
  unfold pairOf
  rw [BitVec.extractLsb'_append_eq_of_le (by omega)]

/-- SetVoltage's data bytes are the magnitude held in 16 bits (R83). -/
theorem pairOf_dac (w : Magnitude) : pairOf (dacHigh w) (dacLow w) = w.zeroExtend 16 :=
  pairOf_halves (w.zeroExtend 16)

/-- HI of SetVoltage has configuration bits 0 (R83). -/
theorem high_dacHigh (w : Magnitude) : (dacHigh w).extractLsb' 4 4 = 0#4 := by
  apply BitVec.eq_of_getLsbD_eq
  intro i hi
  rw [BitVec.getLsbD_extractLsb', getLsbD_dacHigh w _ (by omega), decide_eq_false (by omega : ¬4 + i < 4)]
  simp

/-- SD_HI's configuration bits are its mode's number, from 1 to 15 (R8, R84). -/
theorem high_sdHi_ne_zero : Config.sdHi.extractLsb' 4 4 ≠ 0#4 := by
  have hmode := Config.sdMode.isLt
  unfold Config.sdHi
  rw [BitVec.extractLsb'_append_eq_left, ne_eq, ← BitVec.toNat_inj, BitVec.toNat_ofNat, BitVec.toNat_ofNat]
  omega

/-- Settles O32: the two high bytes differ in their configuration bits. -/
theorem shutdownHighByteDiffers : Obligations.ShutdownHighByteDiffers := by
  unfold Obligations.ShutdownHighByteDiffers
  exact ⟨high_sdHi_ne_zero, fun w e => high_sdHi_ne_zero (e ▸ high_dacHigh w)⟩

/-- The magnitude as a number: the first byte's seven bits count 32 each unit (R75). -/
theorem toNat_magnitude (b1 b2 : Byte) :
    (magnitude b1 b2).toNat = b1.toNat / 2 * 32 + b2.toNat / 2 % 32 := by
  have hlow : (b2.extractLsb' 1 5).toNat < 2 ^ 5 := BitVec.isLt _
  have hb1 := b1.isLt
  unfold magnitude
  rw [BitVec.toNat_append, ← Nat.shiftLeft_add_eq_or_of_lt hlow, Nat.shiftLeft_eq,
    BitVec.extractLsb'_toNat, BitVec.extractLsb'_toNat, Nat.shiftRight_eq_div_pow, Nat.shiftRight_eq_div_pow]
  omega

/-- Settles O5: the pair of a magnitude is `firstByte` and its lower five bits, and `firstByte_magnitude` and `magnitude_low` read
the pair off any two bytes that give the magnitude. -/
theorem magnitudeOfTwoBytes : Obligations.MagnitudeOfTwoBytes := by
  unfold Obligations.MagnitudeOfTwoBytes
  refine ⟨toNat_magnitude, fun w => ⟨firstByte w, w.extractLsb' 0 5, syncBit_firstByte w, ?_, ?_⟩⟩
  · exact fun b2 hlow => magnitude_firstByte hlow
  · rintro c1 c2 hsync rfl
    exact ⟨(firstByte_magnitude c2 hsync).symm, (magnitude_low c1 c2).symm⟩

end Sys2Proof.Proofs
end

section
/-! SUPPORT. Decoding and encoding undo each other (spec/30_encoding.md R70 to R85): what each stream's decoder answers, and that
the fixed bits of a table row are the bits the decoder looks at. -/

namespace Sys2Proof.Proofs

open Sys2Proof.Machine

/-! ### Fixed bits -/

/-- A word has a row's fixed bits if it has each of them. -/
theorem hasFixedBits_iff {n : Nat} {m f w : BitVec n} :
    hasFixedBits m f w = true ↔ ∀ i : Fin n, (w.getLsbD i && m.getLsbD i) = f.getLsbD i := by
  simp only [hasFixedBits, beq_iff_eq]
  constructor
  · rintro rfl i
    exact (BitVec.getLsbD_and).symm
  · intro h
    exact BitVec.eq_of_getLsbD_eq fun i hi => BitVec.getLsbD_and.trans (h ⟨i, hi⟩)

/-- DISCARD is a byte with sync bit 0 (R77). -/
@[simp] theorem wellFormed_discard (b : Byte) :
    (Instr.discard b).wellFormed = true ↔ syncBit b = false := by
  simp [Instr.wellFormed, hasFixedBits_iff, Fin.forall_fin_succ, syncBit]

/-- FIRST is a byte with sync bit 1 (R77). -/
@[simp] theorem wellFormed_first (b : Byte) :
    (Instr.first b).wellFormed = true ↔ syncBit b = true := by
  simp [Instr.wellFormed, hasFixedBits_iff, syncBit]

/-- REFIRST is a byte with sync bit 1 (R77). -/
@[simp] theorem wellFormed_refirst (b : Byte) :
    (Instr.refirst b).wellFormed = true ↔ syncBit b = true :=
  wellFormed_first b

/-- SHUTDOWN is a byte with sync bit 0 and S = 1 (R77). -/
@[simp] theorem wellFormed_shutdown (b : Byte) :
    (Instr.shutdown b).wellFormed = true ↔ syncBit b = false ∧ shutdownBit b = true := by
  simp [Instr.wellFormed, hasFixedBits_iff, Fin.forall_fin_succ, syncBit, shutdownBit]

/-- SETV is a byte with sync bit 0 and S = 0 (R77). -/
@[simp] theorem wellFormed_setv (b : Byte) :
    (Instr.setv b).wellFormed = true ↔ syncBit b = false ∧ shutdownBit b = false := by
  simp [Instr.wellFormed, hasFixedBits_iff, Fin.forall_fin_succ, syncBit, shutdownBit]

/-- The first byte of ENC_SHUTDOWN has sync bit 1 (R80). -/
@[simp] theorem wellFormed_encShutdown (f : Byte) (x : BitVec 1) (v : BitVec 5) :
    (Instr.encShutdown f x v).wellFormed = true ↔ syncBit f = true :=
  wellFormed_first f

/-- A character has start cell 0 and stop cell 1 (R70). -/
@[simp] theorem wellFormed_serialChar (c : Cells) :
    (Instr.serialChar c).wellFormed = true ↔ c.getLsbD 0 = false ∧ c.getLsbD 9 = true := by
  simp [Instr.wellFormed, hasFixedBits_iff, Fin.forall_fin_succ]

/-! ### Words of fewer than 16 bits -/

section Narrow
variable {n : Nat}

@[simp] theorem extractLsb'_zeroExtend (hn : n ≤ 16) (v : BitVec n) :
    (v.zeroExtend 16).extractLsb' 0 n = v :=
  (BitVec.extractLsb'_setWidth_of_le (by omega)).trans BitVec.extractLsb'_eq_self

theorem toNat_zeroExtend_lt (hn : n ≤ 16) (v : BitVec n) : (v.zeroExtend 16).toNat < 2 ^ n := by
  rw [BitVec.toNat_setWidth_of_le hn]
  exact v.isLt

/-- A word with no bit above its `n`th is a word of `n` bits, widened. -/
theorem exists_zeroExtend {w : Pair} (h : w.toNat < 2 ^ n) : ∃ v : BitVec n, w = v.zeroExtend 16 := by
  refine ⟨w.setWidth n, BitVec.eq_of_toNat_eq ?_⟩
  rw [BitVec.toNat_setWidth, BitVec.toNat_setWidth, Nat.mod_eq_of_lt h, Nat.mod_eq_of_lt w.isLt]

end Narrow

/-! ### The decoder of each stream -/

/-- The decoder answers no instruction for a word wider than its stream's. -/
theorem toNat_lt_of_decode {c : Stream} {w : Pair} {i : Instr} (hd : decode c w = .ok i) :
    w.toNat < 2 ^ c.width := by
  unfold decode at hd
  split at hd
  · assumption
  · cases hd

/-- A command byte is read by ISTATE (R77), and never rejected (R78). -/
theorem decode_command (st : IState) (b : Byte) :
    decode (.command st) (b.zeroExtend 16) = .ok (decodeCommand st b) := by
  unfold decode
  rw [if_pos (by exact toNat_zeroExtend_lt (by omega) b)]
  simp only [extractLsb'_zeroExtend (by omega : 8 ≤ 16)]

/-- An address byte is read by the decoder of its stream. -/
theorem decode_address (b : Byte) : decode .busAddress (b.zeroExtend 16) = decodeAddress b := by
  unfold decode
  rw [if_pos (by exact toNat_zeroExtend_lt (by omega) b)]
  simp only [extractLsb'_zeroExtend (by omega : 8 ≤ 16)]

/-- A pair of data bytes is read by the decoder of its stream. -/
theorem decode_data (w : Pair) : decode .busData w = decodeData w := by
  unfold decode
  rw [if_pos (by exact w.isLt)]

/-- The class of a command byte stands in the byte's stream, has its row's fixed bits, and is encoded as the byte (R77). -/
theorem decodeCommand_sound (st : IState) (b : Byte) :
    streamOf (decodeCommand st b) = .command st ∧ (decodeCommand st b).wellFormed = true ∧
      encode (decodeCommand st b) = b.zeroExtend 16 := by
  unfold decodeCommand
  cases st with
  | awaitFirst =>
    dsimp only
    split
    · exact ⟨rfl, by simp_all, rfl⟩
    · exact ⟨rfl, by simp_all, rfl⟩
  | awaitSecond =>
    dsimp only
    split
    · exact ⟨rfl, by simp_all, rfl⟩
    · split
      · exact ⟨rfl, by simp_all, rfl⟩
      · exact ⟨rfl, by simp_all, rfl⟩

/-- A pair is a host form exactly if its bytes are a first and a second byte; S says which (R80). -/
theorem decodeHost_ok {w : Pair} {i : Instr} (hd : decodeHost w = .ok i) :
    streamOf i = .host ∧ i.wellFormed = true ∧ encode i = w := by
  unfold decodeHost at hd
  dsimp only at hd
  split at hd
  case isFalse => cases hd
  case isTrue hsync =>
    obtain ⟨h1, h2⟩ : syncBit (pairFirst w) = true ∧ syncBit (pairSecond w) = false := by simpa using hsync
    have hfirst := firstByte_magnitude (pairSecond w) h1
    have hsecond := secondByte_fields (pairFirst w) h2
    split at hd
    case isTrue hs =>
      cases hd
      rw [hs, magnitude_low] at hsecond
      exact ⟨rfl, by simpa using h1, (congrArg _ hsecond).trans (pairOf_halves w)⟩
    case isFalse hs =>
      cases hd
      rw [Bool.eq_false_iff.mpr hs] at hsecond
      exact ⟨rfl, rfl, (congrArg₂ _ hfirst hsecond).trans (pairOf_halves w)⟩

/-- The data bytes of a frame are those of SetVoltage, by their upper four bits, or those of Shutdown (R83, R84). -/
theorem decodeData_ok {w : Pair} {i : Instr} (hd : decodeData w = .ok i) :
    streamOf i = .busData ∧ i.wellFormed = true ∧ encode i = w := by
  unfold decodeData at hd
  split at hd
  case isTrue hhigh =>
    cases hd
    refine ⟨rfl, rfl, (pairOf_dac _).trans ?_⟩
    calc (w.extractLsb' 0 12).zeroExtend 16
        = 0#4 ++ w.extractLsb' 0 12 := BitVec.setWidth_eq_append (by omega)
      _ = w.extractLsb' 12 4 ++ w.extractLsb' 0 12 := by rw [hhigh]
      _ = w := (BitVec.extractLsb'_append_extractLsb'_eq_extractLsb' rfl).trans BitVec.extractLsb'_eq_self
  case isFalse =>
    split at hd
    case isTrue heq =>
      cases hd
      exact ⟨rfl, rfl, heq.symm⟩
    case isFalse => cases hd

/-- Settles O2: what each stream's decoder answers (`decodeCommand_sound`, `decodeHost_ok`, `decodeData_ok`). -/
theorem encodeDecodeRoundTrip : Obligations.EncodeDecodeRoundTrip := by
  unfold Obligations.EncodeDecodeRoundTrip
  intro c w i hd
  have hfit := toNat_lt_of_decode hd
  cases c with
  | command st =>
    obtain ⟨b, rfl⟩ := exists_zeroExtend (n := 8) hfit
    cases (decode_command st b).symm.trans hd
    exact decodeCommand_sound st b
  | host => exact decodeHost_ok ((decode_host w).symm.trans hd)
  | line =>
    obtain ⟨c, rfl⟩ := exists_zeroExtend (n := 10) hfit
    rw [decode_line, decodeLine] at hd
    split at hd <;> cases hd
    exact ⟨rfl, by simp_all, rfl⟩
  | busAddress =>
    obtain ⟨b, rfl⟩ := exists_zeroExtend (n := 8) hfit
    rw [decode_address, decodeAddress] at hd
    split at hd <;> cases hd
    exact ⟨rfl, rfl, by simp_all [encode]⟩
  | busData => exact decodeData_ok ((decode_data w).symm.trans hd)

/-- The data bytes of SetVoltage are read as such (R83). -/
theorem decodeData_dac (w : Magnitude) : decodeData (pairOf (dacHigh w) (dacLow w)) = .ok (.setvData w) := by
  unfold decodeData
  rw [if_pos ((high_pairOf _ _).trans (high_dacHigh w)), pairOf_dac, extractLsb'_zeroExtend (by omega)]

/-- The data bytes of Shutdown are no SetVoltage's, so they are read as Shutdown's (R84). -/
theorem decodeData_shutdown : decodeData (pairOf Config.sdHi sdLo) = .ok .shutdownData := by
  unfold decodeData
  rw [high_pairOf, if_neg high_sdHi_ne_zero, if_pos rfl]

/-- Settles O1: the fixed bits of each row are the ones that lead the decoder of its stream to it. -/
theorem decodeEncodeRoundTrip : Obligations.DecodeEncodeRoundTrip := by
  unfold Obligations.DecodeEncodeRoundTrip
  intro i hwf
  cases i with
  | discard b | first b | refirst b | shutdown b | setv b =>
    simp only [wellFormed_discard, wellFormed_first, wellFormed_refirst, wellFormed_shutdown,
      wellFormed_setv] at hwf
    simp [streamOf, encode, decode_command, decodeCommand, hwf]
  | encSetv w x =>
    have hlow : magnitude (firstByte w) (secondByte x 0#1 (w.extractLsb' 0 5)) = w :=
      magnitude_firstByte (low_secondByte _ _ _)
    simp [streamOf, encode, decode_host, decodeHost, hlow]
  | encShutdown f x v =>
    rw [wellFormed_encShutdown] at hwf
    simp [streamOf, encode, decode_host, decodeHost, hwf]
  | serialChar c =>
    rw [wellFormed_serialChar] at hwf
    simp [-BitVec.getLsbD_eq_getElem, streamOf, encode, decode_line, decodeLine, hwf]
  | addrByte => rfl
  | setvData w => exact (decode_data _).trans (decodeData_dac w)
  | shutdownData => exact (decode_data _).trans decodeData_shutdown

/-- Settles O3: the one class is `decodeCommand`'s answer, and the decoder reads any other candidate back from the same byte. -/
theorem everyCommandByteHasOneClass : Obligations.EveryCommandByteHasOneClass := by
  unfold Obligations.EveryCommandByteHasOneClass
  intro s b
  obtain ⟨hstream, hwf, henc⟩ := decodeCommand_sound s.iState b
  refine ⟨_, _, hstream, hwf, henc, exec_decodeCommand b s, fun j hj hjwf hjenc => ?_⟩
  have hread := decodeEncodeRoundTrip j hjwf
  rw [hj, hjenc, decode_command] at hread
  exact (Except.ok.inj hread).symm

/-- Settles O4: each word is the encoding of what it stands for. -/
theorem writtenWordsDecode : Obligations.WrittenWordsDecode := by
  unfold Obligations.WrittenWordsDecode
  have hread := decodeEncodeRoundTrip
  exact ⟨hread (.first 0x01#8) rfl, hread (.shutdown 0x40#8) rfl, hread (.setv 0x02#8) rfl,
    hread (.encSetv 1025#12 0#1) rfl, hread (.serialChar 0b1101001010#10) rfl, hread .addrByte rfl,
    hread (.setvData 1025#12) rfl⟩

end Sys2Proof.Proofs
end

section
/-! SUPPORT. A step runs what the decoder reads (spec/30_encoding.md R70 to R85, spec/44_main_loop.md R182, R183), and what the
host's forms and the address byte do. -/

namespace Sys2Proof.Proofs

open Sys2Proof.Machine

/-! ### The host's forms and the address byte -/

/-- Settles O14: `execEncSetv` and `execEncShutdown` are written with `queueFirst`, and `firstByte` and `secondByte` with the
fields that the statement writes out. -/
theorem hostFormsExpand : Obligations.HostFormsExpand := by
  unfold Obligations.HostFormsExpand
  exact ⟨fun _ _ _ => rfl, fun _ _ _ _ => rfl⟩

/-- Settles O15: `cellLevels` lists the cells in time order. -/
theorem serialCharDrivesItsCells : Obligations.SerialCharDrivesItsCells := by
  unfold Obligations.SerialCharDrivesItsCells
  intro c s
  have hcells : charItems c = (List.range 10).map fun k => .cell (c.getLsbD k) := rfl
  exact congrArg (fun items => Host.Outcome.next (s.queueFirst items)) hcells

/-- Where the address byte begins, ADDR_BYTE releases SDA for bit 7 and moves on to the slot's first Wait (R82, R133, R136). -/
theorem exec_addrByte {s : State} {d : List Byte}
    (hq : s.txPos = some { frame := addressByte :: d, spot := .bit 0 7 .sda }) :
    exec .addrByte s = .next
      { s with
        sdaOut := true
        txPos := some { frame := addressByte :: d, spot := .bit 0 7 .waitSetup }
        microAt := s.now } := by
  have hat : atAddressByte { frame := addressByte :: d, spot := .bit 0 7 .sda } = true := by
    simp [atAddressByte]
  calc exec .addrByte s
      = s.runMicro { frame := addressByte :: d, spot := .bit 0 7 .sda } := by
        simp [exec, execAddrByte, hq, hat]
    _ = _ := runMicro_inside rfl rfl

/-- Settles O31: 0xC0 is the address byte (`addressByte_eq`). -/
theorem addrByteBeginsWithBitSeven : Obligations.AddrByteBeginsWithBitSeven := by
  unfold Obligations.AddrByteBeginsWithBitSeven
  intro s d hq
  rw [← addressByte_eq] at hq ⊢
  exact exec_addrByte hq

/-! ### What each agent runs -/

section Moves
variable {p : Params} {s : State}

/-- In DECODE the foreground runs the class of the held byte in ISTATE (R182). -/
theorem foregroundMove_decode {b : Byte} (hb : s.bootPos = none) (hm : s.mPhase = .decode b) :
    s.foregroundMove p = .run (decodeCommand s.iState b) s := by
  simp only [State.foregroundMove, hb, hm]

/-- In ACT the foreground makes ACT's move (R183). -/
theorem foregroundMove_act (hb : s.bootPos = none) (hm : s.mPhase = .act) :
    s.foregroundMove p = s.actMove p := by
  simp only [State.foregroundMove, hb, hm]

/-- In DECODE no Wait runs and the foreground is ready, so it moves when no choice is left (log 8). -/
theorem defaultMove_decode {b : Byte} (hm : s.mPhase = .decode b) : s.defaultMove p = s.foregroundMove p := by
  have hready : s.foregroundReady = true := by simp [State.foregroundReady, hm]
  have hwait : s.waitEnd p = none := by
    unfold State.waitEnd
    split <;> simp_all
  unfold State.defaultMove
  rw [hwait, if_pos hready]
  split
  · rfl
  · split <;> simp_all

/-- An undisturbed state with no choice left makes the default move. -/
theorem stepWith_default (hu : s.Undisturbed) (hs : s.sched = []) : stepWith p s = (s.defaultMove p).answer := by
  obtain ⟨hm, he, ht⟩ := hu
  rw [stepWith_eq]
  simp [State.nextMove, State.chosenMove, hm, he, ht, hs]

/-- The host runs the form that the pair at the head of its queue is (R80). -/
theorem hostMove_pair {w : Pair} {i : Instr} {rest : List HostItem} (hq : s.hostOut = .pair w :: rest)
    (hd : decodeHost w = .ok i) : s.hostMove p = .run i { s with hostOut := rest } := by
  simp only [State.hostMove, hq, hd]

/-- The host runs the character at the head of its queue (R70). -/
theorem hostMove_char {c : Cells} {i : Instr} {rest : List HostItem} (hq : s.hostOut = .char c :: rest)
    (hd : decodeLine c = .ok i) : s.hostMove p = .run i { s with hostOut := rest } := by
  simp only [State.hostMove, hq, hd]

/-- The bus form that an action's data bytes are (R171, R172). -/
def dataForm : Action → Instr
  | .setVoltage w => .setvData w
  | .shutdown => .shutdownData

/-- The data bytes of an action are read as its bus form (R83, R84). -/
theorem decodeData_actionBytes {a : Action} {hi lo : Byte} (h : actionBytes a = [hi, lo]) :
    decodeData (pairOf hi lo) = .ok (dataForm a) := by
  cases a with
  | setVoltage w =>
    cases h
    exact decodeData_dac w
  | shutdown =>
    cases h
    exact decodeData_shutdown

/-- An action's bus form sends the frame of its data bytes (R137, R171, R172). -/
theorem exec_dataForm (a : Action) (s : State) : exec (dataForm a) s = s.sendFrame (actionBytes a) := by
  cases a <;> rfl

/-- In ACT with no frame begun the foreground runs CUR_ACTION's bus form (R171, R172). -/
theorem actMove_begin {a : Action} (hq : s.txPos = none) (ha : s.curAction = some a) :
    s.actMove p = .run (dataForm a) s := by
  cases a <;> simp only [State.actMove, hq, ha, dataForm]

/-- In ACT the foreground runs the address byte where it begins (R82, R136). -/
theorem actMove_address {v : Byte} {d : List Byte} {i : Instr}
    (hq : s.txPos = some { frame := v :: d, spot := .bit 0 7 .sda }) (hd : decodeAddress v = .ok i) :
    s.actMove p = .run i s := by
  simp only [State.actMove, hq, if_true, List.head?_cons, Option.map_some, hd]

end Moves

/-! ### A step runs it -/

section Steps
variable {s : State} {r : List Turn}

/-- On the foreground's turn a step is the foreground's move with the turn taken off. -/
theorem step_foreground (hu : s.Undisturbed) (hs : s.sched = .foreground :: r) :
    step s = (({ s with sched := r } : State).foregroundMove Config.timing).answer :=
  stepWith_turn hu.unmasked hu.noEdge hu.noTimer hs

/-- On the host's turn a step is the host's move with the turn taken off. -/
theorem step_host (hu : s.Undisturbed) (hs : s.sched = .host :: r) :
    step s = (({ s with sched := r } : State).hostMove Config.timing).answer :=
  stepWith_turn hu.unmasked hu.noEdge hu.noTimer hs

/-- The foreground's turn in DECODE. -/
theorem step_command {b : Byte} (hu : s.Undisturbed) (hb : s.bootPos = none) (hm : s.mPhase = .decode b)
    (hs : s.sched = .foreground :: r) : step s = exec (decodeCommand s.iState b) { s with sched := r } := by
  rw [step_foreground hu hs, foregroundMove_decode (s := { s with sched := r }) hb hm]
  rfl

/-- The host's turn at a pair. -/
theorem step_pair {w : Pair} {i : Instr} {rest : List HostItem} (hu : s.Undisturbed)
    (hs : s.sched = .host :: r) (hq : s.hostOut = .pair w :: rest) (hd : decodeHost w = .ok i) :
    step s = exec i { s with sched := r, hostOut := rest } := by
  rw [step_host hu hs, hostMove_pair (s := { s with sched := r }) hq hd]
  rfl

/-- The host's turn at a character. -/
theorem step_char {c : Cells} {i : Instr} {rest : List HostItem} (hu : s.Undisturbed)
    (hs : s.sched = .host :: r) (hq : s.hostOut = .char c :: rest) (hd : decodeLine c = .ok i) :
    step s = exec i { s with sched := r, hostOut := rest } := by
  rw [step_host hu hs, hostMove_char (s := { s with sched := r }) hq hd]
  rfl

/-- The foreground's turn in ACT with no frame begun. -/
theorem step_dataForm {a : Action} (hu : s.Undisturbed) (hb : s.bootPos = none) (hm : s.mPhase = .act)
    (hs : s.sched = .foreground :: r) (hq : s.txPos = none) (ha : s.curAction = some a) :
    step s = exec (dataForm a) { s with sched := r } := by
  rw [step_foreground hu hs, foregroundMove_act (s := { s with sched := r }) hb hm,
    actMove_begin (s := { s with sched := r }) hq ha]
  rfl

/-- The foreground's turn in ACT where the address byte begins. -/
theorem step_address {v : Byte} {d : List Byte} {i : Instr} (hu : s.Undisturbed) (hb : s.bootPos = none)
    (hm : s.mPhase = .act) (hs : s.sched = .foreground :: r)
    (hq : s.txPos = some { frame := v :: d, spot := .bit 0 7 .sda }) (hd : decodeAddress v = .ok i) :
    step s = exec i { s with sched := r } := by
  rw [step_foreground hu hs, foregroundMove_act (s := { s with sched := r }) hb hm,
    actMove_address (s := { s with sched := r }) hq hd]
  rfl

end Steps

/-- Settles O40: the decoder never rejects a command byte, and the foreground is ready in DECODE. -/
theorem stepRunsDecodedCommand : Obligations.StepRunsDecodedCommand := by
  unfold Obligations.StepRunsDecodedCommand
  intro s b hu hb hm
  obtain ⟨-, hwf, -⟩ := decodeCommand_sound s.iState b
  refine ⟨_, decode_command s.iState b, hwf, fun r hs => step_command hu hb hm hs, fun hs => ?_⟩
  rw [step, stepWith_default hu hs, defaultMove_decode hm, foregroundMove_decode hb hm]
  rfl

/-- Settles O41: the decoders of the two streams are those that the host's move asks (`decode_host`, `decode_line`). -/
theorem stepRunsDecodedHostForm : Obligations.StepRunsDecodedHostForm := by
  unfold Obligations.StepRunsDecodedHostForm
  intro s i rest r hu hs
  constructor
  · intro w hq hd
    exact step_pair hu hs hq ((decode_host w).symm.trans hd)
  · intro c hq hd
    exact step_char hu hs hq ((decode_line c).symm.trans hd)

/-- Settles O42: the data bytes of an action are read as the one form that ACT runs for it (`decodeData_actionBytes`). -/
theorem stepRunsDecodedBusForm : Obligations.StepRunsDecodedBusForm := by
  unfold Obligations.StepRunsDecodedBusForm
  intro s i r hu hb hm hs
  constructor
  · intro a hi lo hq ha hbytes hd
    cases (decodeData_actionBytes hbytes).symm.trans ((decode_data _).symm.trans hd)
    exact step_dataForm hu hb hm hs hq ha
  · intro v d hq hd
    exact step_address hu hb hm hs hq ((decode_address v).symm.trans hd)

/-! ### A placed table word -/

/-- A table word that is read is read in the stream that its bits name (log 7). -/
theorem decodeTableWord_some {nbits w : Nat} {i : Instr} (h : decodeTableWord nbits w = some i) :
    ∃ c, tableStream nbits w = some c ∧ decode c (BitVec.ofNat 16 w) = .ok i := by
  unfold decodeTableWord at h
  split at h
  · split at h
    · cases h
    · rename_i c hc
      refine ⟨c, hc, ?_⟩
      cases hd : decode c (BitVec.ofNat 16 w) with
      | ok j => exact congrArg Except.ok (Option.some.inj (by simpa [hd, Except.toOption] using h))
      | error e => simp [hd, Except.toOption] at h
  · cases h

/-- Data bytes that are read are the bus form of the action that placing them puts in CUR_ACTION (log 7). -/
theorem eq_dataForm_of_decodeData {v : Pair} {i : Instr} (hd : decodeData v = .ok i) :
    i = dataForm (if v.extractLsb' 12 4 = 0#4 then .setVoltage (v.extractLsb' 0 12) else .shutdown) := by
  unfold decodeData at hd
  split at hd
  case isTrue hhigh =>
    cases hd
    rw [if_pos hhigh]
    rfl
  case isFalse hhigh =>
    rw [if_neg hhigh]
    split at hd <;> cases hd
    rfl

/-- A command byte completes as read in the ISTATE that the state is in (R78). -/
theorem exec_decodeCommand_of_iState {s : State} {st : IState} {b : Byte} (h : s.iState = st) :
    exec (decodeCommand st b) s = .next (decoded b s) :=
  h ▸ exec_decodeCommand b s

/-- Settles O43: in each stream the word stands where the step of that stream finds it, and what is decoded completes. -/
theorem placedWordIsRunNext : Obligations.PlacedWordIsRunNext := by
  unfold Obligations.PlacedWordIsRunNext
  intro s nbits w i h
  obtain ⟨c, hc, hd⟩ := decodeTableWord_some h
  have hfit := toNat_lt_of_decode hd
  simp only [State.withFetchWord, State.placeWord, hc]
  generalize BitVec.ofNat 16 w = v at hd hfit ⊢
  cases c with
  | command st =>
    obtain ⟨b, rfl⟩ := exists_zeroExtend (n := 8) hfit
    cases (decode_command st b).symm.trans hd
    simp only [extractLsb'_zeroExtend (by omega : 8 ≤ 16)]
    exact ⟨step_command ⟨rfl, rfl, rfl⟩ rfl rfl rfl, _, exec_decodeCommand_of_iState rfl⟩
  | host =>
    rw [decode_host] at hd
    exact ⟨step_pair ⟨rfl, rfl, rfl⟩ rfl rfl hd, _, exec_pair hd _⟩
  | line =>
    obtain ⟨x, rfl⟩ := exists_zeroExtend (n := 10) hfit
    rw [decode_line] at hd
    simp only [extractLsb'_zeroExtend (by omega : 10 ≤ 16)]
    exact ⟨step_char ⟨rfl, rfl, rfl⟩ rfl rfl hd, _, exec_char hd _⟩
  | busAddress =>
    obtain ⟨b, rfl⟩ := exists_zeroExtend (n := 8) hfit
    rw [decode_address] at hd
    simp only [extractLsb'_zeroExtend (by omega : 8 ≤ 16)]
    refine ⟨step_address ⟨rfl, rfl, rfl⟩ rfl rfl rfl rfl hd, ?_⟩
    unfold decodeAddress at hd
    split at hd <;> cases hd
    subst b
    exact ⟨_, exec_addrByte rfl⟩
  | busData =>
    rw [decode_data] at hd
    cases eq_dataForm_of_decodeData hd
    exact ⟨step_dataForm ⟨rfl, rfl, rfl⟩ rfl rfl rfl rfl rfl, _, (exec_dataForm _ _).trans (sendFrame_eq _ _)⟩

end Sys2Proof.Proofs
end

section
/-! SUPPORT. A character on RX is received (spec/30_encoding.md R70, R71; spec/40_sampler.md R109, R114): at the event level each
cell of the host is one turn and one handler, EdgeFall for the start cell and TimerTick for each data cell (log 6). -/

namespace Sys2Proof.Proofs

open Sys2Proof.Machine

section Cells
variable {p : Params} {s u : State} {l : Level} {q : List HostItem} {r : List Turn}

/-- A run goes on from the state that its first step answers. -/
theorem run_succ (n : Nat) (h : step s = .next u) :
    Host.Core.run Sys2Proof.core (n + 1) s = Host.Core.run Sys2Proof.core n u := by
  have hcore : Sys2Proof.core.step s = .next u := h
  simp only [Host.Core.run, hcore]

/-- The cells of `n` bits of `v`, from bit `k` on (R70). -/
def dataCells (v : Byte) (k n : Nat) : List HostItem :=
  (List.range' k n).map fun i => .cell (v.getLsbD i)

/-- The data cells of a character lie between its start cell and its stop cell (R70). -/
theorem map_cellLevels (c : Cells) :
    (cellLevels c).map HostItem.cell =
      .cell (c.getLsbD 0) :: dataCells (charData c) 0 8 ++ [.cell (c.getLsbD 9)] := by
  simp [-BitVec.getLsbD_eq_getElem, cellLevels, dataCells, charData, BitVec.getLsbD_extractLsb', List.range']

/-- The host's turn at a cell drives it. -/
theorem step_cell (hu : s.Undisturbed) (hs : s.sched = .host :: r) (hq : s.hostOut = .cell l :: q) :
    step s = .next (({ s with sched := r, hostOut := q } : State).driveCell Config.timing l) := by
  rw [step_host hu hs]
  simp only [State.hostMove, hq, Move.answer]

/-- A falling cell on an idle line raises EDGE, and with the timer stopped nothing expires (R102, R110). -/
theorem driveCell_start (hl : s.level = .event) (hen : s.edgeEn = true) (hrun : s.tmrRun = false)
    (hrx : s.rx = true) :
    s.driveCell p false = { s with rx := false, rxAt := some s.now, edgePend := some s.now } := by
  have hdrive : s.driveRx p false false =
      { s with rx := false, rxAt := some s.now, edgePend := some s.now } := by
    simp [State.driveRx, hen, hrx]
  simp only [State.driveCell, hl, hdrive]
  exact raiseTimer_stopped .line hrun

/-- A cell while a byte is received makes no edge, and the armed timer expires in its middle (R101, R114). -/
theorem driveCell_sample (hl : s.level = .event) (hb : s.bootPos = none) (hen : s.edgeEn = false)
    (hrun : s.tmrRun = true) :
    s.driveCell p l =
      { s with rx := l, rxAt := if l = s.rx then s.rxAt else some s.now, tmrPend := some .line } := by
  simp only [State.driveCell, hl, driveRx_edge_off p l false s hen]
  simp [State.raiseTimer, hb, hrun]

/-- The start cell and its handler are EdgeFall (R102). -/
theorem run_startCell (n : Nat) (hu : s.Undisturbed) (hl : s.level = .event) (hen : s.edgeEn = true)
    (hrun : s.tmrRun = false) (hrx : s.rx = true) (hs : s.sched = .host :: r)
    (hq : s.hostOut = .cell false :: q) :
    Host.Core.run Sys2Proof.core (n + 2) s =
      Host.Core.run Sys2Proof.core n
        { s with
          sched := r
          hostOut := q
          rx := false
          rxAt := some s.now
          edgeEn := false
          tmrRun := true
          tmrPhase := false
          nextTick := some (s.now.add .tFirst)
          edgePend := none
          tmrPend := none
          intMask := false
          isrAt := some s.now } := by
  have hdrive := step_cell hu hs hq
  rw [driveCell_start (s := { s with sched := r, hostOut := q }) hl hen hrun hrx] at hdrive
  refine (run_succ _ hdrive).trans (run_succ n ?_)
  exact Eq.trans (stepWith_edge hu.unmasked rfl) (takeEdge_eq _ _)

/-- A byte `v` is being received at the event level: the timer is armed and edges are off, the bits below BITPOS are in ACC, and
the foreground is as it was in `s₀`. -/
structure Receiving (s₀ : State) (v : Byte) (s : State) : Prop where
  undisturbed : s.Undisturbed
  booted : s.bootPos = none
  atEvent : s.level = .event
  edgeOff : s.edgeEn = false
  armed : s.tmrRun = true
  sampled : SampledBits v s
  kept : s₀.SameForeground s

/-- The state once a data cell is driven: its TIMER event pends (R114). -/
def cellDriven (l : Level) (q : List HostItem) (r : List Turn) (s : State) : State :=
  { s with
    sched := r
    hostOut := q
    rx := l
    rxAt := if l = s.rx then s.rxAt else some s.now
    tmrPend := some .line }

/-- The state once the cell's TIMER event is taken too, before the eighth sample (R103). -/
def cellSampled (l : Level) (q : List HostItem) (r : List Turn) (s : State) : State :=
  ((cellDriven l q r s).enterHandler.tickSample l).leaveHandler

variable {s₀ t : State} {v : Byte}

/-- A data cell is driven in one step, and TimerTick takes its level in the next (R103, R114). -/
theorem run_dataCell (n : Nat) (h : Receiving s₀ v s) (hs : s.sched = .host :: r)
    (hq : s.hostOut = .cell l :: q) (ht : (cellDriven l q r s).takeTimer .line = .next t) :
    Host.Core.run Sys2Proof.core (n + 2) s = Host.Core.run Sys2Proof.core n t := by
  have hdrive := step_cell h.undisturbed hs hq
  rw [driveCell_sample (s := { s with sched := r, hostOut := q }) h.atEvent h.booted h.edgeOff h.armed]
    at hdrive
  have htimer : step (cellDriven l q r s) = (cellDriven l q r s).takeTimer .line :=
    stepWith_timer h.undisturbed.unmasked h.undisturbed.noEdge rfl
  exact (run_succ _ hdrive).trans (run_succ n (htimer.trans ht))

/-- The sample counts (R103). -/
theorem toNat_bitPos_cellSampled (hb : s.bitPos.toNat ≤ 7) :
    (cellSampled l q r s).bitPos.toNat = s.bitPos.toNat + 1 :=
  toNat_bitPos_next hb

/-- A sample at the level of its own bit of `v` leaves the byte being received. -/
theorem receiving_cellSampled (h : Receiving s₀ v s) (hb : s.bitPos.toNat ≤ 7) (q : List HostItem)
    (r : List Turn) : Receiving s₀ v (cellSampled (v.getLsbD s.bitPos.toNat) q r s) where
  undisturbed := ⟨rfl, rfl, rfl⟩
  booted := h.booted
  atEvent := h.atEvent
  edgeOff := h.edgeOff
  armed := h.armed
  sampled := tickSample_sampledBits hb h.sampled
  kept := { h.kept with }

/-- The data cells from BITPOS to the eighth, each at its own bit of `v`, deliver `v`. By induction on the cells before the
eighth. -/
theorem run_dataCells (n : Nat) (hb : s.bitPos.toNat + n = 7) (h : Receiving s₀ v s)
    (hs : s.sched = List.replicate (n + 1) .host ++ r)
    (hq : s.hostOut = dataCells v s.bitPos.toNat (n + 1) ++ q) :
    ∃ t, Host.Core.run Sys2Proof.core (2 * (n + 1)) s = .next t ∧
      t.rxBuf = v ∧ t.rxRdy = true ∧ t.edgeEn = true ∧ t.tmrRun = false ∧ t.bitPos = 0 ∧
      t.hostOut = q ∧ t.sched = r ∧ s₀.SameForeground t := by
  induction n generalizing s with
  | zero =>
    have hlast := receiving_cellSampled h (Nat.le_of_eq hb) q r
    have hacc := acc_eq_of_sampledBits ((toNat_bitPos_cellSampled (Nat.le_of_eq hb)).trans (by omega)) hlast.sampled
    refine ⟨_, run_dataCell 0 h hs hq (takeTimer_completes .line hb), hacc, rfl, rfl, rfl, rfl, rfl, rfl, ?_⟩
    exact { hlast.kept with }
  | succ n ih =>
    have hlt : s.bitPos.toNat < 7 := by omega
    have hnext := receiving_cellSampled h hlt.le (dataCells v (s.bitPos.toNat + 1) (n + 1) ++ q)
      (List.replicate (n + 1) .host ++ r)
    have hbit := toNat_bitPos_next hlt.le
    obtain ⟨t, ht, hend⟩ := ih ((congrArg (· + n) hbit).trans (by omega)) hnext rfl (hbit ▸ rfl)
    exact ⟨t, (run_dataCell _ h hs hq (takeTimer_samples .line hlt)).trans ht, hend⟩

end Cells

/-- Settles O22: EdgeFall at the start cell, then the eight data cells of `run_dataCells`; the stop cell is still to be driven. -/
theorem characterIsReceived : Obligations.CharacterIsReceived := by
  unfold Obligations.CharacterIsReceived
  intro s c rest r hu hb hl hen hrun hbit hrx hstart hq hs
  rw [map_cellLevels, hstart] at hq
  rw [run_startCell 16 hu hl hen hrun hrx hs hq]
  refine run_dataCells 7 (by simp [hbit]) ?_ rfl (by simp [hbit])
  exact
    { undisturbed := ⟨rfl, rfl, rfl⟩
      booted := hb
      atEvent := hl
      edgeOff := rfl
      armed := rfl
      sampled := sampledBits_of_bitPos_zero hbit
      kept := ⟨rfl, rfl, rfl, rfl, rfl, rfl, rfl⟩ }

end Sys2Proof.Proofs
end

section
/-! SUPPORT. The obligations about the sampler's events and handlers: edges on RX, the tick that takes one bit, the tick that completes
a byte, and who makes a byte ready (spec/40_sampler.md R101 to R105, spec/20_memory.md R107, R108). -/

namespace Sys2Proof.Proofs

open Sys2Proof.Machine

section Edge
variable {p : Params} {s : State} {l missed : Bool} {r : List Turn}

/-- On the turn of RX a step drives the line with the turn taken off (R110). -/
theorem stepWith_rx (hu : s.Undisturbed) (hs : s.sched = .rx l missed :: r) :
    stepWith p s = .next (({ s with sched := r } : State).driveRx p l missed) :=
  stepWith_turn hu.unmasked hu.noEdge hu.noTimer hs

/-- A falling edge with EDGE_EN = 1 raises EDGE, unless it may be missed and the draw is that it is (R102, R113). -/
theorem driveRx_fall (hen : s.edgeEn = true) (hrx : s.rx = true) :
    s.driveRx p false missed =
      { s with
        rx := false
        rxAt := some s.now
        edgePend := if missed && s.edgeMayBeMissed p then s.edgePend else some s.now } := by
  cases hm : missed && s.edgeMayBeMissed p <;> simp [State.driveRx, hen, hrx, hm]

/-- At the timed level an edge may be missed within T_ISR after the last handler, and only there (R113). -/
theorem edgeMayBeMissed_iff {done : Time} (hl : s.level = .timed) (hd : s.isrAt = some done) :
    s.edgeMayBeMissed p = true ↔
      p.value done < p.value s.now ∧ p.value s.now ≤ p.value done + p.tIsr := by
  simp [State.edgeMayBeMissed, hl, hd]

end Edge

/-- Settles O16: with EDGE_EN = 0 driving RX writes the port and its time alone (`driveRx_edge_off`). -/
theorem edgeWhileDisabledIsLost : Obligations.EdgeWhileDisabledIsLost := by
  unfold Obligations.EdgeWhileDisabledIsLost
  intro s missed r hu hen hrx hs
  refine (stepWith_rx hu hs).trans ?_
  rw [driveRx_edge_off _ _ _ { s with sched := r } hen]
  simp [hrx]

/-- Settles O17: the edge's EDGE event is what the next step takes (`takeEdge_eq`); any other level makes none. -/
theorem fallingEdgeStartsByte : Obligations.FallingEdgeStartsByte := by
  unfold Obligations.FallingEdgeStartsByte
  constructor
  · intro s r hu hen hrx hs
    have hedge := stepWith_rx (p := Config.timing) hu hs
    rw [driveRx_fall (s := { s with sched := r }) hen hrx] at hedge
    refine ⟨_, hedge, Eq.trans (stepWith_edge hu.unmasked rfl) ?_⟩
    rw [takeEdge_eq, hu.unmasked, hu.noEdge, hu.noTimer]
  · intro s l missed r hu hlevel hs
    have hnofall : (s.rx && !l) = false := by
      rcases hlevel with hrx | rfl
      · simp [hrx]
      · simp
    exact (stepWith_rx hu hs).trans
      (congrArg _ (driveRx_no_fall _ l missed { s with sched := r } hnofall))

section Tick
variable {s : State}

/-- ACC after the sample of a tick with draw `d`: bit BITPOS is the level sampled, the others are kept (R103). -/
def sampledAcc (d : SampleDraw) (s : State) : Byte :=
  setBit s.acc s.bitPos.toNat (s.drawnLevel d)

/-- The bits of ACC after the sample. -/
theorem getLsbD_sampledAcc (d : SampleDraw) {j : Nat} (hj : j < 8) :
    (sampledAcc d s).getLsbD j = if j = s.bitPos.toNat then s.drawnLevel d else s.acc.getLsbD j :=
  getLsbD_setBit _ _ _ _ hj

/-- The step that takes a tick before the eighth (R103). -/
theorem step_tick {d : SampleDraw} (hm : s.intMask = false) (he : s.edgePend = none)
    (ht : s.tmrPend = some d) (hb : s.bitPos.toNat < 7) :
    step s = .next
      { s with
        acc := sampledAcc d s
        bitPos := s.bitPos + 1
        tmrPhase := true
        nextTick := s.nextTick.map (·.add .tBit)
        tmrPend := none
        isrAt := some s.now } := by
  refine ((stepWith_timer hm he ht).trans (takeTimer_samples d hb)).trans ?_
  rw [he, hm]
  rfl

/-- The step that takes the eighth tick (R104). -/
theorem step_eighthTick {d : SampleDraw} (hm : s.intMask = false) (he : s.edgePend = none)
    (ht : s.tmrPend = some d) (hb : s.bitPos = 7) :
    step s = .next
      { s with
        acc := sampledAcc d s
        rxBuf := sampledAcc d s
        rxRdy := true
        bitPos := 0
        tmrRun := false
        edgeEn := true
        tmrPhase := true
        nextTick := none
        tmrPend := none
        isrAt := some s.now } := by
  refine ((stepWith_timer hm he ht).trans (takeTimer_completes d (by simp [hb]))).trans ?_
  rw [he, hm]
  rfl

end Tick

/-- Settles O18: `step_tick`, and the bits of what it writes to ACC. -/
theorem tickSamplesOneBit : Obligations.TickSamplesOneBit := by
  unfold Obligations.TickSamplesOneBit
  intro s d hm he ht hb
  exact ⟨_, step_tick hm he ht hb, fun j hj => getLsbD_sampledAcc d hj⟩

/-- Settles O19: `step_eighthTick`, and the bits of what it writes to ACC and to the mailbox. -/
theorem eighthTickCompletesByte : Obligations.EighthTickCompletesByte := by
  unfold Obligations.EighthTickCompletesByte
  intro s d hm he ht hb
  refine ⟨_, step_eighthTick hm he ht hb, fun j hj => ?_⟩
  have hbit := getLsbD_sampledAcc (s := s) d hj
  rwa [hb] at hbit

/-- Settles O20: `step_eighthTick` writes RXBUF and RXRDY and reads neither, and EdgeFall does not touch them. -/
theorem overrunLeavesNoTrace : Obligations.OverrunLeavesNoTrace := by
  unfold Obligations.OverrunLeavesNoTrace
  constructor
  · intro s d v ready hm he ht hb
    have hanswer := step_eighthTick hm he ht hb
    have hunread : step { s with rxBuf := v, rxRdy := ready } = _ := step_eighthTick hm he ht hb
    exact ⟨hunread.trans hanswer.symm, _, hanswer, rfl, rfl⟩
  · intro s te hm he
    exact ⟨_, (stepWith_edge hm he).trans (takeEdge_eq te s), rfl, rfl⟩

/-! ### Who makes a byte ready -/

/-- Two states that agree on all that reception writes: the sampler's state and the mailbox (R54, R55, R108). -/
structure SameReception (s t : State) : Prop extends s.SameSampler t where
  rxBuf : t.rxBuf = s.rxBuf
  rxRdy : t.rxRdy = s.rxRdy

section Reception
variable {p : Params} {s t : State}

theorem sameReception_refl (s : State) : SameReception s s :=
  ⟨⟨rfl, rfl, rfl, rfl, rfl⟩, rfl, rfl⟩

/-- DECODE keeps what reception writes. -/
theorem sameReception_decoded (b : Byte) (s : State) : SameReception s (decoded b s) := by
  unfold decoded
  split <;> exact ⟨⟨rfl, rfl, rfl, rfl, rfl⟩, rfl, rfl⟩

/-- A micro-step of the transmitter keeps it. -/
theorem sameReception_runMicro {q : TxPos} (h : s.runMicro q = .next t) : SameReception s t := by
  obtain ⟨op, hop, -⟩ := runMicro_next h
  cases hn : nextSpot q.frame.length q.spot with
  | some spot =>
    cases (runMicro_inside hop hn).symm.trans h
    exact ⟨⟨rfl, rfl, rfl, rfl, rfl⟩, rfl, rfl⟩
  | none =>
    cases (runMicro_last hop hn).symm.trans h
    exact ⟨⟨rfl, rfl, rfl, rfl, rfl⟩, rfl, rfl⟩

/-- ADDR_BYTE is a micro-step of the transmitter (R136). -/
theorem runMicro_of_execAddrByte (h : execAddrByte s = .next t) : ∃ q, s.runMicro q = .next t := by
  unfold execAddrByte at h
  split at h
  · split at h
    · exact ⟨_, h⟩
    · cases h
  · cases h

/-- In ACT the foreground waits or takes a micro-step of the transmitter (R183). -/
theorem actMove_micro (h : (s.actMove p).answer = .next t) : t = s ∨ ∃ q, s.runMicro q = .next t := by
  cases hq : s.txPos with
  | none =>
    cases ha : s.curAction with
    | none =>
      simp only [State.actMove, hq, ha] at h
      cases h
    | some a =>
      rw [actMove_begin hq ha] at h
      exact .inr ⟨_, (exec_dataForm a s).symm.trans h⟩
  | some q =>
    simp only [State.actMove, hq] at h
    split at h
    · split at h
      · rename_i i hd
        obtain ⟨v, -, hv⟩ := Option.map_eq_some_iff.mp hd
        cases eq_addrByte_of_decodeAddress hv
        exact .inr (runMicro_of_execAddrByte h)
      · cases h
    · split at h
      · cases h
        exact .inl rfl
      · exact .inr ⟨q, h⟩

/-- READ leaves no byte ready: it takes the one that is (R106, R181). -/
theorem rxRdy_readStep (s : State) : s.readStep.rxRdy = false := by
  cases hr : s.rxRdy <;> simp [State.readStep, mailboxTake_eq, hr]

/-- Of what reception writes, READ writes RXRDY alone. -/
theorem sameSampler_readStep (s : State) : s.SameSampler s.readStep ∧ s.readStep.rxBuf = s.rxBuf := by
  unfold State.readStep
  split <;> exact ⟨⟨rfl, rfl, rfl, rfl, rfl⟩, rfl⟩

/-- Once boot has finished the foreground keeps what reception writes, or it makes READ's step (R108). -/
theorem foregroundMove_reception (hb : s.bootPos = none) (h : (s.foregroundMove p).answer = .next t) :
    SameReception s t ∨ (s.mPhase = .read ∧ t = s.readStep) := by
  cases hm : s.mPhase with
  | read =>
    simp only [State.foregroundMove, hb, hm] at h
    cases h
    exact .inr ⟨rfl, rfl⟩
  | decode b =>
    rw [foregroundMove_decode hb hm] at h
    cases (exec_decodeCommand b s).symm.trans h
    exact .inl (sameReception_decoded b s)
  | act =>
    rw [foregroundMove_act hb hm] at h
    rcases actMove_micro h with rfl | ⟨q, hq⟩
    · exact .inl (sameReception_refl t)
    · exact .inl (sameReception_runMicro hq)

/-- An expiry keeps RXRDY. -/
@[simp] theorem raiseTimer_rxRdy (d : SampleDraw) (s : State) : (s.raiseTimer d).rxRdy = s.rxRdy := by
  rcases raiseTimer_cases d s with ⟨-, -, e⟩ | ⟨-, e⟩ <;> rw [e]

/-- So does a cell of the host. -/
@[simp] theorem driveCell_rxRdy (p : Params) (l : Level) (s : State) : (s.driveCell p l).rxRdy = s.rxRdy := by
  unfold State.driveCell
  cases s.level with
  | event => exact raiseTimer_rxRdy .line _
  | timed => rfl

/-- No agent makes a byte ready, once boot has finished and while power lasts (R63, R107). -/
theorem rxRdy_of_acts (hb : s.bootPos = none) (hr : s.rxRdy = false) (ha : Acts p s t)
    (htb : t.bootPos = none) : t.rxRdy = false := by
  cases ha with
  | rest => exact hr
  | boot k hk => cases hb.symm.trans hk
  | read => exact rxRdy_readStep s
  | command b _ _ _ e =>
    cases (exec_decodeCommand b s).symm.trans e
    exact (sameReception_decoded b s).rxRdy.trans hr
  | frame a _ _ _ _ _ e => exact (sameReception_runMicro e).rxRdy.trans hr
  | micro q _ _ _ _ _ e => exact (sameReception_runMicro e).rxRdy.trans hr
  | queue => exact hr
  | cell l q => exact (driveCell_rxRdy p l _).trans hr
  | rx => exact hr
  | device => exact hr
  | timer d => exact (raiseTimer_rxRdy d s).trans hr
  | power => cases htb

end Reception

/-- Settles O28: on its turn the foreground keeps what reception writes, or reads (`foregroundMove_reception`). -/
theorem foregroundKeepsSampler : Obligations.ForegroundKeepsSampler := by
  unfold Obligations.ForegroundKeepsSampler
  intro s t r hu hb hs h
  rcases foregroundMove_reception (s := { s with sched := r }) hb ((step_foreground hu hs).symm.trans h) with
    hkept | ⟨hread, rfl⟩
  · exact ⟨{ hkept.toSameSampler with }, hkept.rxBuf, .inl hkept.rxRdy⟩
  · obtain ⟨hsampler, hbuf⟩ := sameSampler_readStep { s with sched := r }
    exact ⟨{ hsampler with }, hbuf, .inr ⟨hread, rxRdy_readStep _⟩⟩

/-- Settles O26: of the handlers only the completing tick sets RXRDY, and no agent does (`rxRdy_of_acts`). -/
theorem onlyCompletingTickMakesByteReady : Obligations.OnlyCompletingTickMakesByteReady := by
  unfold Obligations.OnlyCompletingTickMakesByteReady
  intro s t _ hb hr hstep htb htr
  rcases stepWith_next hstep with ⟨te, -, -, e⟩ | ⟨d, -, -, hp, e⟩ | ⟨-, r, n, -, ha⟩
  · cases (takeEdge_eq te s).symm.trans e
    cases hr.symm.trans htr
  · rcases takeTimer_next e with ⟨-, rfl⟩ | ⟨h7, -⟩
    · cases hr.symm.trans htr
    · exact ⟨by simp [hp], BitVec.eq_of_toNat_eq h7⟩
  · cases (rxRdy_of_acts (s := { s with sched := r, now := n }) hb hr ha htb).symm.trans htr

end Sys2Proof.Proofs
end

section
/-! SUPPORT. The obligations about the sampler at the timed level: when a tick may be drawn and with which level, which edges may be
missed, and the condition of correct reception (spec/40_sampler.md R111 to R117, spec/70_reset_and_hazards.md R242, R243). -/

namespace Sys2Proof.Proofs

open Sys2Proof.Machine

section Expiry
variable {p : Params} {s : State} {d : SampleDraw} {tau : Time} {r : List Turn}

/-- On the timer's turn a step is the expiry with the turn taken off. -/
theorem stepWith_expiry (hu : s.Undisturbed) (hs : s.sched = .expiry d :: r) :
    stepWith p s = ({ s with sched := r } : State).expire p d :=
  stepWith_turn hu.unmasked hu.noEdge hu.noTimer hs

/-- At the timed level an armed timer expires in its window, with a level that is admitted there (R111, R112). -/
theorem expire_armed (hl : s.level = .timed) (hb : s.bootPos = none) (hrun : s.tmrRun = true)
    (hn : s.nextTick = some tau) :
    s.expire p d =
      if inWindow p tau s.now then
        if s.levelAdmitted p tau d then .next { s with tmrPend := some d } else .refused .levelNotOnLine
      else .refused .tickOutsideWindow := by
  simp [State.expire, State.raiseTimer, hl, hb, hrun, hn]

/-- Without a nominal instant there is no window. -/
theorem expire_noTick (hl : s.level = .timed) (hb : s.bootPos = none) (hrun : s.tmrRun = true)
    (hn : s.nextTick = none) : s.expire p d = .refused .tickOutsideWindow := by
  simp [State.expire, hl, hb, hrun, hn]

end Expiry

/-- Settles O55: outside the window the expiry is refused (`expire_armed`). -/
theorem tickFallsInItsWindow : Obligations.TickFallsInItsWindow := by
  unfold Obligations.TickFallsInItsWindow
  intro p s t d r hu hb hl hrun hs h
  rw [stepWith_expiry hu hs] at h
  cases hn : s.nextTick with
  | none =>
    rw [expire_noTick (s := { s with sched := r }) hl hb hrun hn] at h
    cases h
  | some tau =>
    rw [expire_armed (s := { s with sched := r }) hl hb hrun hn] at h
    split at h
    case isFalse => cases h
    case isTrue hwindow =>
      split at h <;> cases h
      exact ⟨rfl, tau, rfl, inWindow_iff_sampledNear.mp hwindow⟩

section Changes
variable {p : Params} {s : State} {tau : Time} {l : Level}

/-- A change since the window began counts (R112). -/
theorem changesNear_of_past {c : Time} (hc : s.rxAt = some c) (h : p.value tau ≤ p.value c + p.tJitter) :
    s.changesNear p tau = true := by
  simp [State.changesNear, hc, h]

/-- So does a change that the turns to come make by the end of the window. -/
theorem changesNear_of_coming (h : changesBy p s.rx (tau.add .tJitter) s.now s.hostOut s.sched = true) :
    s.changesNear p tau = true := by
  simp [State.changesNear, h]

/-- With no change of either kind there is none. -/
theorem changesNear_eq_false (hpast : ∀ c, s.rxAt = some c → p.value c + p.tJitter < p.value tau)
    (hcoming : changesBy p s.rx (tau.add .tJitter) s.now s.hostOut s.sched = false) :
    s.changesNear p tau = false := by
  unfold State.changesNear
  cases hc : s.rxAt with
  | none => simp [hcoming]
  | some c => simp [hcoming, hpast c hc]

/-- Turns of which none is the host's and none changes the line make no change, however long they take. -/
theorem changesBy_eq_false {r : List Turn} (hr : ∀ x ∈ r, x ≠ .host ∧ ∀ l' missed, x = .rx l' missed → l' = l)
    (deadline t : Time) (q : List HostItem) : changesBy p l deadline t q r = false := by
  induction r generalizing t with
  | nil => rfl
  | cons x r ih =>
    obtain ⟨⟨hhost, hline⟩, hrest⟩ := List.forall_mem_cons.mp hr
    have hlater (t' : Time) := ih hrest t'
    cases x with
    | host => exact absurd rfl hhost
    | rx l' missed => simp [changesBy, hline l' missed rfl, hlater]
    | elapse d | handler d => simp [changesBy, hlater]
    | foreground | device l' | expiry d | powerCycle => exact hlater t

end Changes

/-- Settles O56: the levels that `expire_armed` admits, and what counts as a change of RX near the tick. -/
theorem jitterAdmitsBothLevels : Obligations.JitterAdmitsBothLevels := by
  unfold Obligations.JitterAdmitsBothLevels
  intro p s l tau r hu hb hl hrun hn hnear hs
  refine ⟨?draw, ?past, ?line, ?queue, ?none⟩
  case draw =>
    rw [stepWith_expiry hu hs, expire_armed (s := { s with sched := r }) hl hb hrun hn,
      if_pos (inWindow_iff_sampledNear.mpr hnear)]
    simp [State.levelAdmitted]
  case past =>
    intro c hc hpast
    exact changesNear_of_past hc hpast
  case line =>
    rintro d missed r' rfl hd
    exact changesNear_of_coming (by simp [changesBy, hd])
  case queue =>
    rintro d q r' rfl hq hd
    exact changesNear_of_coming (by simp [changesBy, hostDrives, hq, hd])
  case none =>
    intro hpast hquiet
    exact changesNear_eq_false hpast (changesBy_eq_false hquiet _ _ _)

/-- Settles O57: within T_ISR after the completing tick the edge may be missed, so the turn's draw decides. -/
theorem edgeAfterByteMayBeMissed : Obligations.EdgeAfterByteMayBeMissed := by
  unfold Obligations.EdgeAfterByteMayBeMissed
  intro p s missed done r hu hl hen hrx hd hafter hwithin hs
  have hmay := (edgeMayBeMissed_iff (p := p) (s := { s with sched := r }) hl hd).mpr ⟨hafter, hwithin⟩
  rw [stepWith_rx hu hs, driveRx_fall (s := { s with sched := r }) hen hrx, hmay]
  simp [hu.noEdge]

/-- Settles O58: the edge comes more than T_ISR after the completing tick, however late that was, so no draw can miss it. -/
theorem backToBackEdgeIsCaught : Obligations.BackToBackEdgeIsCaught := by
  unfold Obligations.BackToBackEdgeIsCaught
  intro p s th te done missed r hu hl hen hrx hd hnear hcond hnow hs
  have hlate : p.value done + p.tIsr < p.value s.now := by
    obtain ⟨-, hdone⟩ := abs_le.mp hnear
    simp only [tickTime, BackToBackCondition] at hdone hcond
    push_cast at hdone
    linarith
  have hmay : ({ s with sched := r } : State).edgeMayBeMissed p = false :=
    Bool.eq_false_iff.mpr fun hm =>
      not_le.mpr hlate ((edgeMayBeMissed_iff (s := { s with sched := r }) hl hd).mp hm).2
  rw [stepWith_rx hu hs, driveRx_fall (s := { s with sched := r }) hen hrx, hmay]
  simp

section Condition
variable {p : Params} {th : ℝ}

/-- Under the condition every admissible instant of sample `k` lies strictly inside cell `k + 1` (R115). -/
theorem sample_in_cell {te instant : ℝ} {k : Nat} (hcond : ReceptionCondition p th) (hk : k < 8)
    (hnear : SampledNear p (tickTime p te k) instant) :
    (k + 1) * th < instant - te ∧ instant - te < (k + 2) * th := by
  obtain ⟨hbegin, hend⟩ := hcond k hk
  obtain ⟨hearly, hlate⟩ := abs_le.mp hnear
  unfold tickTime at hearly hlate
  constructor <;> linarith

/-- Inside cell `k + 1` the character of `d` has bit `k` of `d` on RX (R70). -/
theorem charLevel_in_cell {d : Byte} {t : ℝ} {k : Nat} {l : Level} (hk : k < 8)
    (hcell : (k + 1) * th < t ∧ t < (k + 2) * th) (hlevel : CharLevel (charOf d) th t l) :
    l = d.getLsbD k := by
  obtain ⟨hbegin, hend⟩ := hcell
  obtain ⟨hcells, -⟩ := hlevel
  have hbit := hcells (k + 1) (by omega) (by push_cast; exact hbegin.le) (by push_cast; linarith)
  rwa [getLsbD_charOf d (k + 1) (by omega), if_neg (by omega), if_neg (by omega), Nat.add_sub_cancel] at hbit

end Condition

/-- Settles O23: each sample is a bit of the host's byte (`sample_in_cell`, `charLevel_in_cell`), and eight such ticks deliver
it (O21). -/
theorem correctReception : Obligations.CorrectReception := by
  unfold Obligations.CorrectReception
  intro p th te d instant sampled s hcond hb hsamples
  have hbits : (List.range 8).map sampled = (List.range 8).map fun k => d.getLsbD k := by
    refine List.map_congr_left fun k hk => ?_
    have hk8 := List.mem_range.mp hk
    obtain ⟨hnear, hlevel⟩ := hsamples k hk8
    exact charLevel_in_cell hk8 (sample_in_cell hcond hk8 hnear) hlevel
  obtain ⟨t, ht, hbuf, hrdy, -, hrun, hen⟩ := eightTicksAssembleByte s d hb
  exact ⟨t, hbits ▸ ht, hbuf, hrdy, hen, hrun⟩

/-- Settles O24: the eighth sample sets both ends of the range; the earlier ones drift less from the middles of their cells. -/
theorem baudToleranceRange : Obligations.BaudToleranceRange := by
  unfold Obligations.BaudToleranceRange
  intro p th hfirst hjitter
  constructor
  · intro hcond
    obtain ⟨hbegin, hend⟩ := hcond 7 (by omega)
    push_cast at hbegin hend
    constructor <;> linarith
  · rintro ⟨hslow, hfast⟩ k hk
    have hk7 : (k : ℝ) ≤ 7 := by exact_mod_cast Nat.le_of_lt_succ hk
    have hk0 : (0 : ℝ) ≤ k := k.cast_nonneg
    have hbit : 0 < p.tBit := by linarith
    have hdrift : 0 ≤ (7 - k) * p.tBit := mul_nonneg (by linarith) hbit.le
    have hbegin : 0 < (k + 1) * (17 * p.tBit - 16 * th) := mul_pos (by linarith) (by linarith)
    have hend : 0 < (k + 2) * (18 * th - 17 * p.tBit) := mul_pos (by linarith) (by linarith)
    constructor <;> linarith

end Sys2Proof.Proofs
end

section
/-! SUPPORT. The obligations about the micro-steps of a frame as a list: TXPOS runs through them in order, and how many they are
(spec/41_transmitter.md R137, R140). -/

namespace Sys2Proof.Proofs

open Sys2Proof.Machine

/-! ### TXPOS runs through a frame -/

section Walk
variable {frame : List Byte} {fuel k : Nat} {v : Byte}

/-- START's six micro-steps, and then bit 7 of the first byte (R132, R137). -/
theorem walkOps_start (frame : List Byte) (fuel : Nat) :
    walkOps frame (fuel + 6) (.start .sdaHigh) = startOps ++ walkOps frame fuel (.bit 0 7 .sda) := rfl

/-- STOP's six micro-steps, and nothing after them (R135, R137). -/
theorem walkOps_stop (frame : List Byte) (fuel : Nat) :
    walkOps frame (fuel + 6) (.stop .sdaLow) = stopOps := rfl

/-- A bit's slot, and then the next lower bit or the acknowledgment (R133, R136). -/
theorem walkOps_bit (hv : frame[k]? = some v) (fuel : Nat) (i : Fin 8) :
    walkOps frame (fuel + 5) (.bit k i .sda) = bitSlotOps (v.getLsbD i.val) ++
      walkOps frame fuel (if i = 0 then .ack k .sda else .bit k (i - 1) .sda) := by
  by_cases hi : i = 0 <;> simp [walkOps, microOp, hv, nextSpot, nextSlot, slotOp, bitSlotOps, hi]

/-- An acknowledgment slot, and then the next byte or STOP (R134, R137). -/
theorem walkOps_ack (hk : k < frame.length) (fuel : Nat) :
    walkOps frame (fuel + 5) (.ack k .sda) = ackSlotOps ++
      walkOps frame fuel (if k + 1 < frame.length then .bit (k + 1) 7 .sda else .stop .sdaLow) := by
  by_cases hn : k + 1 < frame.length <;>
    simp [walkOps, microOp, hk, nextSpot, nextSlot, slotOp, ackSlotOps, hn]

/-- A byte's nine slots, and then the next byte or STOP (R136, R137). -/
theorem walkOps_byte (hv : frame[k]? = some v) (fuel : Nat) :
    walkOps frame (fuel + 45) (.bit k 7 .sda) = sendByteOps v ++
      walkOps frame fuel (if k + 1 < frame.length then .bit (k + 1) 7 .sda else .stop .sdaLow) := by
  have hk : k < frame.length := (List.getElem?_eq_some_iff.mp hv).1
  simp [walkOps_bit hv, walkOps_ack hk, sendByteOps]

/-- Byte `k` of a frame, with those after it, when they are what is left of the frame from `k` on. -/
theorem frame_at_of_drop {rest : List Byte} (h : frame.drop k = v :: rest) :
    frame[k]? = some v ∧ frame.drop (k + 1) = rest ∧ frame.length = k + (rest.length + 1) := by
  have hlen : frame.length - k = rest.length + 1 := by simpa using congrArg List.length h
  refine ⟨?_, by simpa using congrArg List.tail h, by omega⟩
  calc frame[k]? = (frame.drop k)[0]? := by simp [List.getElem?_drop]
    _ = some v := by rw [h]; rfl

/-- From the first slot of byte `k` TXPOS runs through the bytes that are left, and STOP. By induction on those after `k`. -/
theorem walkOps_bytes (rest : List Byte) (hdrop : frame.drop k = v :: rest)
    (hfuel : 6 + 45 * (rest.length + 1) ≤ fuel) :
    walkOps frame fuel (.bit k 7 .sda) = (v :: rest).flatMap sendByteOps ++ stopOps := by
  induction rest generalizing k v fuel with
  | nil =>
    obtain ⟨hv, -, hlen⟩ := frame_at_of_drop hdrop
    obtain ⟨fuel, rfl⟩ := Nat.exists_eq_add_of_le' hfuel
    have hend : ¬k + 1 < frame.length := by simp [hlen]
    calc walkOps frame (fuel + 6 + 45) (.bit k 7 .sda)
        = sendByteOps v ++ walkOps frame (fuel + 6) (.stop .sdaLow) := by
          rw [walkOps_byte hv, if_neg hend]
      _ = [v].flatMap sendByteOps ++ stopOps := by rw [walkOps_stop, List.flatMap_singleton]
  | cons w rest ih =>
    obtain ⟨hv, hnext, hlen⟩ := frame_at_of_drop hdrop
    rw [List.length_cons] at hfuel hlen
    obtain ⟨fuel, rfl⟩ := Nat.exists_eq_add_of_le' (show 45 ≤ fuel by omega)
    have hmore : k + 1 < frame.length := by omega
    calc walkOps frame (fuel + 45) (.bit k 7 .sda)
        = sendByteOps v ++ walkOps frame fuel (.bit (k + 1) 7 .sda) := by
          rw [walkOps_byte hv, if_pos hmore]
      _ = sendByteOps v ++ ((w :: rest).flatMap sendByteOps ++ stopOps) := by
          rw [ih hnext (by omega)]
      _ = (v :: w :: rest).flatMap sendByteOps ++ stopOps := by
          rw [← List.append_assoc, ← List.flatMap_cons]

end Walk

/-- Settles O33: START, then all the bytes and STOP (`walkOps_bytes`). -/
theorem frameWalkIsSendFrame : Obligations.FrameWalkIsSendFrame := by
  unfold Obligations.FrameWalkIsSendFrame
  intro frame fuel hne hfuel
  obtain ⟨v, rest, rfl⟩ := List.exists_cons_of_ne_nil hne
  obtain ⟨fuel, rfl⟩ := Nat.exists_eq_add_of_le' (show 6 ≤ fuel by omega)
  rw [walkOps_start, walkOps_bytes rest rfl (by simp at hfuel; omega), sendFrameOps, List.append_assoc]

/-! ### How many micro-steps there are -/

/-- If every byte has `c` micro-steps of a kind, a frame has `c` for each byte besides those of START and STOP (R137, R140). -/
theorem countP_sendFrameOps {P : MicroOp → Bool} {c : Nat} (hbyte : ∀ v, (sendByteOps v).countP P = c)
    (frame : List Byte) :
    (sendFrameOps frame).countP P = startOps.countP P + frame.length * c + stopOps.countP P := by
  simp [sendFrameOps, List.countP_flatMap, Function.comp_def, hbyte, Nat.add_assoc]

/-- Settles O34: a byte has 27 pin steps and 18 waits, whatever its bits. -/
theorem frameStepCounts : Obligations.FrameStepCounts := by
  unfold Obligations.FrameStepCounts
  intro d
  have hpins : ∀ v, (sendByteOps v).countP (· != .wait) = 27 := fun _ => rfl
  have hwaits : ∀ v, (sendByteOps v).countP (· == .wait) = 18 := fun _ => rfl
  have hends : startOps.countP (· != .wait) + stopOps.countP (· != .wait) = 7 ∧
      startOps.countP (· == .wait) + stopOps.countP (· == .wait) = 5 := by decide
  rw [countP_sendFrameOps hpins, countP_sendFrameOps hwaits, List.length_cons]
  omega

end Sys2Proof.Proofs
end

section
/-! SUPPORT. The obligations about the transmitter's steps on the bus: when SDA may change, and how long the Waits of a frame last
(spec/41_transmitter.md R131, R139, R141). -/

namespace Sys2Proof.Proofs

open Sys2Proof.Machine

/-! ### What a step does to the transmitter -/

/-- Two states that agree on all that the transmitter's micro-steps write, MPHASE and CUR_ACTION apart (R31, R33, R34, R131). -/
structure SameTransmitter (s t : State) : Prop where
  txPos : t.txPos = s.txPos
  sclOut : t.sclOut = s.sclOut
  sdaOut : t.sdaOut = s.sdaOut
  microAt : t.microAt = s.microAt

/-- What a step between booted states does to the transmitter: it keeps it, begins CUR_ACTION's frame, or takes the micro-step at
TXPOS. The foreground's step is taken with choices `r` left, at time `n`. -/
inductive BusStep (p : Params) (s t : State) : Prop where
  /-- Another agent, or a step of the foreground outside the bus. -/
  | keeps (hsame : SameTransmitter s t) (hnow : p.value s.now ≤ p.value t.now)
  /-- The first micro-step of a frame (R137). -/
  | frame (r : List Turn) (n : Time) (a : Action) (hm : s.mPhase = .act) (hq : s.txPos = none)
      (ha : s.curAction = some a)
      (h : ({ s with sched := r, now := n } : State).sendFrame (actionBytes a) = .next t)
  /-- The micro-step at TXPOS. A Wait of the timed level is over (R131). -/
  | micro (r : List Turn) (n : Time) (q : TxPos) (hnow : p.value s.now ≤ p.value n)
      (hm : s.mPhase = .act) (hq : s.txPos = some q)
      (hwait : ({ s with sched := r, now := n } : State).waitEnd p = none)
      (h : ({ s with sched := r, now := n } : State).runMicro q = .next t)

section Step
variable {p : Params} {s t : State}

/-- An expiry keeps the transmitter and the time. -/
theorem sameTransmitter_raiseTimer (d : SampleDraw) (s : State) :
    SameTransmitter s (s.raiseTimer d) ∧ (s.raiseTimer d).now = s.now := by
  rcases raiseTimer_cases d s with ⟨-, -, e⟩ | ⟨-, e⟩ <;> rw [e] <;> exact ⟨⟨rfl, rfl, rfl, rfl⟩, rfl⟩

/-- So does a cell of the host. -/
theorem sameTransmitter_driveCell (p : Params) (l : Level) (s : State) :
    SameTransmitter s (s.driveCell p l) ∧ (s.driveCell p l).now = s.now := by
  unfold State.driveCell
  cases s.level with
  | event =>
    obtain ⟨⟨htx, hscl, hsda, hat⟩, hnow⟩ := sameTransmitter_raiseTimer .line (s.driveRx p l false)
    exact ⟨⟨htx, hscl, hsda, hat⟩, hnow⟩
  | timed => exact ⟨⟨rfl, rfl, rfl, rfl⟩, rfl⟩

/-- So does READ. -/
theorem sameTransmitter_readStep (s : State) :
    SameTransmitter s s.readStep ∧ s.readStep.now = s.now := by
  unfold State.readStep
  split <;> exact ⟨⟨rfl, rfl, rfl, rfl⟩, rfl⟩

/-- So does DECODE. -/
theorem sameTransmitter_decoded (b : Byte) (s : State) :
    SameTransmitter s (decoded b s) ∧ (decoded b s).now = s.now := by
  unfold decoded
  split <;> exact ⟨⟨rfl, rfl, rfl, rfl⟩, rfl⟩

/-- So does TimerTick. -/
theorem sameTransmitter_takeTimer {d : SampleDraw} (h : s.takeTimer d = .next t) :
    SameTransmitter s t ∧ t.now = s.now := by
  rcases takeTimer_next h with ⟨-, rfl⟩ | ⟨-, rfl⟩ <;> exact ⟨⟨rfl, rfl, rfl, rfl⟩, rfl⟩

/-- What an agent does to the transmitter, once boot has finished and while power lasts. -/
theorem busStep_of_acts (hb : s.bootPos = none) (htb : t.bootPos = none) (ha : Acts p s t) : BusStep p s t := by
  have keeps : SameTransmitter s t ∧ t.now = s.now → BusStep p s t :=
    fun ⟨hsame, hnow⟩ => .keeps hsame (hnow ▸ le_refl _)
  have hrefl : SameTransmitter s s := ⟨rfl, rfl, rfl, rfl⟩
  cases ha with
  | rest => exact keeps ⟨hrefl, rfl⟩
  | boot k hk => cases hb.symm.trans hk
  | read => exact keeps (sameTransmitter_readStep s)
  | command b _ _ _ e =>
    cases (exec_decodeCommand b s).symm.trans e
    exact keeps (sameTransmitter_decoded b s)
  | frame a _ _ hm hq hact e => exact .frame s.sched s.now a hm hq hact e
  | micro q _ _ hm hq hwait e => exact .micro s.sched s.now q (le_refl _) hm hq hwait e
  | queue => exact keeps ⟨⟨rfl, rfl, rfl, rfl⟩, rfl⟩
  | cell l q =>
    obtain ⟨⟨htx, hscl, hsda, hat⟩, hnow⟩ := sameTransmitter_driveCell p l { s with hostOut := q }
    exact keeps ⟨⟨htx, hscl, hsda, hat⟩, hnow⟩
  | rx => exact keeps ⟨⟨rfl, rfl, rfl, rfl⟩, rfl⟩
  | device => exact keeps ⟨⟨rfl, rfl, rfl, rfl⟩, rfl⟩
  | timer d => exact keeps (sameTransmitter_raiseTimer d s)
  | power => cases htb

/-- ALL THAT A STEP CAN DO TO THE TRANSMITTER, once boot has finished and while power lasts. -/
theorem busStep_of_stepWith (hb : s.bootPos = none) (htb : t.bootPos = none) (h : stepWith p s = .next t) :
    BusStep p s t := by
  rcases stepWith_next h with ⟨te, -, -, e⟩ | ⟨d, -, -, -, e⟩ | ⟨-, r, n, hle, ha⟩
  · cases (takeEdge_eq te s).symm.trans e
    exact .keeps ⟨rfl, rfl, rfl, rfl⟩ (le_refl _)
  · obtain ⟨hsame, hnow⟩ := sameTransmitter_takeTimer e
    exact .keeps hsame (hnow ▸ le_refl _)
  · cases busStep_of_acts (s := { s with sched := r, now := n }) hb htb ha with
    | keeps hsame hnow => exact .keeps { hsame with } (hle.trans hnow)
    | frame r' n' a hm hq hact e => exact .frame r' n' a hm hq hact e
    | micro r' n' q hnow hm hq hwait e => exact .micro r' n' q (hle.trans hnow) hm hq hwait e

/-- A micro-step sets its line, moves TXPOS on and keeps the time at which it was taken (R36, R131). -/
theorem runMicro_writes {q : TxPos} (h : s.runMicro q = .next t) :
    ∃ op, microOp q.frame q.spot = some op ∧
      (t.sclOut, t.sdaOut) = linesAfter [op] (s.sclOut, s.sdaOut) ∧
      t.txPos = (nextSpot q.frame.length q.spot).map (fun spot => { q with spot := spot }) ∧
      t.microAt = s.now ∧ t.now = s.now := by
  obtain ⟨op, hop, -⟩ := runMicro_next h
  refine ⟨op, hop, ?_⟩
  cases hn : nextSpot q.frame.length q.spot with
  | some spot =>
    cases (runMicro_inside hop hn).symm.trans h
    exact ⟨rfl, rfl, rfl, rfl⟩
  | none =>
    cases (runMicro_last hop hn).symm.trans h
    exact ⟨rfl, rfl, rfl, rfl⟩

end Step

/-! ### When SDA changes -/

/-- A slot's micro-step changes SDA only while SCL is low (R133, R134, R139). -/
theorem slot_keeps_sda {b sda : Level} {m : SlotMicro} (hl : slotLines b m true sda = true) :
    (linesAfter [slotOp b m] (true, sda)).2 = sda := by
  cases m
  case sda => cases hl
  all_goals rfl

/-- Of the micro-steps of a frame that find SCL high, two change SDA: the fall in START and the rise in STOP (R132, R135). -/
theorem sda_changes_at {frame : List Byte} {spot : TxSpot} {op : MicroOp} {sda : Level}
    (hop : microOp frame spot = some op) (hl : spotLines frame spot true sda = true)
    (hne : (linesAfter [op] (true, sda)).2 ≠ sda) :
    (spot = .start .sdaFall ∧ sda = true ∧ (linesAfter [op] (true, sda)).2 = false) ∨
    (spot = .stop .sdaRise ∧ sda = false ∧ (linesAfter [op] (true, sda)).2 = true) := by
  cases spot with
  | start m => cases m <;> cases hop <;> simp_all [spotLines, startOp, linesAfter]
  | bit k i m =>
    obtain ⟨v, hv, rfl⟩ : ∃ v, frame[k]? = some v ∧ slotOp (v.getLsbD i.val) m = op := by
      simpa [microOp] using hop
    exact absurd (slot_keeps_sda (by simpa [spotLines, hv] using hl)) hne
  | ack k m =>
    obtain ⟨-, rfl⟩ : k < frame.length ∧ slotOp true m = op := by simpa [microOp] using hop
    exact absurd (slot_keeps_sda hl) hne
  | stop m => cases m <;> cases hop <;> simp_all [spotLines, stopOp, linesAfter]

/-- Settles O37: of the steps of `BusStep`, the first micro-step of a frame finds SDA high and leaves it so, and the others are
those of `sda_changes_at`. -/
theorem sdaChangesOnlyByDiscipline : Obligations.SdaChangesOnlyByDiscipline := by
  unfold Obligations.SdaChangesOnlyByDiscipline
  intro s t hinv hb hstep htb hscl _ hne
  have hseq := (runInv_of_inv hb hinv).sequencers
  cases busStep_of_stepWith hb htb hstep with
  | keeps hsame => exact absurd hsame.sdaOut hne
  | frame r n a hm hq ha h =>
    obtain ⟨-, hsda⟩ := (sequencersAgree_begin hm ha hq).mp hseq
    cases (sendFrame_eq _ _).symm.trans h
    exact absurd hsda.symm hne
  | micro r n q _ hm hq _ h =>
    obtain ⟨-, -, -, -, hlines⟩ := (sequencersAgree_inside hm hq).mp hseq
    obtain ⟨op, hop, hafter, -⟩ := runMicro_writes h
    have hsda : t.sdaOut = (linesAfter [op] (true, s.sdaOut)).2 := hscl ▸ congrArg Prod.snd hafter
    rw [hscl] at hlines
    rw [hsda] at hne ⊢
    exact ⟨q, hq, sda_changes_at hop hlines hne⟩

/-! ### How long the Waits last -/

/-- At the timed level a Wait ends T_HALF after the micro-step before it, or later (R131). -/
theorem wait_lasts {p : Params} {s : State} {r : List Turn} {n : Time} {q : TxPos}
    (hl : s.level = .timed) (hb : s.bootPos = none) (hm : s.mPhase = .act) (hq : s.txPos = some q)
    (hop : microOp q.frame q.spot = some .wait)
    (hwait : ({ s with sched := r, now := n } : State).waitEnd p = none) :
    p.value s.microAt + p.tHalf ≤ p.value n := by
  have hheld := waitEnd_isSome_iff (p := p) (s := { s with sched := r, now := n }) hb hm hq hop
  by_contra hlt
  simpa [hwait] using hheld.mpr ⟨hl, rfl, not_le.mp hlt⟩

/-- Settles O59: TXPOS moves on by a micro-step alone (`BusStep`), and a Wait's is taken after T_HALF (`wait_lasts`). -/
theorem waitLastsHalfPeriod : Obligations.WaitLastsHalfPeriod := by
  unfold Obligations.WaitLastsHalfPeriod
  intro p s t q hl hb hq hop hstep htb hne
  cases busStep_of_stepWith hb htb hstep with
  | keeps hsame => exact absurd hsame.txPos hne
  | frame r n a _ hq' => cases hq'.symm.trans hq
  | micro r n q' _ hm hq' hwait h =>
    cases hq'.symm.trans hq
    obtain ⟨-, -, -, -, -, hnow⟩ := runMicro_writes h
    rw [hnow]
    exact wait_lasts hl hb hm hq hop hwait

/-- How many waits a micro-step is: a Wait is one, a pin step none. -/
def opWaits : MicroOp → Nat
  | .pin _ _ => 0
  | .wait => 1

/-- No wait of a slot comes before its first micro-step. -/
theorem slotWaits_sda : waitsBefore.slotWaits .sda = 0 := rfl

/-- The waits of a slot before a micro-step and that one's own are those before the next; a slot has two (R133, R134). -/
theorem slotWaits_next (b : Level) (m : SlotMicro) :
    waitsBefore.slotWaits m + opWaits (slotOp b m) = (nextSlot m).elim 2 waitsBefore.slotWaits := by
  cases m <;> rfl

/-- The waits before a place and that micro-step's own are those before the next place (R140, R141). -/
theorem waitsBefore_next {frame : List Byte} {spot spot' : TxSpot} {op : MicroOp}
    (hop : microOp frame spot = some op) (hin : spotInFrame frame.length spot = true)
    (hn : nextSpot frame.length spot = some spot') :
    waitsBefore frame.length spot + opWaits op = waitsBefore frame.length spot' := by
  cases spot with
  | start m => cases m <;> cases hop <;> cases hn <;> rfl
  | bit k i m =>
    obtain ⟨v, -, rfl⟩ : ∃ v, frame[k]? = some v ∧ slotOp (v.getLsbD i.val) m = op := by
      simpa [microOp] using hop
    have hslot := slotWaits_next (v.getLsbD i.val) m
    cases hm : nextSlot m with
    | some m' =>
      simp only [nextSpot, hm, Option.some.injEq, Option.elim_some] at hn hslot
      subst hn
      simp only [waitsBefore]
      omega
    | none =>
      simp only [nextSpot, hm, Option.elim_none] at hn hslot
      split at hn <;> cases hn <;> simp only [waitsBefore, slotWaits_sda]
      case none.isTrue.refl hi =>
        have hzero : i.val = 0 := congrArg Fin.val hi
        omega
      case none.isFalse.refl hi =>
        have hpred : (i - 1).val = i.val - 1 := Fin.val_sub_one_of_ne_zero hi
        have hpos : i.val ≠ 0 := fun h => hi (Fin.ext h)
        omega
  | ack k m =>
    obtain ⟨-, rfl⟩ : k < frame.length ∧ slotOp true m = op := by simpa [microOp] using hop
    have hslot := slotWaits_next true m
    have hk : k < frame.length := by simpa [spotInFrame] using hin
    cases hm : nextSlot m with
    | some m' =>
      simp only [nextSpot, hm, Option.some.injEq, Option.elim_some] at hn hslot
      subst hn
      simp only [waitsBefore]
      omega
    | none =>
      simp only [nextSpot, hm, Option.elim_none] at hn hslot
      split at hn <;> cases hn <;> simp only [waitsBefore, slotWaits_sda] <;> omega
  | stop m => cases m <;> cases hop <;> cases hn <;> simp only [waitsBefore, stopOp, opWaits] <;> omega

/-- The last micro-step of a frame of `n` bytes is a Wait, the last of 5 + 18 n (R140, R141). -/
theorem waitsBefore_last {frame : List Byte} {spot : TxSpot} {op : MicroOp}
    (hop : microOp frame spot = some op) (hn : nextSpot frame.length spot = none) :
    waitsBefore frame.length spot + opWaits op = 5 + 18 * frame.length := by
  cases eq_waitFree_of_nextSpot hn
  cases hop
  simp only [waitsBefore, stopOp, opWaits]
  omega

/-- At the timed level a micro-step comes its waits' share of T_HALF after the one before it, or later (R131, R141). -/
theorem micro_lasts {p : Params} {s : State} {r : List Turn} {n : Time} {q : TxPos} {op : MicroOp}
    (hl : s.level = .timed) (hb : s.bootPos = none) (hm : s.mPhase = .act) (hq : s.txPos = some q)
    (hop : microOp q.frame q.spot = some op)
    (hwait : ({ s with sched := r, now := n } : State).waitEnd p = none)
    (hnow : p.value s.microAt ≤ p.value n) : p.value s.microAt + opWaits op * p.tHalf ≤ p.value n := by
  cases op with
  | pin => simpa [opWaits] using hnow
  | wait => simpa [opWaits] using wait_lasts hl hb hm hq hop hwait

/-- Settles O60: a micro-step takes its waits' share (`micro_lasts`), which makes the share before the next place
(`waitsBefore_next`), or at the end that of the whole frame, whose three bytes have 59 waits. -/
theorem frameLastsItsWaits : Obligations.FrameLastsItsWaits := by
  unfold Obligations.FrameLastsItsWaits
  intro s t q t0 hinv hb hl hq hshare hpast hstep htb
  have hseq := (runInv_of_inv hb hinv).sequencers
  cases busStep_of_stepWith hb htb hstep with
  | keeps hsame hnow =>
    rw [hsame.txPos, hsame.microAt, hq]
    refine ⟨hpast.trans hnow, ?_, nofun⟩
    rintro _ ⟨⟩
    exact hshare
  | frame r n a _ hq' => cases hq'.symm.trans hq
  | micro r n q' hnow hm hq' hwait h =>
    cases hq'.symm.trans hq
    obtain ⟨a, -, hframe, hin, -⟩ := (sequencersAgree_inside hm hq).mp hseq
    obtain ⟨op, hop, -, htx, hat, htnow⟩ := runMicro_writes h
    have hlasts := micro_lasts hl hb hm hq hop hwait (hpast.trans hnow)
    have hshare' : t0 + (waitsBefore q.frame.length q.spot + opWaits op : ℕ) * Config.timing.tHalf ≤
        Config.timing.value n := by
      push_cast
      linarith
    rw [htx, hat, htnow]
    refine ⟨le_refl _, ?next, ?last⟩
    case next =>
      intro q'' hq''
      obtain ⟨spot, hn, rfl⟩ := Option.map_eq_some_iff.mp hq''
      rw [waitsBefore_next hop hin hn] at hshare'
      exact hshare'
    case last =>
      intro hend
      have hlen : q.frame.length = 3 := by cases a <;> simp [hframe, actionFrame, actionBytes]
      rw [waitsBefore_last hop (Option.map_eq_none_iff.mp hend), hlen] at hshare'
      exact_mod_cast hshare'

end Sys2Proof.Proofs
end

section
/-! SUPPORT. The obligations about the command interpreter (spec/42_interpreter.md R150 to R158): what DECODE of each class of command
byte writes, and what a list of command bytes leaves behind. -/

namespace Sys2Proof.Proofs

open Sys2Proof.Machine

/-! ### What DECODE writes -/

/-- A first byte becomes the pending one, whichever byte was awaited (R152, R154). -/
theorem decoded_firstByte {b : Byte} (s : State) (hsync : syncBit b = true) :
    decoded b s = { s with pending := b, iState := .awaitSecond, mPhase := .read } := by
  simp only [decoded, State.noAction, hsync]

/-- A byte with sync bit 0 is dropped where a first byte is awaited (R151). -/
theorem decoded_dropped {b : Byte} {s : State} (hi : s.iState = .awaitFirst) (hsync : syncBit b = false) :
    decoded b s = { s with mPhase := .read } := by
  simp only [decoded, State.noAction, hsync, hi]

/-- A second byte emits the action that it completes (R153, R155). -/
theorem decoded_secondByte {b : Byte} {s : State} (hi : s.iState = .awaitSecond) (hsync : syncBit b = false) :
    decoded b s =
      { s with curAction := some (commandAction s.pending b), iState := .awaitFirst, mPhase := .act } := by
  simp only [decoded, State.emit, hsync, hi]

/-- A second byte with S = 1 completes Shutdown, whatever its other bits and the first byte (R76, R153). -/
theorem commandAction_shutdown (b1 : Byte) {b : Byte} (hd : shutdownBit b = true) :
    commandAction b1 b = .shutdown :=
  if_pos hd

/-- A second byte with S = 0 completes SetVoltage of the magnitude of both bytes (R75, R155). -/
theorem commandAction_setVoltage (b1 : Byte) {b : Byte} (hd : shutdownBit b = false) :
    commandAction b1 b = .setVoltage (magnitude b1 b) :=
  if_neg (Bool.eq_false_iff.mp hd)

/-! ### One command byte -/

/-- The class of a command byte has the meaning that DECODE applies (R77, R182). -/
theorem exec_of_decodeCommand_eq {i : Instr} {b : Byte} {s : State} (h : decodeCommand s.iState b = i) :
    exec i s = .next (decoded b s) :=
  h ▸ exec_decodeCommand b s

/-- Settles O6: the class is DISCARD, and DECODE drops the byte (`decoded_dropped`). -/
theorem discardDropsByte : Obligations.DiscardDropsByte := by
  unfold Obligations.DiscardDropsByte
  intro b s hi (hsync : syncBit b = false)
  have hclass : decodeCommand s.iState b = .discard b := by simp [decodeCommand, hi, hsync]
  rw [exec_of_decodeCommand_eq hclass, decoded_dropped hi hsync]

/-- Settles O7: the class is FIRST, and DECODE keeps the byte (`decoded_firstByte`). -/
theorem firstKeepsByte : Obligations.FirstKeepsByte := by
  unfold Obligations.FirstKeepsByte
  intro b s hi (hsync : syncBit b = true)
  have hclass : decodeCommand s.iState b = .first b := by simp [decodeCommand, hi, hsync]
  rw [exec_of_decodeCommand_eq hclass, decoded_firstByte s hsync]

/-- Settles O8: DECODE writes AWAIT_SECOND, which is the ISTATE it finds. -/
theorem refirstReplacesByte : Obligations.RefirstReplacesByte := by
  unfold Obligations.RefirstReplacesByte
  intro b s hi (hsync : syncBit b = true)
  have hclass : decodeCommand s.iState b = .refirst b := by simp [decodeCommand, hi, hsync]
  rw [exec_of_decodeCommand_eq hclass, decoded_firstByte s hsync, ← hi]

/-- Settles O9: bit 6 alone makes the action Shutdown (`commandAction_shutdown`). -/
theorem shutdownEmitsShutdown : Obligations.ShutdownEmitsShutdown := by
  unfold Obligations.ShutdownEmitsShutdown
  intro b s hi (hsync : syncBit b = false) (hd : shutdownBit b = true)
  have hclass : decodeCommand s.iState b = .shutdown b := by simp [decodeCommand, hi, hsync, hd]
  rw [exec_of_decodeCommand_eq hclass, decoded_secondByte hi hsync, commandAction_shutdown _ hd]

/-- Settles O10: the number written out is that of the two bytes' magnitude (`toNat_magnitude`). -/
theorem setvEmitsSetVoltage : Obligations.SetvEmitsSetVoltage := by
  unfold Obligations.SetvEmitsSetVoltage
  intro b s hi (hsync : syncBit b = false) (hd : shutdownBit b = false)
  have hclass : decodeCommand s.iState b = .setv b := by simp [decodeCommand, hi, hsync, hd]
  rw [exec_of_decodeCommand_eq hclass, decoded_secondByte hi hsync, commandAction_setVoltage _ hd,
    ← toNat_magnitude, BitVec.ofNat_toNat, BitVec.setWidth_eq]

/-! ### A list of command bytes -/

/-- The interpreter takes a list one byte at a time, and never stops at one (R78). -/
theorem interpretAll_cons (b : Byte) (bs : List Byte) (s : State) :
    interpretAll (b :: bs) s = interpretAll bs (decoded b s) := by
  rw [interpretAll, exec_decodeCommand]

/-- A first and a second byte, from any state: the first is pending and the action of the two is emitted (R150). -/
theorem interpretAll_pair {b1 b2 : Byte} (s : State) (h1 : syncBit b1 = true) (h2 : syncBit b2 = false) :
    interpretAll [b1, b2] s = .next
      { s with
        pending := b1
        curAction := some (commandAction b1 b2)
        iState := .awaitFirst
        mPhase := .act } := by
  rw [interpretAll_cons, interpretAll_cons, decoded_firstByte s h1, decoded_secondByte rfl h2]
  rfl

/-- Settles O11: the two bytes of ENC_SETV are a first and a second byte with S = 0 (`interpretAll_pair`), and their magnitude is the
one they were made from (`magnitude_firstByte`). -/
theorem hostMagnitudeRoundTrip : Obligations.HostMagnitudeRoundTrip := by
  unfold Obligations.HostMagnitudeRoundTrip
  intro w x s _
  have haction : commandAction (firstByte w) (secondByte x 0#1 (w.extractLsb' 0 5)) = .setVoltage w := by
    rw [commandAction_setVoltage _ (shutdownBit_secondByte _ _ _), magnitude_firstByte (low_secondByte _ _ _)]
  exact ⟨_, interpretAll_pair s (syncBit_firstByte w) (syncBit_secondByte _ _ _), congrArg some haction, rfl, rfl⟩

/-- Settles O12: S decides the action of the pair alone (`commandAction_shutdown`). -/
theorem shutdownTakesPrecedence : Obligations.ShutdownTakesPrecedence := by
  unfold Obligations.ShutdownTakesPrecedence
  intro b1 b2 s h1 h2 hd
  exact ⟨_, interpretAll_pair s h1 h2, congrArg some (commandAction_shutdown b1 hd), rfl, rfl⟩

/-- Settles O13, by induction on the bytes before the last: each one only writes what the last one writes again. -/
theorem syncBytesNeverAct : Obligations.SyncBytesNeverAct := by
  unfold Obligations.SyncBytesNeverAct
  intro bs b s hb hbs
  induction bs generalizing s with
  | nil =>
    rw [List.nil_append, interpretAll_cons, decoded_firstByte s hb]
    rfl
  | cons c cs ih =>
    obtain ⟨hc, hcs⟩ := List.forall_mem_cons.mp hbs
    rw [List.cons_append, interpretAll_cons, decoded_firstByte s hc]
    exact ih _ hcs

end Sys2Proof.Proofs
end

section
/-! SUPPORT. The obligations about the DAC driver (spec/43_dac_driver.md R171, R172): the frame that each action's bus form begins, with
its bytes as numbers. -/

namespace Sys2Proof.Proofs

open Sys2Proof.Machine

/-- HI of SetVoltage counts the magnitude's 256s (R83). -/
theorem dacHigh_eq_ofNat (w : Magnitude) : dacHigh w = BitVec.ofNat 8 (w.toNat / 256) := by
  apply BitVec.eq_of_toNat_eq
  rw [dacHigh, BitVec.extractLsb'_toNat, BitVec.toNat_setWidth_of_le (by omega), Nat.shiftRight_eq_div_pow,
    BitVec.toNat_ofNat]

/-- LO of SetVoltage is what HI leaves of the magnitude (R83). -/
theorem dacLow_eq_ofNat (w : Magnitude) : dacLow w = BitVec.ofNat 8 (w.toNat % 256) := by
  apply BitVec.eq_of_toNat_eq
  rw [dacLow, BitVec.extractLsb'_toNat, BitVec.toNat_setWidth_of_le (by omega), Nat.shiftRight_zero,
    BitVec.toNat_ofNat, Nat.mod_mod]

/-- An action's bus form begins the frame of 0xC0 and the action's data bytes with START's first micro-step (R82, R132, R137). -/
theorem exec_dataForm_begins (a : Action) (s : State) :
    exec (dataForm a) s = .next
      { s with
        sdaOut := true
        txPos := some { frame := 0xC0#8 :: actionBytes a, spot := .start .sclHigh }
        microAt := s.now } := by
  rw [exec_dataForm, sendFrame_eq, addressByte_eq]

/-- Settles O29: the bus form is SetVoltage's (`exec_dataForm_begins`), and its data bytes are the magnitude's quotient and remainder. -/
theorem setvDataBeginsFrame : Obligations.SetvDataBeginsFrame := by
  unfold Obligations.SetvDataBeginsFrame
  intro w s
  rw [← dacHigh_eq_ofNat, ← dacLow_eq_ofNat]
  exact exec_dataForm_begins (.setVoltage w) s

/-- Settles O30: the bus form is Shutdown's (`exec_dataForm_begins`), whose low data byte is SD_LO. -/
theorem shutdownDataBeginsFrame : Obligations.ShutdownDataBeginsFrame := by
  unfold Obligations.ShutdownDataBeginsFrame
  exact exec_dataForm_begins .shutdown

end Sys2Proof.Proofs
end

section
/-! SUPPORT. The obligations about the main loop (spec/44_main_loop.md R180 to R184): READ, the frame that ACT sends, and the resting
state. -/

namespace Sys2Proof.Proofs

open Sys2Proof.Machine

/-! ### READ -/

section Read
variable {p : Params} {s : State}

/-- In READ the foreground makes READ's step (R181). -/
theorem foregroundMove_read (hb : s.bootPos = none) (hm : s.mPhase = .read) :
    s.foregroundMove p = .done (.next s.readStep) := by
  simp only [State.foregroundMove, hb, hm]

/-- With no byte ready the foreground holds in READ (R107). -/
theorem readStep_held (hr : s.rxRdy = false) : s.readStep = s := by
  simp [State.readStep, hr]

/-- A byte that is ready is taken, and DECODE holds it (R106, R181). -/
theorem readStep_taken (hr : s.rxRdy = true) :
    s.readStep = { s with mPhase := .decode s.rxBuf, rxRdy := false } := by
  simp only [State.readStep, if_pos hr, mailboxTake_eq]

end Read

/-- Settles O25: the foreground's turn in READ is `readStep`, which takes the byte or holds. -/
theorem readTakesOrHolds : Obligations.ReadTakesOrHolds := by
  unfold Obligations.ReadTakesOrHolds
  intro s r hu hb hm hs
  rw [step_foreground hu hs, foregroundMove_read (s := { s with sched := r }) hb hm]
  split
  · rename_i hr
    exact congrArg Host.Outcome.next (readStep_taken (s := { s with sched := r }) hr)
  · rename_i hr
    exact congrArg Host.Outcome.next (readStep_held (s := { s with sched := r }) (Bool.eq_false_of_not_eq_true hr))

/-! ### The lines after a list of micro-steps -/

/-- The micro-steps of a list act on the lines one after another (R131, R140). -/
theorem linesAfter_append (ops ops' : List MicroOp) (v : Level × Level) :
    linesAfter (ops ++ ops') v = linesAfter ops' (linesAfter ops v) := by
  induction ops generalizing v with
  | nil => rfl
  | cons op ops ih =>
    cases op with
    | pin q l => cases q <;> exact ih _
    | wait => exact ih v

/-- Whatever the lines were before it, a frame leaves the bus idle (R135, R139). -/
theorem linesAfter_sendFrameOps (frame : List Byte) (v : Level × Level) :
    linesAfter (sendFrameOps frame) v = (true, true) := by
  rw [sendFrameOps, linesAfter_append]
  rfl

/-- The frame of an action has 147 micro-steps: six of START, 45 for each of the three bytes, six of STOP (R137, R140). -/
theorem length_sendFrameOps_actionFrame (a : Action) : (sendFrameOps (actionFrame a)).length = 147 := by
  have hbyte : ∀ v, (sendByteOps v).countP (fun _ => true) = 45 := fun _ => rfl
  rw [← List.countP_true, countP_sendFrameOps hbyte]
  cases a <;> rfl

/-! ### ACT sends its frame -/

/-- A place inside a frame has a micro-step. -/
theorem microOp_of_spotInFrame {frame : List Byte} {spot : TxSpot} (h : spotInFrame frame.length spot = true) :
    ∃ op, microOp frame spot = some op := by
  cases spot with
  | start m => exact ⟨_, rfl⟩
  | bit k i m =>
    have hk : k < frame.length := by simpa [spotInFrame] using h
    simp [microOp, hk]
  | ack k m =>
    have hk : k < frame.length := by simpa [spotInFrame] using h
    simp [microOp, hk]
  | stop m => exact ⟨_, rfl⟩

/-- `s` while it sends `frame`, with the lines at `v`: at a place in the frame, or past its last micro-step (R183). -/
def duringFrame (s : State) (frame : List Byte) (v : Level × Level) : Option TxSpot → State
  | some spot =>
    { s with sclOut := v.1, sdaOut := v.2, txPos := some { frame := frame, spot := spot }, microAt := s.now }
  | none =>
    { s with
      sclOut := v.1, sdaOut := v.2, txPos := none, curAction := none, mPhase := .read, microAt := s.now }

/-- The lines of `duringFrame` are `v`. -/
theorem duringFrame_lines (s : State) (frame : List Byte) (v : Level × Level) (o : Option TxSpot) :
    ((duringFrame s frame v o).sclOut, (duringFrame s frame v o).sdaOut) = v := by
  cases o <;> rfl

/-- A micro-step of the frame acts on the lines and moves on to the next place, or past the last one. -/
theorem runMicro_duringFrame {s : State} {frame : List Byte} {v : Level × Level} {spot : TxSpot} {op : MicroOp}
    (hop : microOp frame spot = some op) :
    (duringFrame s frame v (some spot)).runMicro { frame := frame, spot := spot } =
      .next (duringFrame s frame (linesAfter [op] v) (nextSpot frame.length spot)) := by
  cases hn : nextSpot frame.length spot with
  | some spot' => exact runMicro_inside hop hn
  | none => exact runMicro_last hop hn

section Acting
variable {s : State} {d : List Byte} {v : Level × Level} {spot : TxSpot} {op : MicroOp}

/-- At the event level no Wait holds the foreground (R131). -/
theorem waitEnd_event (p : Params) (hl : s.level = .event) : s.waitEnd p = none := by
  simp [State.waitEnd, hl]

/-- At the event level ACT inside a frame is the micro-step at TXPOS, the address byte's first among them (R82, R136, R140). -/
theorem actMove_event {p : Params} (hb : s.bootPos = none) (hl : s.level = .event) (hm : s.mPhase = .act)
    (hq : s.txPos = some { frame := addressByte :: d, spot := spot }) :
    (s.actMove p).answer = s.runMicro { frame := addressByte :: d, spot := spot } := by
  by_cases hspot : spot = .bit 0 7 .sda
  · subst hspot
    have hd : decodeAddress addressByte = .ok .addrByte := if_pos rfl
    calc (s.actMove p).answer
        = exec .addrByte s := by rw [actMove_address hq hd]; rfl
      _ = s.runMicro { frame := addressByte :: d, spot := .bit 0 7 .sda } := by
          rw [exec_addrByte hq]
          exact (runMicro_inside (q := { frame := addressByte :: d, spot := .bit 0 7 .sda }) rfl rfl).symm
  · rw [← foregroundMove_act hb hm, foregroundMove_micro p hb hm hq hspot, waitEnd_event p hl]
    rfl

/-- In ACT at the event level, with no choice left, a step is ACT's move (log 8). -/
theorem step_act (hu : s.Undisturbed) (hb : s.bootPos = none) (hl : s.level = .event) (hs : s.sched = [])
    (hm : s.mPhase = .act) : step s = (s.actMove Config.timing).answer := by
  have hready : s.foregroundReady = true := by simp [State.foregroundReady, hm]
  rw [step, stepWith_default hu hs, ← foregroundMove_act hb hm]
  simp only [State.defaultMove, hl, hready, if_true]

/-- What lets ACT go on undisturbed when no choice is left: the hypotheses of the statement about a whole frame. -/
structure ActsAlone (s : State) : Prop where
  undisturbed : s.Undisturbed
  booted : s.bootPos = none
  event : s.level = .event
  noChoice : s.sched = []
  acting : s.mPhase = .act

/-- A step inside the frame is the micro-step at its place. -/
theorem step_duringFrame (hs : ActsAlone s) (hop : microOp (addressByte :: d) spot = some op) :
    step (duringFrame s (addressByte :: d) v (some spot)) =
      .next (duringFrame s (addressByte :: d) (linesAfter [op] v) (nextSpot (addressByte :: d).length spot)) := by
  have hu : (duringFrame s (addressByte :: d) v (some spot)).Undisturbed := { hs.undisturbed with }
  calc step (duringFrame s (addressByte :: d) v (some spot))
      = ((duringFrame s (addressByte :: d) v (some spot)).actMove Config.timing).answer :=
        step_act hu hs.booted hs.event hs.noChoice hs.acting
    _ = (duringFrame s (addressByte :: d) v (some spot)).runMicro { frame := addressByte :: d, spot := spot } :=
        actMove_event hs.booted hs.event hs.acting rfl
    _ = _ := runMicro_duringFrame hop

/-- With no frame begun the step is START's first micro-step in the frame of CUR_ACTION (R132, R137). -/
theorem step_begin {a : Action} (hs : ActsAlone s) (hq : s.txPos = none) (ha : s.curAction = some a) :
    step s = .next (duringFrame s (actionFrame a) (linesAfter [.pin .sda true] (s.sclOut, s.sdaOut))
      (some (.start .sclHigh))) := by
  rw [step_act hs.undisturbed hs.booted hs.event hs.noChoice hs.acting, actMove_begin hq ha]
  exact (exec_dataForm a s).trans (sendFrame_eq _ s)

/-- The micro-steps from a place on: one, and those from the next place on, if there is one. -/
theorem walkOps_succ {frame : List Byte} (hop : microOp frame spot = some op) (fuel : Nat) :
    walkOps frame (fuel + 1) spot = op :: ((nextSpot frame.length spot).map (walkOps frame fuel)).getD [] := by
  simp only [walkOps, hop]
  cases nextSpot frame.length spot <;> rfl

/-- `ops` are the micro-steps of `frame` from a place on, all of them; from past the last one there are none (R140). -/
inductive FrameWalk (frame : List Byte) : Option TxSpot → List MicroOp → Prop where
  | past : FrameWalk frame none []
  | micro {spot : TxSpot} {op : MicroOp} {ops : List MicroOp} : microOp frame spot = some op →
      FrameWalk frame (nextSpot frame.length spot) ops → FrameWalk frame (some spot) (op :: ops)

/-- A walk that ends with fuel left has found all the micro-steps. By induction on the fuel. -/
theorem frameWalk_walkOps {frame : List Byte} {fuel : Nat} {spot : TxSpot} (hin : spotInFrame frame.length spot = true)
    (h0 : 0 < frame.length) (hfuel : (walkOps frame fuel spot).length < fuel) :
    FrameWalk frame (some spot) (walkOps frame fuel spot) := by
  induction fuel generalizing spot with
  | zero => exact absurd hfuel (Nat.not_lt_zero _)
  | succ fuel ih =>
    obtain ⟨op, hop⟩ := microOp_of_spotInFrame hin
    rw [walkOps_succ hop] at hfuel ⊢
    refine .micro hop ?_
    cases hn : nextSpot frame.length spot with
    | none => exact .past
    | some spot' =>
      rw [hn, List.length_cons, Nat.succ_lt_succ_iff] at hfuel
      exact ih (spotInFrame_next h0 hin hn) hfuel

/-- The micro-steps of a frame from START on are those of SendFrame. -/
theorem frameWalk_sendFrameOps (a : Action) :
    FrameWalk (actionFrame a) (some (.start .sdaHigh)) (sendFrameOps (actionFrame a)) := by
  have hlen : (actionFrame a).length = 3 := by cases a <;> rfl
  have hops : walkOps (actionFrame a) 148 (.start .sdaHigh) = sendFrameOps (actionFrame a) :=
    frameWalkIsSendFrame _ _ (List.cons_ne_nil _ _) (by omega)
  rw [← hops]
  refine frameWalk_walkOps rfl (by omega) ?_
  rw [hops, length_sendFrameOps_actionFrame]
  decide

/-- While ACT goes on undisturbed, `n` steps put the frame's next `n` micro-steps on the lines, and the frame is over after the last of
them. By induction on the walk. -/
theorem run_duringFrame (hs : ActsAlone s) {o : Option TxSpot} {ops : List MicroOp} (hwalk : FrameWalk (addressByte :: d) o ops)
    (n : Nat) (hn : n ≤ ops.length) :
    ∃ o', Host.Core.run Sys2Proof.core n (duringFrame s (addressByte :: d) v o) =
        .next (duringFrame s (addressByte :: d) (linesAfter (ops.take n) v) o') ∧
      (n = ops.length → o' = none) := by
  induction hwalk generalizing n v with
  | past =>
    obtain rfl : n = 0 := Nat.le_zero.mp hn
    exact ⟨none, rfl, fun _ => rfl⟩
  | @micro spot op ops hop hrest ih =>
    cases n with
    | zero => exact ⟨some spot, rfl, fun h => absurd h (Nat.succ_ne_zero _).symm⟩
    | succ n =>
      obtain ⟨o', hrun, hend⟩ := ih (v := linesAfter [op] v) n (Nat.succ_le_succ_iff.mp hn)
      refine ⟨o', ?_, fun h => hend (Nat.succ.inj h)⟩
      rw [run_succ n (step_duringFrame hs hop), hrun, ← linesAfter_append]
      rfl

/-- From ACT with no frame begun, `n` steps put the first `n` micro-steps of CUR_ACTION's frame on the lines, and the frame is over
after the last of them. -/
theorem run_act {a : Action} (hs : ActsAlone s) (hq : s.txPos = none) (ha : s.curAction = some a) (n : Nat)
    (hn : n ≤ (sendFrameOps (actionFrame a)).length) :
    ∃ t, Host.Core.run Sys2Proof.core n s = .next t ∧
      (t.sclOut, t.sdaOut) = linesAfter ((sendFrameOps (actionFrame a)).take n) (s.sclOut, s.sdaOut) ∧
      (n = (sendFrameOps (actionFrame a)).length → t = duringFrame s (actionFrame a) (t.sclOut, t.sdaOut) none) := by
  have hwalk := frameWalk_sendFrameOps a
  generalize sendFrameOps (actionFrame a) = ops at *
  cases hwalk with
  | @micro _ op ops hop hrest =>
    obtain rfl : .pin .sda true = op := Option.some.inj hop
    cases n with
    | zero => exact ⟨s, rfl, rfl, fun h => absurd h (Nat.succ_ne_zero _).symm⟩
    | succ n =>
      obtain ⟨o, hrun, hend⟩ := run_duringFrame hs hrest n (Nat.succ_le_succ_iff.mp hn)
      refine ⟨_, (run_succ n (step_begin hs hq ha)).trans hrun, ?_, ?_⟩
      · rw [duringFrame_lines, ← linesAfter_append]
        rfl
      · intro h
        rw [hend (Nat.succ.inj h)]
        rfl

end Acting

/-- Settles O35: ACT sends SendFrame's 147 micro-steps (`run_act`), whose last leaves the bus idle (`linesAfter_sendFrameOps`). -/
theorem actSendsWholeFrame : Obligations.ActSendsWholeFrame := by
  unfold Obligations.ActSendsWholeFrame
  intro s a hu hb hl hs hm ha hq
  have hlen := length_sendFrameOps_actionFrame a
  have hrun := run_act ⟨hu, hb, hl, hs, hm⟩ hq ha
  constructor
  · intro n hn
    obtain ⟨t, ht, hlines, -⟩ := hrun n (hlen ▸ hn)
    exact ⟨t, ht, hlines⟩
  · obtain ⟨t, ht, hlines, hend⟩ := hrun 147 hlen.ge
    rw [List.take_of_length_le hlen.le, linesAfter_sendFrameOps] at hlines
    rw [ht, hend hlen.symm, hlines]
    rfl

/-! ### The resting state -/

/-- Time passes, or would pass a tick too far at the timed level (R111, R112). -/
theorem elapse_cases (p : Params) (d : Time) (s : State) :
    s.elapse p d = .next { s with now := s.now.add (p.span d) } ∨
    (s.level = .timed ∧ s.nextTick ≠ none ∧ ∃ f, s.elapse p d = .refused f) := by
  unfold State.elapse
  split
  · rename_i tau hl ht
    split
    · exact .inl rfl
    · exact .inr ⟨hl, by simp [ht], _, rfl⟩
  · exact .inl rfl

/-- A handler's time passes, or is refused at the timed level (R213). -/
theorem handlerTook_cases (p : Params) (d : Time) (s : State) :
    s.handlerTook p d = .next { s with now := s.now.add (p.span d) } ∨
    (s.level = .timed ∧ ∃ f, s.handlerTook p d = .refused f) := by
  have helapse : s.elapse p d = .next { s with now := s.now.add (p.span d) } ∨
      (s.level = .timed ∧ ∃ f, s.elapse p d = .refused f) :=
    (elapse_cases p d s).imp_right fun ⟨hl, _, hf⟩ => ⟨hl, hf⟩
  unfold State.handlerTook
  split
  · rename_i hl _
    split
    · exact helapse
    · exact .inr ⟨hl, _, rfl⟩
  · exact helapse

/-- With the timer stopped nothing expires, at either level (R203). -/
theorem expire_stopped {p : Params} {s : State} (d : SampleDraw) (hrun : s.tmrRun = false) : s.expire p d = .next s := by
  unfold State.expire
  cases s.level with
  | event => exact congrArg Host.Outcome.next (raiseTimer_stopped d hrun)
  | timed => simp [hrun]

/-- Two states that differ at most in what is the environment's: RX, the time of its last change, SDA_DEV, NOW, the host's queue and
the choices. -/
def SameBlock (s t : State) : Prop :=
  t = { s with
    rx := t.rx
    rxAt := t.rxAt
    sdaDev := t.sdaDev
    now := t.now
    hostOut := t.hostOut
    sched := t.sched }

/-- A step that leaves a resting state at rest: the block keeps all it holds, and the choices that are left bring no falling edge. -/
structure RestStep (s t : State) : Prop where
  same : SameBlock s t
  noMoreEdges : t.edgeToCome = false
  choices : t.sched <:+ s.sched

/-- What the timed level may refuse in a resting state: time beside a nominal tick, or a handler's time (log 13). -/
def MayBeRefused (s : State) : Prop :=
  s.level = .timed ∧ (s.nextTick ≠ none ∨ ∃ d, Turn.handler d ∈ s.sched)

section Rest
variable {p : Params} {s t u : State} {l : Level} {x : Turn} {r : List Turn}

/-- What one step and then another leave as it was, both leave as it was. -/
theorem sameBlock_trans (h : SameBlock s t) (h' : SameBlock t u) : SameBlock s u := by
  unfold SameBlock at h
  rw [h] at h'
  exact h'

/-- The level of the model is not the environment's (R13). -/
theorem sameBlock_level (h : SameBlock s t) : t.level = s.level := by
  unfold SameBlock at h
  rw [h]

/-- A resting state stays one by such a step. -/
theorem quiescent_of_restStep (hq : s.Quiescent) (h : RestStep s t) : t.Quiescent where
  undisturbed :=
    { unmasked := (congrArg State.intMask h.same).trans hq.undisturbed.unmasked
      noEdge := (congrArg State.edgePend h.same).trans hq.undisturbed.noEdge
      noTimer := (congrArg State.tmrPend h.same).trans hq.undisturbed.noTimer }
  booted := (congrArg State.bootPos h.same).trans hq.booted
  reading := (congrArg State.mPhase h.same).trans hq.reading
  noByte := (congrArg State.rxRdy h.same).trans hq.noByte
  stopped := (congrArg State.tmrRun h.same).trans hq.stopped
  noMoreEdges := h.noMoreEdges

/-- What may be refused after such a step may be refused before it. -/
theorem mayBeRefused_of_restStep (h : RestStep s t) (hm : MayBeRefused t) : MayBeRefused s := by
  obtain ⟨hl, hrefused⟩ := hm
  refine ⟨(sameBlock_level h.same).symm.trans hl, hrefused.imp (fun htick hn => htick ?_) fun ⟨d, hd⟩ => ?_⟩
  · exact (congrArg State.nextTick h.same).trans hn
  · exact ⟨d, h.choices.mem hd⟩

/-- A step after a turn is taken off the list is a step from the list with the turn. -/
theorem restStep_of_turn (hs : s.sched = x :: r) (h : RestStep { s with sched := r } t) : RestStep s t where
  same := h.same
  noMoreEdges := h.noMoreEdges
  choices := h.choices.trans (hs ▸ List.suffix_cons x r)

/-- With the timer stopped, a cell that makes no falling edge writes RX and the time of its change alone (R110, R203). -/
theorem driveCell_rest (hrun : s.tmrRun = false) (hfall : (s.rx && !l) = false) :
    s.driveCell p l = { s with rx := l, rxAt := if l = s.rx then s.rxAt else some s.now } := by
  unfold State.driveCell
  rw [driveRx_no_fall p l false s hfall]
  cases s.level with
  | event => exact raiseTimer_stopped .line hrun
  | timed => rfl

/-- With the timer stopped, a turn of the host that makes no falling edge touches neither the block nor the choices. -/
theorem hostDriven_rest (p : Params) (hrun : s.tmrRun = false)
    (hfall : (s.rx && !(hostDrives s.hostOut).1.getD s.rx) = false) :
    SameBlock s (hostDriven p s) ∧ (hostDriven p s).sched = s.sched := by
  unfold hostDriven
  cases hq : s.hostOut with
  | nil => exact ⟨rfl, rfl⟩
  | cons item rest =>
    cases item with
    | pair w => exact ⟨rfl, rfl⟩
    | char c => exact ⟨rfl, rfl⟩
    | cell l =>
      rw [hq] at hfall
      dsimp only
      rw [driveCell_rest (l := l) (s := { s with hostOut := rest }) hrun hfall]
      exact ⟨rfl, rfl⟩

/-- If the levels from the head of the host's queue on have no falling edge, its turn leaves the block at rest. -/
theorem restStep_hostDriven (p : Params) (hrun : s.tmrRun = false)
    (hlevels : hasFall s.rx ((hostDrives s.hostOut).1.toList ++
      levelsToCome s.level (hostDrives s.hostOut).2 s.sched) = false) : RestStep s (hostDriven p s) := by
  rw [hasFall_toList_append, Bool.or_eq_false_iff] at hlevels
  obtain ⟨hfall, hrest⟩ := hlevels
  obtain ⟨hsame, hsched⟩ := hostDriven_rest p hrun hfall
  obtain ⟨hrx, hqueue⟩ := hostMove_drives (hostMove_answer p s)
  have hlevel : (hostDriven p s).level = s.level := sameBlock_level hsame
  refine ⟨hsame, ?_, hsched ▸ List.suffix_rfl⟩
  rw [State.edgeToCome, hrx, hlevel, hqueue, hsched]
  exact hrest

/-- On its turn in a resting state the foreground holds (R107, R184). -/
theorem stepWith_rest_foreground (hq : s.Quiescent) (hs : s.sched = .foreground :: r) :
    stepWith p s = .next { s with sched := r } := by
  obtain ⟨hm, he, ht⟩ := hq.undisturbed
  rw [stepWith_turn hm he ht hs]
  simp only [State.turnMove, foregroundMove_read (s := { s with sched := r }) hq.booted hq.reading,
    readStep_held (s := { s with sched := r }) hq.noByte, Move.answer]

/-- In a resting state the timer does not expire (R184, R203). -/
theorem stepWith_rest_expiry {d : SampleDraw} (hq : s.Quiescent) (hs : s.sched = .expiry d :: r) :
    stepWith p s = .next { s with sched := r } :=
  (stepWith_expiry hq.undisturbed hs).trans (expire_stopped d hq.stopped)

/-- When no choice is left in a resting state, the host goes on with its queue at the event level, and nothing happens at the timed
level (log 8). -/
theorem stepWith_rest_default (hq : s.Quiescent) (hs : s.sched = []) :
    stepWith p s = .next (match s.level with
      | .event => hostDriven p s
      | .timed => s) := by
  have hready : s.foregroundReady = false := by simp [State.foregroundReady, hq.booted, hq.reading, hq.noByte]
  rw [stepWith_default hq.undisturbed hs, State.defaultMove]
  cases hl : s.level with
  | event =>
    cases hout : s.hostOut with
    | nil => simp [hready, Move.answer, raiseTimer_stopped .line hq.stopped, hostDriven, hout]
    | cons item rest => simp [hready, hostMove_answer]
  | timed =>
    have hwait : s.waitEnd p = none := by simp [State.waitEnd, hl, hq.booted, hq.reading]
    have hdue : s.tickDue = none := by simp [State.tickDue, hq.stopped]
    simp [hwait, hdue, hready, Move.answer]

/-- ALL THAT A STEP CAN DO IN A RESTING STATE while power is not lost: the state stays at rest, or the timed level refuses a length of
time. -/
theorem stepWith_rest (p : Params) (hq : s.Quiescent) (hp : .powerCycle ∉ s.sched) :
    (∃ t, stepWith p s = .next t ∧ RestStep s t) ∨ (MayBeRefused s ∧ ∃ f, stepWith p s = .refused f) := by
  have hno : hasFall s.rx (levelsToCome s.level s.hostOut s.sched) = false := hq.noMoreEdges
  cases hs : s.sched with
  | nil =>
    refine .inl ⟨_, stepWith_rest_default hq hs, ?_⟩
    cases hl : s.level with
    | event =>
      rw [hl, hs, levelsToCome_host] at hno
      exact restStep_hostDriven p hq.stopped (by rw [hl, hs]; exact hno)
    | timed => exact ⟨rfl, hq.noMoreEdges, List.suffix_rfl⟩
  | cons x r =>
    rw [hs] at hno
    obtain ⟨hm, he, ht⟩ := hq.undisturbed
    have hturn := stepWith_turn (p := p) hm he ht hs
    cases x with
    | foreground =>
      exact .inl ⟨_, stepWith_rest_foreground hq hs, restStep_of_turn hs ⟨rfl, hno, List.suffix_rfl⟩⟩
    | expiry d => exact .inl ⟨_, stepWith_rest_expiry hq hs, restStep_of_turn hs ⟨rfl, hno, List.suffix_rfl⟩⟩
    | device l => exact .inl ⟨_, hturn, restStep_of_turn hs ⟨rfl, hno, List.suffix_rfl⟩⟩
    | host =>
      exact .inl ⟨_, hturn.trans (hostMove_answer p _),
        restStep_of_turn hs (restStep_hostDriven (s := { s with sched := r }) p hq.stopped hno)⟩
    | rx l missed =>
      obtain ⟨hfall, hrest⟩ := Bool.or_eq_false_iff.mp hno
      exact .inl ⟨_, hturn.trans (congrArg Host.Outcome.next (driveRx_no_fall p l missed _ hfall)),
        restStep_of_turn hs ⟨rfl, hrest, List.suffix_rfl⟩⟩
    | elapse d =>
      rcases elapse_cases p d { s with sched := r } with h | ⟨hl, htick, f, h⟩
      · exact .inl ⟨_, hturn.trans h, restStep_of_turn hs ⟨rfl, hno, List.suffix_rfl⟩⟩
      · exact .inr ⟨⟨hl, .inl htick⟩, f, hturn.trans h⟩
    | handler d =>
      rcases handlerTook_cases p d { s with sched := r } with h | ⟨hl, f, h⟩
      · exact .inl ⟨_, hturn.trans h, restStep_of_turn hs ⟨rfl, hno, List.suffix_rfl⟩⟩
      · exact .inr ⟨⟨hl, .inr ⟨d, hs ▸ List.mem_cons_self⟩⟩, f, hturn.trans h⟩
    | powerCycle => exact absurd (hs ▸ List.mem_cons_self) hp

/-- A run ends at the first refusal. -/
theorem run_refused {f : Refusal} (n : Nat) (h : step s = .refused f) :
    Host.Core.run Sys2Proof.core (n + 1) s = .refused f := by
  have hcore : Sys2Proof.core.step s = .refused f := h
  simp only [Host.Core.run, hcore]

/-- A resting state lasts while power is not lost, unless the timed level refuses a length of time. By induction on the steps. -/
theorem run_rest (hq : s.Quiescent) (hp : .powerCycle ∉ s.sched) (n : Nat) :
    (∃ t, Host.Core.run Sys2Proof.core n s = .next t ∧ t.Quiescent ∧ SameBlock s t) ∨
    (MayBeRefused s ∧ ∃ f, Host.Core.run Sys2Proof.core n s = .refused f) := by
  induction n generalizing s with
  | zero => exact .inl ⟨s, rfl, hq, rfl⟩
  | succ n ih =>
    rcases stepWith_rest Config.timing hq hp with ⟨t, hstep, hrest⟩ | ⟨hm, f, hstep⟩
    · rw [run_succ n hstep]
      rcases ih (quiescent_of_restStep hq hrest) (fun hmem => hp (hrest.choices.mem hmem)) with
        ⟨u, hrun, hu, hsame⟩ | ⟨hm, hf⟩
      · exact .inl ⟨u, hrun, hu, sameBlock_trans hrest.same hsame⟩
      · exact .inr ⟨mayBeRefused_of_restStep hrest hm, hf⟩
    · exact .inr ⟨hm, f, run_refused n hstep⟩

/-- Nothing is refused at the event level, nor in a state of the invariant with no time for a handler to come: there the stopped timer
has no nominal tick. -/
theorem not_mayBeRefused (hq : s.Quiescent)
    (h : s.level = .event ∨ (s.Inv ∧ ∀ d, Turn.handler d ∉ s.sched)) : ¬MayBeRefused s := by
  rintro ⟨hl, hrefused⟩
  rcases h with hevent | ⟨hinv, hhandler⟩
  · exact absurd (hevent.symm.trans hl) (by decide)
  · have htick : s.nextTick = none := by
      simpa [hq.stopped] using (runInv_of_inv hq.booted hinv).tickWhileArmed
    rcases hrefused with hn | ⟨d, hd⟩
    · exact hn htick
    · exact hhandler d hd

end Rest

/-- Settles O44: no turn of the block's agents has an effect at rest, and each step leaves the rest as it is (`stepWith_rest`,
`run_rest`). -/
theorem quiescentStateRests : Obligations.QuiescentStateRests := by
  unfold Obligations.QuiescentStateRests
  intro s hq
  refine ⟨?_, ?_, fun hp => ⟨?_, ?_⟩⟩
  · rintro r (hs | ⟨d, hs⟩)
    · exact stepWith_rest_foreground hq hs
    · exact stepWith_rest_expiry hq hs
  · intro hs hidle
    refine (stepWith_rest_default hq hs).trans (congrArg Host.Outcome.next ?_)
    cases hl : s.level with
    | event =>
      have hout : s.hostOut = [] := hidle.resolve_right (by simp [hl])
      simp only [hostDriven, hout]
    | timed => rfl
  · intro n t hrun
    rcases run_rest hq hp n with ⟨u, hu, hquiet, hsame⟩ | ⟨-, f, hf⟩
    · cases hu.symm.trans hrun
      exact ⟨hquiet, hsame⟩
    · cases hf.symm.trans hrun
  · intro hgo n
    rcases run_rest hq hp n with ⟨t, hrun, -⟩ | ⟨hm, -⟩
    · exact ⟨t, hrun⟩
    · exact absurd hm (not_mayBeRefused hq hgo)

end Sys2Proof.Proofs
end

section
/-! SUPPORT. The obligations about exceptions (spec/60_exceptions.md): no step faults (R200), the handlers come first and keep the
foreground's state (R206, R210 to R212), and the bound on a handler's time (R213). -/

namespace Sys2Proof.Proofs

open Sys2Proof.Machine

/-! ### No step faults -/

section Answers
variable {p : Params} {s : State}

/-- In ACT the foreground completes: CUR_ACTION begins its frame, and inside the frame TXPOS names a micro-step that the frame has
(R31, R32, R137). -/
theorem actMove_answers (p : Params) (hb : s.bootPos = none) (hm : s.mPhase = .act)
    (h : s.sequencersAgree = true) : ∃ t, (s.actMove p).answer = .next t := by
  cases hq : s.txPos with
  | none =>
    cases ha : s.curAction with
    | none => simp [State.sequencersAgree, hm, ha] at h
    | some a =>
      rw [actMove_begin hq ha]
      exact ⟨_, (exec_dataForm a s).trans (sendFrame_eq _ s)⟩
  | some q =>
    obtain ⟨a, -, hframe, hin, -⟩ := (sequencersAgree_inside hm hq).mp h
    by_cases hspot : q.spot = .bit 0 7 .sda
    · obtain ⟨frame, spot⟩ := q
      obtain rfl : frame = addressByte :: actionBytes a := hframe
      obtain rfl : spot = .bit 0 7 .sda := hspot
      rw [actMove_address hq (i := .addrByte) (if_pos rfl)]
      exact ⟨_, exec_addrByte hq⟩
    · obtain ⟨op, hop⟩ := microOp_of_spotInFrame hin
      rw [← foregroundMove_act hb hm, foregroundMove_micro p hb hm hq hspot]
      split
      · exact ⟨s, rfl⟩
      · exact ⟨_, runMicro_answers hop⟩

/-- The foreground's move completes, in boot and in each phase of the main loop (R180, R231). -/
theorem foregroundMove_answers (p : Params) (h : s.Inv) : ∃ t, (s.foregroundMove p).answer = .next t := by
  cases hb : s.bootPos with
  | some k => exact ⟨s.bootStep k, by simp only [State.foregroundMove, hb, Move.answer]⟩
  | none =>
    cases hm : s.mPhase with
    | read =>
      rw [foregroundMove_read hb hm]
      exact ⟨_, rfl⟩
    | decode b =>
      rw [foregroundMove_decode hb hm]
      exact ⟨_, exec_decodeCommand b s⟩
    | act =>
      rw [foregroundMove_act hb hm]
      exact actMove_answers p hb hm (runInv_of_inv hb h).sequencers

/-- When no choice is left, the agent whose move it is completes it, at this instant or at the end of a Wait (log 8). -/
theorem defaultMove_answers (p : Params) (h : s.Inv) : ∃ t, (s.defaultMove p).answer = .next t := by
  have hfore := foregroundMove_answers p h
  have hlater (e : Time) : ∃ t, (({ s with now := e } : State).foregroundMove p).answer = .next t :=
    foregroundMove_answers p (inv_environment h s.sched e s.hostOut s.sdaDev)
  unfold State.defaultMove
  split
  · split
    · exact hfore
    · split
      · exact ⟨_, rfl⟩
      · exact hostMove_answers p s
  · split
    · split
      · exact hfore
      · exact ⟨_, rfl⟩
    · split
      · exact hfore
      · exact ⟨_, rfl⟩
    · exact hlater _
    · split
      · exact ⟨_, rfl⟩
      · exact hlater _

/-- An answer that is no fault, and a refusal only at the timed level (log 13). -/
def NoFaultAt (lv : ModelLevel) (r : Result) : Prop :=
  (∃ t, r = .next t) ∨ (lv = .timed ∧ ∃ f, r = .refused f)

/-- At neither level is such an answer a fault, and at the event level it is a next state. -/
theorem not_fault_of_noFaultAt {lv : ModelLevel} {r : Result} (h : NoFaultAt lv r) :
    (∀ f, r ≠ .fault f) ∧ (lv = .event → ∃ t, r = .next t) := by
  rcases h with ⟨t, rfl⟩ | ⟨rfl, f, rfl⟩
  · exact ⟨nofun, fun _ => ⟨t, rfl⟩⟩
  · exact ⟨nofun, nofun⟩

/-- An expiry completes, or is refused at the timed level (R111, R112). -/
theorem expire_noFault (p : Params) (d : SampleDraw) (s : State) : NoFaultAt s.level (s.expire p d) := by
  unfold State.expire
  cases s.level with
  | event => exact .inl ⟨_, rfl⟩
  | timed =>
    dsimp only
    split
    · split
      · exact .inr ⟨rfl, _, rfl⟩
      · split
        · split
          · exact .inl ⟨_, rfl⟩
          · exact .inr ⟨rfl, _, rfl⟩
        · exact .inr ⟨rfl, _, rfl⟩
    · exact .inl ⟨_, rfl⟩

/-- A turn of the environment completes, or it is one of the three that the timed level may refuse: an expiry, time that passes, or a
handler's time. -/
theorem turnMove_noFault (p : Params) (x : Turn) (h : s.Inv) : NoFaultAt s.level (s.turnMove p x).answer := by
  cases x with
  | foreground => exact .inl (foregroundMove_answers p h)
  | host => exact .inl (hostMove_answers p s)
  | rx l missed => exact .inl ⟨_, rfl⟩
  | device l => exact .inl ⟨_, rfl⟩
  | expiry d => exact expire_noFault p d s
  | elapse d => exact (elapse_cases p d s).imp (fun e => ⟨_, e⟩) fun ⟨hl, _, hf⟩ => ⟨hl, hf⟩
  | handler d => exact (handlerTook_cases p d s).imp_left fun e => ⟨_, e⟩
  | powerCycle => exact .inl ⟨_, rfl⟩

/-- From a state of the invariant a step completes, or the timed level refuses it: a handler finds BITPOS within the byte (R25), and
every agent completes its move. -/
theorem stepWith_noFault (p : Params) (h : s.Inv) : NoFaultAt s.level (stepWith p s) := by
  rcases stepWith_cases p s with ⟨te, -, -, e⟩ | ⟨d, hm, -, -, e⟩ | ⟨-, e⟩ <;> rw [e]
  · exact .inl ⟨_, takeEdge_eq te s⟩
  · obtain ⟨-, hrun⟩ := runInv_of_unmasked h hm
    exact .inl (takeTimer_answers d hrun.bitInByte)
  · rcases chosenMove_cases p s with ⟨-, hd⟩ | ⟨x, r, -, hd⟩ <;> rw [hd]
    · exact .inl (defaultMove_answers p h)
    · exact turnMove_noFault p x (inv_environment h r s.now s.hostOut s.sdaDev)

end Answers

/-- Settles O50: `stepWith_noFault` under the implementation's parameters. -/
theorem stepsNeverFault : Obligations.StepsNeverFault := by
  unfold Obligations.StepsNeverFault
  intro s h
  exact not_fault_of_noFaultAt (stepWith_noFault Config.timing h)

/-! ### The handlers -/

/-- What every handler leaves behind: no event pending, interrupts unmasked, and the foreground's state, the host's queue, the choices
and RX as they were (R210 to R212). -/
structure Handled (s t : State) : Prop where
  noEdge : t.edgePend = none
  noTimer : t.tmrPend = none
  unmasked : t.intMask = false
  foreground : s.SameForeground t
  hostOut : t.hostOut = s.hostOut
  sched : t.sched = s.sched
  rx : t.rx = s.rx

section Handlers
variable {s t : State}

/-- EdgeFall writes the sampler's state alone (R102). -/
theorem handled_of_takeEdge {te : Time} (h : s.takeEdge te = .next t) : Handled s t := by
  cases (takeEdge_eq te s).symm.trans h
  exact ⟨rfl, rfl, rfl, ⟨rfl, rfl, rfl, rfl, rfl, rfl, rfl⟩, rfl, rfl, rfl⟩

/-- TimerTick writes the sampler's state and, with the eighth sample, the mailbox (R103, R104). -/
theorem handled_of_takeTimer {d : SampleDraw} (h : s.takeTimer d = .next t) : Handled s t := by
  rcases takeTimer_next h with ⟨-, rfl⟩ | ⟨-, rfl⟩ <;>
    exact ⟨rfl, rfl, rfl, ⟨rfl, rfl, rfl, rfl, rfl, rfl, rfl⟩, rfl, rfl, rfl⟩

end Handlers

/-- Settles O27: the step is EdgeFall if an EDGE event pends and TimerTick otherwise, and both are `Handled`. -/
theorem handlersComeFirstAndKeepForeground : Obligations.HandlersComeFirstAndKeepForeground := by
  unfold Obligations.HandlersComeFirstAndKeepForeground
  intro s hm hb hpend
  obtain ⟨t, hstep, ht⟩ : ∃ t, step s = .next t ∧ Handled s t := by
    cases he : s.edgePend with
    | some te =>
      have htake := takeEdge_eq te s
      exact ⟨_, (stepWith_edge hm he).trans htake, handled_of_takeEdge htake⟩
    | none =>
      obtain ⟨d, hd⟩ : ∃ d, s.tmrPend = some d := Option.isSome_iff_exists.mp (hpend.resolve_left (by simp [he]))
      obtain ⟨t, htake⟩ := takeTimer_answers d hb
      exact ⟨t, (stepWith_timer hm he hd).trans htake, handled_of_takeTimer htake⟩
  exact ⟨t, hstep, ht.noEdge, ht.noTimer, ht.unmasked, ht.foreground, ht.hostOut, ht.sched, ht.rx⟩

/-! ### A handler's time -/

section HandlerTime
variable {p : Params} {s t : State} {b d : Time} {r : List Turn}

/-- On a turn that gives the handler time, a step is that time's passing with the turn taken off. -/
theorem stepWith_handler (hu : s.Undisturbed) (hs : s.sched = .handler d :: r) :
    stepWith p s = ({ s with sched := r } : State).handlerTook p d :=
  stepWith_turn hu.unmasked hu.noEdge hu.noTimer hs

/-- Time that ends by T_ISR after the handler began passes as any other (R213). -/
theorem handlerTook_within (hl : s.level = .timed) (hb : s.isrAt = some b)
    (h : p.value s.now + max 0 (p.value d) ≤ p.value b + p.tIsr) : s.handlerTook p d = s.elapse p d := by
  simp only [State.handlerTook, hl, hb]
  exact if_pos (by simpa using h)

/-- Time that ends later is refused (R213, U10). -/
theorem handlerTook_beyond (hl : s.level = .timed) (hb : s.isrAt = some b)
    (h : p.value b + p.tIsr < p.value s.now + max 0 (p.value d)) :
    s.handlerTook p d = .refused .handlerTooLong := by
  simp only [State.handlerTook, hl, hb]
  exact if_neg (by simpa using h)

/-- A run that completes goes on from the state that its first step answers. -/
theorem step_of_run_succ {n : Nat} (h : Host.Core.run Sys2Proof.core (n + 1) s = .next t) :
    ∃ u, step s = .next u ∧ Host.Core.run Sys2Proof.core n u = .next t := by
  simp only [Host.Core.run] at h
  split at h
  · rename_i u hu
    exact ⟨u, hu, h⟩
  · cases h
  · cases h

/-- However often one handler is given time, all of it ends by T_ISR after the handler began (R213). By induction on the turns. -/
theorem run_handlerTurns (ds : List Time) (hu : s.Undisturbed) (hl : s.level = .timed) (hb : s.isrAt = some b)
    (hnow : Config.timing.value s.now ≤ Config.timing.value b + Config.timing.tIsr)
    (hs : s.sched = ds.map .handler ++ r) (hrun : Host.Core.run Sys2Proof.core ds.length s = .next t) :
    Config.timing.value t.now ≤ Config.timing.value b + Config.timing.tIsr ∧ t.sched = r := by
  induction ds generalizing s with
  | nil =>
    cases hrun
    exact ⟨hnow, hs⟩
  | cons d ds ih =>
    obtain ⟨u, hstep, hrest⟩ := step_of_run_succ hrun
    obtain ⟨rfl, hend⟩ := handlerTook_next ((stepWith_handler hu hs).symm.trans hstep)
    exact ih (s := { s with sched := ds.map .handler ++ r, now := s.now.add (Config.timing.span d) })
      ⟨hu.unmasked, hu.noEdge, hu.noTimer⟩ hl hb (hend hl b hb) rfl hrest

end HandlerTime

/-- Settles O54: one turn by `handlerTook_within` and `handlerTook_beyond`, several by `run_handlerTurns`. -/
theorem longHandlerIsRefused : Obligations.LongHandlerIsRefused := by
  unfold Obligations.LongHandlerIsRefused
  refine ⟨fun p s b d r hu hl hb hs => ⟨fun hlate => ?_, fun hend htick => ?_⟩, fun s t b ds r => run_handlerTurns ds⟩
  · exact (stepWith_handler hu hs).trans (handlerTook_beyond (s := { s with sched := r }) hl hb hlate)
  · have hstep : stepWith p s = ({ s with sched := r } : State).elapse p d :=
      (stepWith_handler hu hs).trans (handlerTook_within (s := { s with sched := r }) hl hb hend)
    exact ⟨_, hstep.trans (elapse_passes (s := { s with sched := r }) d fun _ => htick), by simp⟩

end Sys2Proof.Proofs
end

section
/-! SUPPORT. The obligations about reset and boot (spec/70_reset_and_hazards.md R219, R230, R231): no sampler event pends while the boot
sequence runs, and the sequence ends in the values of R43. -/

namespace Sys2Proof.Proofs

open Sys2Proof.Machine

/-! ### No sampler event in boot -/

section Booting
variable {p : Params} {s t : State} {k : BootStep}

/-- The timer raises nothing before boot has finished (R231). -/
theorem raiseTimer_booting (d : SampleDraw) (hb : s.bootPos = some k) : s.raiseTimer d = s := by
  simp [State.raiseTimer, hb]

/-- A cell of the host only changes RX before boot has finished: its edge is lost (R231). -/
theorem driveCell_booting (l : Level) (hb : s.bootPos = some k) (hoff : s.edgeEn = false) :
    s.driveCell p l = { s with rx := l, rxAt := if l = s.rx then s.rxAt else some s.now } := by
  unfold State.driveCell
  rw [driveRx_edge_off p l false s hoff]
  cases s.level with
  | event => exact raiseTimer_booting (k := k) .line hb
  | timed => rfl

/-- A boot step raises no event. -/
theorem bootStep_events (k : BootStep) (s : State) :
    (s.bootStep k).edgePend = s.edgePend ∧ (s.bootStep k).tmrPend = s.tmrPend := by
  cases k <;> exact ⟨rfl, rfl⟩

/-- No agent makes a sampler event pending while the boot sequence runs (R231). -/
theorem noEvent_of_acts (hb : s.bootPos = some k) (h : s.BootInv k) (ha : Acts p s t) :
    t.edgePend = none ∧ t.tmrPend = none := by
  have hnone : s.edgePend = none ∧ s.tmrPend = none := ⟨h.noEdge, h.noTimer⟩
  cases ha with
  | boot k' =>
    obtain ⟨hedge, htimer⟩ := bootStep_events k' s
    exact ⟨hedge.trans h.noEdge, htimer.trans h.noTimer⟩
  | cell l q =>
    rw [driveCell_booting (s := { s with hostOut := q }) l hb h.edgeOff]
    exact hnone
  | rx l missed =>
    rw [driveRx_edge_off p l missed s h.edgeOff]
    exact hnone
  | timer d =>
    rw [raiseTimer_booting d hb]
    exact hnone
  | power => exact ⟨rfl, rfl⟩
  | rest | queue | device => exact hnone
  | read hb' | command _ _ hb' | frame _ _ hb' | micro _ _ hb' => cases hb.symm.trans hb'

end Booting

/-- Settles O47: in boot interrupts are masked, so the step is an agent's, and `noEvent_of_acts` says what that leaves pending. -/
theorem noSamplerEventDuringBoot : Obligations.NoSamplerEventDuringBoot := by
  unfold Obligations.NoSamplerEventDuringBoot
  intro s t k h hb hstep
  have hboot := bootInv_of_inv hb h
  rcases stepWith_next hstep with ⟨te, hm, -⟩ | ⟨d, hm, -⟩ | ⟨-, r, n, -, ha⟩
  · cases hboot.masked.symm.trans hm
  · cases hboot.masked.symm.trans hm
  · exact noEvent_of_acts (s := { s with sched := r, now := n }) hb { hboot with } ha

/-! ### The boot sequence -/

section Boot
variable {s : State} {r : List Turn} {x : Turn} {k : BootStep}

/-- A state in which no interrupt is about to be taken takes the turn at hand, interrupts masked or not (R205, R206). -/
theorem step_turn (hn : s.intMask = true ∨ (s.edgePend = none ∧ s.tmrPend = none)) (hs : s.sched = x :: r) :
    step s = (({ s with sched := r } : State).turnMove Config.timing x).answer := by
  rcases Bool.eq_false_or_eq_true s.intMask with hm | hm
  · exact (stepWith_eq _ s).trans (by simp [State.nextMove, State.chosenMove, hm, hs])
  · obtain ⟨hedge, htimer⟩ : s.edgePend = none ∧ s.tmrPend = none := by simpa [hm] using hn
    exact stepWith_turn hm hedge htimer hs

/-- On the turn that loses and restores power a step does just that (R219, R230). -/
theorem step_powerCycle (hn : s.intMask = true ∨ (s.edgePend = none ∧ s.tmrPend = none))
    (hs : s.sched = .powerCycle :: r) : step s = .next ({ s with sched := r } : State).powerCycle :=
  step_turn hn hs

/-- On the foreground's turn in boot a run goes on from the boot step at hand (R231). -/
theorem run_bootStep (n : Nat) (hm : s.intMask = true) (hb : s.bootPos = some k) (hs : s.sched = .foreground :: r) :
    Host.Core.run Sys2Proof.core (n + 1) s =
      Host.Core.run Sys2Proof.core n (({ s with sched := r } : State).bootStep k) := by
  refine run_succ n ((step_turn (.inl hm) hs).trans ?_)
  simp only [State.turnMove, State.foregroundMove, hb, Move.answer]

/-- Five turns of the foreground run the boot sequence, and this is all that it writes (R231). -/
theorem run_boot (hm : s.intMask = true) (hb : s.bootPos = some .busIdle)
    (hs : s.sched = List.replicate 5 .foreground ++ r) :
    Host.Core.run Sys2Proof.core 5 s = .next
      { s with
        sclOut := true
        sdaOut := true
        tmrRun := false
        bitPos := 0
        rxRdy := false
        iState := .awaitFirst
        mPhase := .read
        txPos := none
        curAction := none
        edgeEn := true
        intMask := false
        bootPos := none
        sched := r } := by
  calc
    Host.Core.run Sys2Proof.core 5 s = _ := run_bootStep (k := .busIdle) 4 hm hb hs
    _ = _ := run_bootStep (k := .timerStopped) 3 hm rfl rfl
    _ = _ := run_bootStep (k := .flagsCleared) 2 hm rfl rfl
    _ = _ := run_bootStep (k := .sequencersSet) 1 hm rfl rfl
    _ = _ := run_bootStep (k := .edgeEnabled) 0 hm rfl rfl

end Boot

/-- Settles O46: the return of power masks interrupts and begins the boot sequence, which `run_boot` runs to its end; NEXT_TICK and the
pending events are cleared by the return of power itself. -/
theorem bootReachesResetValues : Obligations.BootReachesResetValues := by
  unfold Obligations.BootReachesResetValues
  intro s r hn hs
  have hboot := run_boot (s := ({ s with sched := List.replicate 5 .foreground ++ r } : State).powerCycle) rfl rfl rfl
  exact ⟨_, (run_succ 5 (step_powerCycle hn hs)).trans hboot,
    rfl, rfl, rfl, rfl, rfl, rfl, rfl, rfl, rfl, rfl, rfl, rfl, rfl, rfl, rfl, rfl⟩

end Sys2Proof.Proofs
end
